-- ==== Sys2Proof/Word.lean ====
section
/-!
DEFINITION. The 32-bit word, the fields of a float word, and the two data types every operation works on:
the element and the Block (spec/10_state.md R20 to R22, R28; spec/30_encoding.md R65).
-/

namespace Sys2Proof

/-- The unit of every interface: an unsigned 32-bit word (00_scope.md R8, R11). -/
abbrev Word := BitVec 32

/-- A feed: a finite sequence of 32-bit words addressed by a word index starting at 0 (20_memory.md R40). -/
abbrev Feed := List Word

/-- One element of a Block: a sign bit (`true` is 1, negative) and a mantissa, an unsigned integer of `WM + 1`
bits whose range `Block.legal` states (10_state.md R22). -/
structure Elem where
  sign : Bool
  mant : Nat
  deriving DecidableEq, Repr

/-- A Block: the biased shared exponent and the ordered elements (10_state.md R20, R21). -/
structure Block where
  exp : Nat
  elems : List Elem
  deriving DecidableEq, Repr

/-- The zero element `(sign 0, mantissa 0)` (10_state.md R23). -/
def Elem.zero : Elem := ⟨false, 0⟩

/-- The canonical zero Block of `n` elements (10_state.md R23). -/
def Block.zero (n : Nat) : Block := ⟨0, List.replicate n Elem.zero⟩

/-- Bit 31 of a float word, the sign `S` (30_encoding.md R65). -/
def Word.sign (w : Word) : Bool := w.getLsbD 31

/-- Bits 30:23 of a float word, the biased exponent `E` (30_encoding.md R65). -/
def Word.expField (w : Word) : Nat := (w.extractLsb' 23 8).toNat

/-- Bits 22:0 of a float word, the fraction `F` (30_encoding.md R65). -/
def Word.fracField (w : Word) : Nat := (w.extractLsb' 0 23).toNat

/-- A float word is finite when its exponent field is not all ones (10_state.md R28). -/
def Word.finite (w : Word) : Bool := w.expField != 255

/-- A float word is normal when `1 <= E <= 254` (10_state.md R28). -/
def Word.normal (w : Word) : Bool := w.expField != 0 && w.expField != 255

/-- A float word is a zero, of either sign, when `E = 0` and `F = 0` (10_state.md R28, 40_bit_utilities.md R81). -/
def Word.isZero (w : Word) : Bool := w.expField == 0 && w.fracField == 0

end Sys2Proof
end

