-- ==== Sys2Proof/Syntax.lean ====
section
/-!
DEFINITION. The seven operations, one constructor per row of spec/opcode_table.json (30_encoding.md R60, R61).
The selector has no operand fields: operands are found by position in the feeds (R63).
-/

namespace Sys2Proof

/-- The operation the selector names. -/
inductive Instr where
  /-- ENCODE: floats to a Block (41_codec.md R100). -/
  | encode
  /-- DECODE: a Block to floats (41_codec.md R113). -/
  | decode
  /-- ADD (42_arith_addsub.md R132). -/
  | add
  /-- SUB (42_arith_addsub.md R133). -/
  | sub
  /-- MUL (43_arith_muldivrecip.md R150). -/
  | mul
  /-- DIV (43_arith_muldivrecip.md R151). -/
  | div
  /-- RECIPROCAL (43_arith_muldivrecip.md R152). -/
  | reciprocal
  deriving DecidableEq, Repr

/-- The seven operations in the order the source lists them (30_encoding.md R61). -/
def Instr.all : List Instr := [.encode, .decode, .add, .sub, .mul, .div, .reciprocal]

end Sys2Proof
end

