-- ==== Sys2Proof/Config.lean ====
section
/-!
DEFINITION. What is fixed for a deployment (00_scope.md R5 to R8, 92_eei_decisions.md D1, D5, D11, D13), the
constants derived from it, and the free values: opaque constants no proof can see into.
-/

namespace Sys2Proof

/-- The map `OPCODE` from mnemonic to selector code, an open parameter (30_encoding.md R61, D5). -/
structure OpcodeMap where
  encode : Word
  decode : Word
  add : Word
  sub : Word
  mul : Word
  div : Word
  reciprocal : Word
  deriving DecidableEq, Repr

/-- The default numbering 0 to 6 in the source's listing order (30_encoding.md R61; log entry 12). -/
def OpcodeMap.default : OpcodeMap := ⟨0, 1, 2, 3, 4, 5, 6⟩

/-- The seven codes, in the source's order. -/
def OpcodeMap.codes (m : OpcodeMap) : List Word :=
  [m.encode, m.decode, m.add, m.sub, m.mul, m.div, m.reciprocal]

/-- The configuration of one deployment: block length, exponent width, mantissa fraction width (00_scope.md R5),
and the spec's other parameters: `OPCODE`, `FLUSH_SUBNORMAL_INPUT` (D11), `CANONICAL_ZERO_SIGN` (D13). -/
structure Config where
  n : Nat
  we : Nat
  wm : Nat
  opcode : OpcodeMap
  flushSubnormalInput : Bool
  canonicalZeroSign : Bool
  deriving DecidableEq, Repr

/-- The normative deployment: `N = 16, WE = 5, WM = 7`, every open parameter at its default (00_scope.md R5). -/
def Config.normative : Config := ⟨16, 5, 7, OpcodeMap.default, false, false⟩

/-- `BIAS = 2^(WE-1) - 1` (00_scope.md R6). -/
def Config.bias (c : Config) : Nat := 2 ^ (c.we - 1) - 1

/-- `EMAX = 2^WE - 1` (00_scope.md R6). -/
def Config.emax (c : Config) : Nat := 2 ^ c.we - 1

/-- `MW = WM + 1`, the width of a stored mantissa (00_scope.md R6). -/
def Config.mw (c : Config) : Nat := c.wm + 1

/-- `MMAX = 2^(WM+1) - 1` (00_scope.md R6). -/
def Config.mmax (c : Config) : Nat := 2 ^ (c.wm + 1) - 1

/-- `BASE_SHIFT = 23 - WM`, a signed quantity (00_scope.md R6). -/
def Config.baseShift (c : Config) : Int := 23 - (c.wm : Int)

/-- `BLKW = 2*N + 1`, the words one Block occupies in a feed (00_scope.md R6). -/
def Config.blkw (c : Config) : Nat := 2 * c.n + 1

/-- FREE VALUE: which unprocessed block a step takes (10_state.md R31; log entry 2), applied to `State.tick`. -/
opaque Config.freePick : Nat → Nat

/-- FREE VALUE: the 24-bit mantissa `decompose` draws for a non-finite float (40_bit_utilities.md R83; log entry
3), applied to a draw number made from `State.tick` and the lane. -/
opaque Config.freeMantissa : Nat → BitVec 24

/-- FREE VALUE: what a word the spec leaves unspecified after a reset holds (10_state.md R36; log entry 22). -/
opaque Config.freeWord : Nat → Word

/-- FREE VALUE: the rational of a non-finite word, for which `f32val` is not defined (40_bit_utilities.md R92;
log entry 20). -/
opaque Config.nonFiniteValue : Word → Rat

/-- FREE VALUE: `fdiv32` with a zero divisor, for which it is not defined (40_bit_utilities.md R91; log entry
20). -/
opaque Config.divByZero : Word → Word → Word

end Sys2Proof
end

