-- ==== Sys2Proof/WellFormed.lean ====
section
/-!
DEFINITION. The checks of well-formedness: a selector numbering (30_encoding.md R61), a configuration (00_scope.md
R7), an element and a Block (10_state.md R20 to R22), an instruction.
-/

namespace Sys2Proof

/-- `OPCODE` is "required only to be injective" (30_encoding.md R61). -/
def OpcodeMap.injective (m : OpcodeMap) : Bool := decide m.codes.Nodup

/-- The legal range of `(N, WE, WM)` (00_scope.md R7). -/
def Config.inRange (c : Config) : Bool :=
  decide (1 ≤ c.n) && decide (2 ≤ c.we) && decide (c.we ≤ 7) && decide (1 ≤ c.wm) && decide (c.wm ≤ 23)

/-- A configuration a model may run: in range (00_scope.md R7) and with an injective numbering (30_encoding.md R61;
log entry 12). -/
def Config.legal (c : Config) : Bool := c.inRange && c.opcode.injective

/-- A mantissa within its field, `0 .. MMAX` (10_state.md R22). -/
def Elem.legal (c : Config) (e : Elem) : Bool := decide (e.mant ≤ c.mmax)

/-- A Block of this configuration: `exp_shared` in `0 .. EMAX`, exactly `N` elements, every mantissa in its field
(10_state.md R20 to R22). -/
def Block.legal (c : Config) (b : Block) : Bool :=
  decide (b.exp ≤ c.emax) && decide (b.elems.length = c.n) && b.elems.all (Elem.legal c)

/-- An instruction of this machine is well-formed when its configuration gives every operation a code of its own:
the selector has no fields (30_encoding.md R60), so the numbering is all there is to check. -/
def Instr.wellFormed (m : OpcodeMap) (_ : Instr) : Bool := m.injective

end Sys2Proof
end

