-- ==== Sys2Proof/Decode.lean ====
section
/-!
DEFINITION. The decoder of the operation selector, total on every 32-bit word and rejecting an illegal code by name
(30_encoding.md R60 to R62), the encoder, and the host's entry to the decoder.
-/

namespace Sys2Proof

/-- Why a selector word is no operation. -/
inductive DecodeError where
  /-- The word is the code of none of the seven operations (30_encoding.md R62). -/
  | illegalSelector (code : Word)
  deriving DecidableEq, Repr

/-- The code of an operation under a numbering (30_encoding.md R61). -/
def encodeSelector (m : OpcodeMap) : Instr → Word
  | .encode => m.encode
  | .decode => m.decode
  | .add => m.add
  | .sub => m.sub
  | .mul => m.mul
  | .div => m.div
  | .reciprocal => m.reciprocal

/-- The operation of a selector word: the whole word is compared with each code (30_encoding.md R60), and every
other word is illegal, never a default operation (R62, 60_exceptions.md R182). -/
def decodeSelector (m : OpcodeMap) (w : Word) : Except DecodeError Instr :=
  if w = m.encode then .ok .encode
  else if w = m.decode then .ok .decode
  else if w = m.add then .ok .add
  else if w = m.sub then .ok .sub
  else if w = m.mul then .ok .mul
  else if w = m.div then .ok .div
  else if w = m.reciprocal then .ok .reciprocal
  else .error (.illegalSelector w)

/-- The decoder as the host asks for it: `w` numbered as spec/opcode_table.json numbers a row's bits, `nbits` bits
given; the selector is one 32-bit word, so a number that is no 32-bit word is no selector. -/
def decodeTableWord (nbits w : Nat) : Option Instr :=
  if nbits ≤ 32 ∧ w < 2 ^ 32 then (decodeSelector OpcodeMap.default (BitVec.ofNat 32 w)).toOption else none

end Sys2Proof
end

