-- ==== Sys2Proof/Machine/State.lean ====
section
/-!
DEFINITION. The state of the machine (10_state.md R29 to R37), its stops, and the state after reset (R36).
-/

namespace Sys2Proof.Machine

open Sys2Proof

/-- `STATUS`, an enumeration with no numeric encoding (10_state.md R33). -/
inductive Status where
  | idle
  | busy
  | done
  | errInvalidOp
  deriving DecidableEq, Repr

/-- The five block slots of one step (10_state.md R30). A slot that is `none` holds nothing, which is what every
slot does between steps (log entry 23). -/
structure Slots where
  /-- The loaded input of ENCODE, `N` float words. -/
  fa : Option (List Word)
  /-- The loaded operand of DECODE, the first operand of the two-operand operations. -/
  ba : Option Block
  /-- The second operand of the two-operand operations, the operand of RECIPROCAL. -/
  bb : Option Block
  /-- The result of every operation but DECODE. -/
  br : Option Block
  /-- The result of DECODE, `N` float words. -/
  fr : Option (List Word)
  deriving DecidableEq, Repr

/-- Slots that hold nothing: the slots between steps (10_state.md R30). -/
def Slots.empty : Slots := ⟨none, none, none, none, none⟩

/-- The state of the machine during one invocation, `(OP, NBLK, IN_A, IN_B, OUT, done, STATUS)` (10_state.md R29),
with the block slots of a step (R30), the deployment's configuration, which is a parameter and not a register (R37;
log entry 1), the caller's pending start (log entry 5) and the counter of free values (log entry 2). -/
structure State where
  /-- The deployment's configuration; no step and no move of the caller changes it (00_scope.md R5). -/
  cfg : Config
  /-- `OP`, the operation selector. -/
  op : Word
  /-- `NBLK`, the block count. -/
  nblk : Word
  /-- `IN_A`, the first input feed. -/
  inA : Feed
  /-- `IN_B`, the second input feed. -/
  inB : Feed
  /-- `OUT`, the output feed. -/
  out : Feed
  /-- `done`, the set of processed block indices, strictly rising. -/
  done : List Nat
  /-- `STATUS`. -/
  status : Status
  /-- `FA`, `BA`, `BB`, `BR`, `FR`. -/
  slots : Slots
  /-- THE MODEL'S OWN: the caller has started an invocation that the core has not yet taken up. -/
  startReq : Bool
  /-- THE MODEL'S OWN: the counter free values are applied to. -/
  tick : Nat
  deriving DecidableEq, Repr

/-- Why the machine stops with a fault. The spec's own error, InvalidOperation, is no stop: it is a next state with
`STATUS = ERR_INVALID_OP` (60_exceptions.md R181). -/
inductive Fault where
  /-- Raised by a compute or store phase that reads a block slot this step has not written, which "a model must not"
  do (10_state.md R30, R36). SAFE: no execution reaches it. -/
  | slotNotWritten
  deriving DecidableEq, Repr

/-- The situations the spec gives no meaning: "a model must have no step for them" (60_exceptions.md R191). -/
inductive Refusal where
  /-- Raised by an arm of `exec` for an instruction without a meaning. SAFE: nothing is said of it. -/
  | notModelled (mnemonic : String)
  /-- `BadConfiguration`: raised at start and by every block step when `(N, WE, WM)` is out of range (00_scope.md R7)
  or the numbering is not injective (30_encoding.md R61). SAFE. -/
  | badConfiguration
  /-- `ShortFeed`: raised at start, and by a load or a store, when a feed is shorter than 20_memory.md R44 requires.
  SAFE. -/
  | shortFeed
  /-- `MalformedBlockWord`: raised at start, and by a load, when a block-feed word exceeds its field's range
  (20_memory.md R43). SAFE. -/
  | malformedBlockWord
  /-- `FeedChangedDuringRun`: raised by a move of the caller that writes `OP`, `NBLK` or a feed, or reads `OUT`, during
  an invocation, and by a step of a running invocation whose `OP` is no operation's code, which only such a write can
  bring about (60_exceptions.md R191; log entry 9). SAFE. -/
  | feedChangedDuringRun
  /-- Raised when the caller starts an invocation while one is running (70_reset_and_hazards.md R206,
  93_implementation_defined.md U6). SAFE. -/
  | startWhileBusy
  deriving DecidableEq, Repr

/-- The machine right after reset (10_state.md R36): `STATUS = IDLE`, `done = {}`. The normative configuration
(00_scope.md R5); `OP`, `NBLK`, the feeds and the slots at the values log entries 4 and 23 name, the spec giving
none. -/
def State.reset : State where
  cfg := Config.normative
  op := 0
  nblk := 0
  inA := []
  inB := []
  out := []
  done := []
  status := .idle
  slots := Slots.empty
  startReq := false
  tick := 0

end Sys2Proof.Machine
end

