-- ==== Sys2Proof/Machine/BitUtil.lean ====
section
/-!
DEFINITION. The Bit-Layout Utilities: field extraction, the round-to-nearest-even shift, saturate and clamp
(40_bit_utilities.md R80 to R89).
-/

namespace Sys2Proof.Machine

open Sys2Proof

/-- What `decompose` reports; `exp = none` is the SENTINEL of a zero, no number (40_bit_utilities.md R81). -/
structure Decomposed where
  sign : Bool
  exp : Option Int
  mant : Nat
  deriving DecidableEq, Repr

/-- `decompose` (40_bit_utilities.md R80 to R83): normal, zero, subnormal, and for a non-finite word the largest
finite exponent with the mantissa `draw`, which no rule constrains. -/
def decompose (draw : BitVec 24) (w : Word) : Decomposed :=
  if w.expField = 255 then ⟨w.sign, some 127, draw.toNat⟩
  else if w.expField = 0 then
    if w.fracField = 0 then ⟨w.sign, none, 0⟩ else ⟨w.sign, some (-126), w.fracField⟩
  else ⟨w.sign, some ((w.expField : Int) - 127), 2 ^ 23 + w.fracField⟩

/-- Round a quotient of natural numbers to the nearest integer, ties to even: `RNE(num / den)`
(40_bit_utilities.md R87). -/
def rneDiv (num den : Nat) : Nat :=
  let q := num / den
  let rem := num % den
  if den < 2 * rem ∨ (2 * rem = den ∧ q % 2 = 1) then q + 1 else q

/-- `W_RS`, the bit-width of `round_shift_right`'s value (00_scope.md R8, D2). -/
def wRs : Nat := 32

/-- `round_shift_right` (40_bit_utilities.md R84 to R86): a left shift within the container for `shift <= 0`, zero for
`shift >= W_RS`, and between them the quotient rounded to nearest, ties to even. -/
def roundShiftRight (value : Nat) (shift : Int) : Nat :=
  if shift ≤ 0 then (value <<< (-shift).toNat) % 2 ^ wRs
  else if (wRs : Int) ≤ shift then 0
  else
    let s := shift.toNat
    let q := value >>> s
    let rem := value &&& ((1 <<< s) - 1)
    let half := 1 <<< (s - 1)
    if half < rem ∨ (rem = half ∧ q % 2 = 1) then q + 1 else q

/-- `saturate(value, max)` (40_bit_utilities.md R88). -/
def saturate (value max : Nat) : Nat := if max < value then max else value

/-- `clamp(v, lo, hi)` (40_bit_utilities.md R89). -/
def clamp (v lo hi : Int) : Int := if v < lo then lo else if hi < v then hi else v

end Sys2Proof.Machine
end

