-- ==== Sys2Proof/Machine/Float.lean ====
section
/-!
DEFINITION. The binary32 primitives of the arithmetic engine's reference contract (40_bit_utilities.md R90 to R94):
exact rationals, one rounding to nearest with ties to even, the four operations, the near-zero test. They are IEEE 754
as generally known (PRESUMED by the spec itself: log entry 13).
-/

namespace Sys2Proof.Machine

open Sys2Proof

/-- `2^k` as an exact rational, for either sign of `k` (00_scope.md R11). -/
def pow2 : Int → Rat
  | .ofNat k => ((2 ^ k : Nat) : Rat)
  | .negSucc k => mkRat 1 (2 ^ (k + 1))

/-- The float word with the given sign, exponent field and fraction field (30_encoding.md R65). -/
def packFloat (sign : Bool) (expField : BitVec 8) (fracField : BitVec 23) : Word :=
  BitVec.ofBool sign ++ expField ++ fracField

/-- A value with the sign a sign bit gives it, `(-1)^S * a`. -/
def signed (sign : Bool) (a : Rat) : Rat := if sign then -a else a

/-- `f32val`, the exact rational a finite word denotes (40_bit_utilities.md R92); of a non-finite word nothing is
known (log entry 20). -/
def f32val (w : Word) : Rat :=
  if w.finite then
    let d := decompose 0 w
    match d.exp with
    | none => 0
    | some e => signed d.sign ((d.mant : Rat) * pow2 (e - 23))
  else Config.nonFiniteValue w

/-- `f32exact(S, m, k)`, the word whose value is exactly `(-1)^S * m * 2^k` (40_bit_utilities.md R93). -/
def f32exact (sign : Bool) (m : Nat) (k : Int) : Word :=
  let p := Nat.log2 m
  packFloat sign (BitVec.ofInt 8 (k + p + 127)) (BitVec.ofNat 23 (m <<< (23 - p)))

/-- `RNE(x)` for a non-negative rational `x` (40_bit_utilities.md R87). -/
def rne (x : Rat) : Nat := rneDiv x.num.toNat x.den

/-- `floor(log2(a))` for a positive rational: the integer `e` with `2^e <= a < 2^(e+1)` (40_bit_utilities.md R90). The
quotient of the two leading powers of two is `e` or one above it. -/
def floorLog2 (a : Rat) : Int :=
  let e : Int := (Nat.log2 a.num.toNat : Int) - (Nat.log2 a.den : Int)
  if pow2 e ≤ a then e else e - 1

/-- `rnd32` after the exponent and the rounded integer significand are known: the carry into the next binade, the
overflow to infinity, the subnormal result and the normal one (40_bit_utilities.md R90). -/
def rnd32Pack (sign : Bool) (e : Int) (m : Nat) : Word :=
  let e' := if m = 2 ^ 24 then e + 1 else e
  let m' := if m = 2 ^ 24 then 2 ^ 23 else m
  if 127 < e' then packFloat sign 255 0
  else if m' < 2 ^ 23 then packFloat sign 0 (BitVec.ofNat 23 m')
  else packFloat sign (BitVec.ofInt 8 (e' + 127)) (BitVec.ofNat 23 m')

/-- `rnd32`: an exact rational rounded to binary32, ties to even (40_bit_utilities.md R90, D12). -/
def rnd32 (q : Rat) : Word :=
  if q = 0 then 0
  else
    let sign := decide (q < 0)
    let a := if q < 0 then -q else q
    let e := max (floorLog2 a) (-126)
    rnd32Pack sign e (rne (a / pow2 (e - 23)))

/-- `fadd32` (40_bit_utilities.md R91). The sign of an exactly zero result is not carried (R91; log entry 25). -/
def fadd32 (x y : Word) : Word := rnd32 (f32val x + f32val y)

/-- `fsub32` (40_bit_utilities.md R91). -/
def fsub32 (x y : Word) : Word := rnd32 (f32val x - f32val y)

/-- `fmul32` (40_bit_utilities.md R91). -/
def fmul32 (x y : Word) : Word := rnd32 (f32val x * f32val y)

/-- `fdiv32`, defined for a divisor whose value is not zero (40_bit_utilities.md R91); the near-zero rule removes the
other case before any call (43_arith_muldivrecip.md R153; log entry 20). -/
def fdiv32 (x y : Word) : Word :=
  if f32val y = 0 then Config.divByZero x y else rnd32 (f32val x / f32val y)

/-- `NZ_THRESH = 10^-30` (00_scope.md R8, D19). -/
def nzThresh : Rat := mkRat 1 (10 ^ 30)

/-- `near_zero(w)`: `|f32val(w)| <= NZ_THRESH`, compared exactly (40_bit_utilities.md R94). -/
def nearZero (w : Word) : Bool := decide (f32val w ≤ nzThresh) && decide (-nzThresh ≤ f32val w)

end Sys2Proof.Machine
end

