-- ==== Sys2Proof/Machine/Codec.lean ====
section
/-!
DEFINITION. The codec on values: `encode` of `N` float words and `decode` of a Block (41_codec.md R100 to R117).
-/

namespace Sys2Proof.Machine

open Sys2Proof

/-- `decompose` as ENCODE applies it to an input: value-exact on subnormals, or, where the deployment sets
`FLUSH_SUBNORMAL_INPUT`, a subnormal taken as a zero (40_bit_utilities.md R82, D11; log entry 14). -/
def decomposeInput (cfg : Config) (draw : BitVec 24) (w : Word) : Decomposed :=
  if cfg.flushSubnormalInput ∧ w.expField = 0 then ⟨w.sign, none, 0⟩ else decompose draw w

/-- The scan: the largest unbiased exponent among the nonzero elements, none when every element is zero
(41_codec.md R101). -/
def maxExp (ds : List Decomposed) : Option Int := (ds.filterMap Decomposed.exp).max?

/-- The shared exponent, `clamp(max_exp + BIAS, 0, EMAX)` (41_codec.md R103). -/
def sharedExp (cfg : Config) (mx : Int) : Nat := (clamp (mx + cfg.bias) 0 cfg.emax).toNat

/-- The sign of a stored element: the float's own sign, also where the mantissa rounds to 0 (41_codec.md R107), unless
the deployment sets `CANONICAL_ZERO_SIGN` (D13; log entry 15). -/
def storedSign (cfg : Config) (sign : Bool) (mant : Nat) : Bool :=
  sign && !(cfg.canonicalZeroSign && mant == 0)

/-- One stored element against the unclamped `max_exp` (41_codec.md R104, R105, R107 to R109). -/
def encodeElem (cfg : Config) (mx : Int) (d : Decomposed) : Elem :=
  match d.exp with
  | none => Elem.zero
  | some e =>
    let m := saturate (roundShiftRight d.mant (cfg.baseShift + (mx - e))) cfg.mmax
    ⟨storedSign cfg d.sign m, m⟩

/-- `encode` after decomposition (41_codec.md R112). -/
def encodeDecomposed (cfg : Config) (ds : List Decomposed) : Block :=
  match maxExp ds with
  | none => Block.zero cfg.n
  | some mx => ⟨sharedExp cfg mx, ds.map (encodeElem cfg mx)⟩

/-- `encode(ws)` (41_codec.md R112); `draw i` is the mantissa lane `i` has if its word is non-finite (R110). -/
def encodeBlock (cfg : Config) (draw : Nat → BitVec 24) (ws : List Word) : Block :=
  encodeDecomposed cfg (ws.mapIdx fun i w => decomposeInput cfg (draw i) w)

/-- One decoded element: a zero with the element's sign for mantissa 0 (41_codec.md R115, D14), else exactly
`(-1)^s * m * 2^(E - BIAS - WM)` (R114). -/
def decodeElem (cfg : Config) (e : Nat) (el : Elem) : Word :=
  if el.mant = 0 then packFloat el.sign 0 0
  else f32exact el.sign el.mant ((e : Int) - cfg.bias - cfg.wm)

/-- `decode(B)` (41_codec.md R114). -/
def decodeBlock (cfg : Config) (b : Block) : List Word := b.elems.map (decodeElem cfg b.exp)

end Sys2Proof.Machine
end

