-- ==== Sys2Proof/Machine/Arith.lean ====
section
/-!
DEFINITION. The arithmetic engine on Blocks, by the reference contract: decode, operate element-wise in binary32,
re-encode (42_arith_addsub.md R130 to R133, 43_arith_muldivrecip.md R150 to R153).
-/

namespace Sys2Proof.Machine

open Sys2Proof

/-- The reference contract for a two-operand operation with float primitive `fop` (42_arith_addsub.md R130). -/
def referenceOp (cfg : Config) (draw : Nat → BitVec 24) (fop : Word → Word → Word) (a b : Block) : Block :=
  encodeBlock cfg draw (List.zipWith fop (decodeBlock cfg a) (decodeBlock cfg b))

/-- `add(A, B)` (42_arith_addsub.md R132). -/
def addBlock (cfg : Config) (draw : Nat → BitVec 24) (a b : Block) : Block := referenceOp cfg draw fadd32 a b

/-- `sub(A, B)` (42_arith_addsub.md R133). -/
def subBlock (cfg : Config) (draw : Nat → BitVec 24) (a b : Block) : Block := referenceOp cfg draw fsub32 a b

/-- `mul(A, B)` (43_arith_muldivrecip.md R150). -/
def mulBlock (cfg : Config) (draw : Nat → BitVec 24) (a b : Block) : Block := referenceOp cfg draw fmul32 a b

/-- One quotient with the near-zero divisor policy: `+0.0` where the decoded divisor is near zero, the dividend not
examined (43_arith_muldivrecip.md R153). -/
def divLane (x y : Word) : Word := if nearZero y then 0 else fdiv32 x y

/-- `div(A, B)` (43_arith_muldivrecip.md R151). -/
def divBlock (cfg : Config) (draw : Nat → BitVec 24) (a b : Block) : Block := referenceOp cfg draw divLane a b

/-- The binary32 constant 1.0, the numerator of RECIPROCAL (43_arith_muldivrecip.md R152). -/
def oneWord : Word := 0x3F800000

/-- `reciprocal(B)` (43_arith_muldivrecip.md R152). -/
def reciprocalBlock (cfg : Config) (draw : Nat → BitVec 24) (b : Block) : Block :=
  encodeBlock cfg draw ((decodeBlock cfg b).map (divLane oneWord))

end Sys2Proof.Machine
end

