-- ==== Sys2Proof/Machine/Operands.lean ====
section
/-!
DEFINITION. The feeds and the operand forms: one word, a run of words, floats and Blocks in a feed (20_memory.md R40 to
R44, R56; 30_encoding.md R63, R64).
-/

namespace Sys2Proof.Machine

open Sys2Proof

/-- `MemRead(space, a, 1)`: the word at an index of a feed; an index outside the feed does not exist (20_memory.md R40,
R56). -/
def memRead (f : Feed) (a : Nat) : Option Word := f[a]?

/-- `MemWrite(OUT, a, 1, v)`: the feed with the word at `a` replaced (20_memory.md R56). -/
def memWrite (f : Feed) (a : Nat) (v : Word) : Option Feed := if a < f.length then some (f.set a v) else none

/-- The `k` words of a feed from index `a` on, one `MemRead` each. -/
def readWords (f : Feed) : Nat → Nat → Option (List Word)
  | _, 0 => some []
  | a, k + 1 =>
    match memRead f a, readWords f (a + 1) k with
    | some w, some ws => some (w :: ws)
    | _, _ => none

/-- Words stored in a feed from index `a` on, one `MemWrite` each. -/
def writeWords (f : Feed) (a : Nat) : List Word → Option Feed
  | [] => some f
  | w :: ws =>
    match memWrite f a w with
    | some f' => writeWords f' (a + 1) ws
    | none => none

/-- `LoadFloats(space, b)`: every 32-bit word is some float; a feed that ends before the block does is refused
(20_memory.md R41, R56; 60_exceptions.md R191). -/
def loadFloats (cfg : Config) (f : Feed) (b : Nat) : Except Refusal (List Word) :=
  match readWords f (b * cfg.n) cfg.n with
  | some ws => .ok ws
  | none => .error .shortFeed

/-- The field ranges of the words of one Block (20_memory.md R43). -/
def blockWordsLegal (cfg : Config) (e : Word) (ss ms : List Word) : Bool :=
  decide (e.toNat ≤ cfg.emax) && ss.all (fun s => decide (s.toNat ≤ 1)) && ms.all (fun m => decide (m.toNat ≤ cfg.mmax))

/-- The Block of an exponent word, `N` sign words and `N` mantissa words (20_memory.md R42, 30_encoding.md R64). -/
def assembleBlock (e : Word) (ss ms : List Word) : Block :=
  ⟨e.toNat, List.zipWith (fun s m => ⟨s.toNat == 1, m.toNat⟩) ss ms⟩

/-- `LoadBlock(space, b)`: the exponent word, the sign words, the mantissa words; a word beyond its field is refused,
never truncated (20_memory.md R42, R43, R56). -/
def loadBlock (cfg : Config) (f : Feed) (b : Nat) : Except Refusal Block :=
  match memRead f (b * cfg.blkw), readWords f (b * cfg.blkw + 1) cfg.n,
      readWords f (b * cfg.blkw + 1 + cfg.n) cfg.n with
  | some e, some ss, some ms =>
    if blockWordsLegal cfg e ss ms then .ok (assembleBlock e ss ms) else .error .malformedBlockWord
  | _, _, _ => .error .shortFeed

/-- The sign word of an element, zero-extended (30_encoding.md R64). -/
def signWord (e : Elem) : Word := if e.sign then 1 else 0

/-- The mantissa word of an element, zero-extended (30_encoding.md R64). -/
def mantWord (e : Elem) : Word := BitVec.ofNat 32 e.mant

/-- The `BLKW` words of a Block in a feed: exponent, signs, mantissas (20_memory.md R42). -/
def blockWords (b : Block) : List Word :=
  BitVec.ofNat 32 b.exp :: (b.elems.map signWord ++ b.elems.map mantWord)

/-- Words stored in the output feed, or the refusal of a feed that is too short. -/
def storeWords (f : Feed) (a : Nat) (ws : List Word) : Except Refusal Feed :=
  match writeWords f a ws with
  | some f' => .ok f'
  | none => .error .shortFeed

/-- `StoreFloats(b, ws)` (20_memory.md R56). -/
def storeFloats (cfg : Config) (f : Feed) (b : Nat) (ws : List Word) : Except Refusal Feed :=
  storeWords f (b * cfg.n) ws

/-- `StoreBlock(b, B)` (20_memory.md R56). -/
def storeBlock (cfg : Config) (f : Feed) (b : Nat) (blk : Block) : Except Refusal Feed :=
  storeWords f (b * cfg.blkw) (blockWords blk)

/-- What a feed carries for an operation (20_memory.md R44). -/
inductive FeedUse where
  | notUsed
  | floats
  | blocks
  deriving DecidableEq, Repr

/-- The words one block takes in a feed of this use (20_memory.md R41, R42, R44). -/
def useWords (cfg : Config) : FeedUse → Nat
  | .notUsed => 0
  | .floats => cfg.n
  | .blocks => cfg.blkw

/-- What `IN_A` carries (20_memory.md R44). -/
def useInA : Instr → FeedUse
  | .encode => .floats
  | .decode | .add | .sub | .mul | .div => .blocks
  | .reciprocal => .notUsed

/-- What `IN_B` carries (20_memory.md R44). -/
def useInB : Instr → FeedUse
  | .encode | .decode => .notUsed
  | .add | .sub | .mul | .div | .reciprocal => .blocks

/-- What `OUT` carries (20_memory.md R44). -/
def useOut : Instr → FeedUse
  | .decode => .floats
  | .encode | .add | .sub | .mul | .div | .reciprocal => .blocks

/-- The feed is long enough for `nblk` blocks of this use; more words are legal (20_memory.md R44). -/
def feedFits (cfg : Config) (u : FeedUse) (nblk : Nat) (f : Feed) : Bool := decide (nblk * useWords cfg u ≤ f.length)

/-- Block `b` of a feed has every word in its field's range, where the feed carries Blocks (20_memory.md R43). -/
def blockReadable (cfg : Config) (u : FeedUse) (f : Feed) (b : Nat) : Bool :=
  match u with
  | .blocks => (loadBlock cfg f b).isOk
  | _ => true

/-- Every block `b < nblk` of a feed has every word in its field's range (60_exceptions.md R191). -/
def feedReadable (cfg : Config) (u : FeedUse) (nblk : Nat) (f : Feed) : Bool :=
  (List.range nblk).all (blockReadable cfg u f)

end Sys2Proof.Machine
end

