-- ==== Sys2Proof/Machine/Ops.lean ====
section
/-!
DEFINITION. The shared operations of the machine: the choice of a block, the phases of a step, the start of an
invocation, taking InvalidOperation, retiring a block (10_state.md R29 to R31, 30_encoding.md R63, 60_exceptions.md
R180 to R191).
-/

namespace Sys2Proof.Machine

open Sys2Proof

/-- The outcome of a step of this machine. -/
abbrev Result := Host.Outcome State Fault Refusal

/-- One phase after another: a stop of the first ends the step. -/
def andThen (r : Result) (k : State → Result) : Result :=
  match r with
  | .next s => k s
  | .fault f => .fault f
  | .refused f => .refused f

/-- `NBLK` as a number (10_state.md R33). -/
def nblkNat (s : State) : Nat := s.nblk.toNat

/-- The block indices not yet processed, `{0 .. NBLK-1} \ done` (10_state.md R31). -/
def remaining (s : State) : List Nat := (List.range (nblkNat s)).filter fun b => !s.done.contains b

/-- The block this step takes: any unprocessed one, the choice being a free value where there is a choice (10_state.md
R31, 70_reset_and_hazards.md R203; log entry 2). -/
def pickBlock (s : State) : Option Nat :=
  match remaining s with
  | [] => none
  | [b] => some b
  | b :: c :: rest => (b :: c :: rest)[Config.freePick s.tick % (rest.length + 2)]?

/-- The mantissa draw of lane `i` in this step (40_bit_utilities.md R83; log entry 3). -/
def laneDraw (s : State) (i : Nat) : BitVec 24 := Config.freeMantissa (s.tick + i)

/-- A block index put into the strictly rising list that holds the set `done` (10_state.md R29). -/
def insertIndex (b : Nat) : List Nat → List Nat
  | [] => [b]
  | c :: cs => if b < c then b :: c :: cs else if b = c then c :: cs else c :: insertIndex b cs

/-- The step begins with every slot holding nothing (10_state.md R30). -/
def clearSlots (s : State) : State := { s with slots := Slots.empty }

/-- `FA <- LoadFloats(IN_A, b)` (30_encoding.md R63). -/
def loadFA (b : Nat) (s : State) : Result :=
  match loadFloats s.cfg s.inA b with
  | .ok ws => .next { s with slots := { s.slots with fa := some ws } }
  | .error r => .refused r

/-- `BA <- LoadBlock(IN_A, b)` (30_encoding.md R63). -/
def loadBA (b : Nat) (s : State) : Result :=
  match loadBlock s.cfg s.inA b with
  | .ok blk => .next { s with slots := { s.slots with ba := some blk } }
  | .error r => .refused r

/-- `BB <- LoadBlock(IN_B, b)` (30_encoding.md R63). -/
def loadBB (b : Nat) (s : State) : Result :=
  match loadBlock s.cfg s.inB b with
  | .ok blk => .next { s with slots := { s.slots with bb := some blk } }
  | .error r => .refused r

/-- `BA <- LoadBlock(IN_A, b)`; `BB <- LoadBlock(IN_B, b)` (30_encoding.md R63). -/
def loadBABB (b : Nat) (s : State) : Result := andThen (loadBA b s) (loadBB b)

/-- `BR <- f(FA)`, the compute phase of ENCODE (30_encoding.md R63). -/
def computeBRofFA (f : List Word → Block) (s : State) : Result :=
  match s.slots.fa with
  | some ws => .next { s with slots := { s.slots with br := some (f ws) } }
  | none => .fault .slotNotWritten

/-- `FR <- f(BA)`, the compute phase of DECODE (30_encoding.md R63). -/
def computeFRofBA (f : Block → List Word) (s : State) : Result :=
  match s.slots.ba with
  | some a => .next { s with slots := { s.slots with fr := some (f a) } }
  | none => .fault .slotNotWritten

/-- `BR <- f(BA, BB)`, the compute phase of the two-operand operations (30_encoding.md R63). -/
def computeBRofBABB (f : Block → Block → Block) (s : State) : Result :=
  match s.slots.ba, s.slots.bb with
  | some a, some b => .next { s with slots := { s.slots with br := some (f a b) } }
  | _, _ => .fault .slotNotWritten

/-- `BR <- f(BB)`, the compute phase of RECIPROCAL (30_encoding.md R63). -/
def computeBRofBB (f : Block → Block) (s : State) : Result :=
  match s.slots.bb with
  | some b => .next { s with slots := { s.slots with br := some (f b) } }
  | none => .fault .slotNotWritten

/-- `StoreBlock(b, BR)` (30_encoding.md R63). -/
def storeBR (b : Nat) (s : State) : Result :=
  match s.slots.br with
  | some blk =>
    match storeBlock s.cfg s.out b blk with
    | .ok f => .next { s with out := f }
    | .error r => .refused r
  | none => .fault .slotNotWritten

/-- `StoreFloats(b, FR)` (30_encoding.md R63). -/
def storeFR (b : Nat) (s : State) : Result :=
  match s.slots.fr with
  | some ws =>
    match storeFloats s.cfg s.out b ws with
    | .ok f => .next { s with out := f }
    | .error r => .refused r
  | none => .fault .slotNotWritten

/-- The invocation ends when every block is processed: then `STATUS <- DONE` (10_state.md R31). -/
def settleStatus (s : State) : State := if remaining s = [] then { s with status := .done } else s

/-- The end of a block's step: `b` joins `done`, the slots hold nothing any more, fresh draws are used next, and the
step of the last block sets `STATUS` (10_state.md R30, R31; log entry 29). -/
def retireBlock (b : Nat) (s : State) : State :=
  settleStatus { s with done := insertIndex b s.done, slots := Slots.empty, tick := s.tick + s.cfg.n + 1 }

/-- One step of a running invocation: load, compute, store for one unprocessed block (30_encoding.md R63). Where no
block is left the invocation is at its end (10_state.md R31). -/
def blockStep (load : Nat → State → Result) (compute : State → Result) (store : Nat → State → Result) (s : State) :
    Result :=
  if s.cfg.legal then
    match pickBlock s with
    | none => .next (settleStatus s)
    | some b =>
      andThen (load b (clearSlots s)) fun s1 =>
        andThen (compute s1) fun s2 =>
          andThen (store b s2) fun s3 => .next (retireBlock b s3)
  else .refused .badConfiguration

/-- The operation `OP` selects (30_encoding.md R60 to R62). -/
def selectedInstr (s : State) : Option Instr := (decodeSelector s.cfg.opcode s.op).toOption

/-- TAKING THE EXCEPTION InvalidOperation: `STATUS <- ERR_INVALID_OP`; nothing is loaded, invoked or written, and the
new invocation's `done` is empty (60_exceptions.md R180, R181, R186; log entry 11). There is no return from it: the
caller starts afresh (R187). -/
def raiseInvalidOperation (s : State) : State := { s with status := .errInvalidOp, done := [], startReq := false }

/-- Every feed the operation uses is long enough for the whole invocation (20_memory.md R44). -/
def launchFits (i : Instr) (s : State) : Bool :=
  feedFits s.cfg (useInA i) (nblkNat s) s.inA && feedFits s.cfg (useInB i) (nblkNat s) s.inB &&
    feedFits s.cfg (useOut i) (nblkNat s) s.out

/-- Every word of every Block the operation reads is in its field's range (20_memory.md R43). -/
def launchReadable (i : Instr) (s : State) : Bool :=
  feedReadable s.cfg (useInA i) (nblkNat s) s.inA && feedReadable s.cfg (useInB i) (nblkNat s) s.inB

/-- The start of an invocation: the selector first, then the launch premises, then `STATUS <- BUSY ; done <- {}`; an
invocation of no block is done at once (60_exceptions.md R181, R185, R191; 10_state.md R31). -/
def startInvocation (s : State) : Result :=
  match selectedInstr s with
  | none => .next (raiseInvalidOperation s)
  | some i =>
    if !s.cfg.legal then .refused .badConfiguration
    else if !launchFits i s then .refused .shortFeed
    else if !launchReadable i s then .refused .malformedBlockWord
    else .next (settleStatus { s with status := .busy, done := [], startReq := false })

/-- What the core does between block steps: it takes up a requested start; while BUSY it runs the selected operation
by `run`, and an `OP` that is no code can only have been written during the run; with nothing started it stays as it
is (60_exceptions.md R181, R191; log entries 5, 7 and 9). -/
def coreStep (run : Instr → State → Result) (s : State) : Result :=
  match s.startReq, s.status with
  | true, .busy => .refused .startWhileBusy
  | true, _ => startInvocation s
  | false, .busy =>
    match selectedInstr s with
    | some i => run i s
    | none => .refused .feedChangedDuringRun
  | false, _ => .next s

/-- A feed with zero words appended up to a length. -/
def padFeed (k : Nat) (f : Feed) : Feed := f ++ List.replicate (k - f.length) 0

/-- The machine with an invocation of one block launched with selector `w`: what the caller's writes and start bring
about (log entry 5). A feed too short for one block of the widest use is filled up with zero words. -/
def placeSelector (s : State) (w : Word) : State :=
  { s with
    op := w
    nblk := 1
    done := []
    status := .busy
    startReq := false
    inA := padFeed s.cfg.blkw s.inA
    inB := padFeed s.cfg.blkw s.inB
    out := padFeed s.cfg.blkw s.out }

end Sys2Proof.Machine
end

