-- ==== Sys2Proof/Machine/ArithOps.lean ====
section
/-!
DEFINITION. The meanings of ADD, SUB, MUL, DIV and RECIPROCAL: one block each (30_encoding.md R63).
-/

namespace Sys2Proof.Machine

open Sys2Proof

/-- ADD (42_arith_addsub.md R132). -/
def execAdd (s : State) : Host.Outcome State Fault Refusal :=
  blockStep loadBABB (computeBRofBABB (addBlock s.cfg (laneDraw s))) storeBR s

/-- SUB: minuend from `IN_A`, subtrahend from `IN_B` (42_arith_addsub.md R133). -/
def execSub (s : State) : Host.Outcome State Fault Refusal :=
  blockStep loadBABB (computeBRofBABB (subBlock s.cfg (laneDraw s))) storeBR s

/-- MUL (43_arith_muldivrecip.md R150). -/
def execMul (s : State) : Host.Outcome State Fault Refusal :=
  blockStep loadBABB (computeBRofBABB (mulBlock s.cfg (laneDraw s))) storeBR s

/-- DIV: dividend from `IN_A`, divisor from `IN_B` (43_arith_muldivrecip.md R151). -/
def execDiv (s : State) : Host.Outcome State Fault Refusal :=
  blockStep loadBABB (computeBRofBABB (divBlock s.cfg (laneDraw s))) storeBR s

/-- RECIPROCAL: the operand from `IN_B`, `IN_A` not read (43_arith_muldivrecip.md R152). -/
def execReciprocal (s : State) : Host.Outcome State Fault Refusal :=
  blockStep loadBB (computeBRofBB (reciprocalBlock s.cfg (laneDraw s))) storeBR s

end Sys2Proof.Machine
end

