-- ==== Sys2Proof/Machine/CodecOps.lean ====
section
/-!
DEFINITION. The meanings of ENCODE and DECODE: one block each (30_encoding.md R63, 41_codec.md R100, R113).
-/

namespace Sys2Proof.Machine

open Sys2Proof

/-- ENCODE: `FA <- LoadFloats(IN_A, b)`; `BR <- encode(FA)`; `StoreBlock(b, BR)` (41_codec.md R100, R112). -/
def execEncode (s : State) : Host.Outcome State Fault Refusal :=
  blockStep loadFA (computeBRofFA (encodeBlock s.cfg (laneDraw s))) storeBR s

/-- DECODE: `BA <- LoadBlock(IN_A, b)`; `FR <- decode(BA)`; `StoreFloats(b, FR)` (41_codec.md R113, R114). -/
def execDecode (s : State) : Host.Outcome State Fault Refusal :=
  blockStep loadBA (computeFRofBA (decodeBlock s.cfg)) storeFR s

end Sys2Proof.Machine
end

