-- ==== Sys2Proof/Machine/Step.lean ====
section
/-!
DEFINITION. One step of the core (10_state.md R31, 60_exceptions.md R181), and the host's way to place a selector.
-/

namespace Sys2Proof.Machine

open Sys2Proof

/-- One step: a requested start is taken up, or one block of the running invocation is processed. -/
def step (s : State) : Host.Outcome State Fault Refusal := coreStep exec s

/-- The machine whose next step runs the operation of selector `w` on one block: `OP` is the instruction store
(30_encoding.md R60). The selector is one word of 32 bits, so bits above the given ones are zero. -/
def State.withFetchWord (s : State) (_nbits w : Nat) : State := placeSelector s (BitVec.ofNat 32 w)

end Sys2Proof.Machine
end

