-- ==== Sys2Proof/Machine/Caller.lean ====
section
/-!
DEFINITION. The moves of the caller between steps of the core: the set-up, the start, the reset, the reading of results
(70_reset_and_hazards.md R200, R201, R206; 60_exceptions.md R187, R191). They are no part of `step`; they say what the
outside can do to the state (log entry 10).
-/

namespace Sys2Proof.Machine

open Sys2Proof

/-- What the caller can do to the machine (70_reset_and_hazards.md R206). -/
inductive CallerMove where
  /-- Write the selector. -/
  | writeOp (w : Word)
  /-- Write the block count. -/
  | writeNblk (w : Word)
  /-- Fill the first input feed. -/
  | writeInA (f : Feed)
  /-- Fill the second input feed. -/
  | writeInB (f : Feed)
  /-- Provide the output feed: its length, and whatever it holds. -/
  | provideOut (f : Feed)
  /-- Start an invocation. -/
  | start
  /-- Reset the core. -/
  | reset
  deriving DecidableEq, Repr

/-- An invocation is started or running; a start not yet taken up counts (DESIGN CHOICE, safe: log entry 33). -/
def engaged (s : State) : Bool := s.startReq || s.status == .busy

/-- A write of the caller, which may not fall into an invocation (60_exceptions.md R191 `FeedChangedDuringRun`); a write
of `OUT`, which R191 does not name, is refused with the others (DEDUCED from 20_memory.md R51, safe: log entry 33). -/
def callerWrite (s s' : State) : Result := if engaged s then .refused .feedChangedDuringRun else .next s'

/-- What reset does: `STATUS = IDLE`, `done = {}`; `OP`, `NBLK` and the contents of `OUT` are unspecified, the slots hold
nothing; a running invocation is abandoned; the input feeds are the caller's and stay (10_state.md R36,
70_reset_and_hazards.md R200; log entry 22). -/
def resetMachine (s : State) : State :=
  { s with
    op := Config.freeWord s.tick
    nblk := Config.freeWord (s.tick + 1)
    out := s.out.mapIdx fun i _ => Config.freeWord (s.tick + 2 + i)
    done := []
    status := .idle
    slots := Slots.empty
    startReq := false
    tick := s.tick + 2 + s.out.length }

/-- A move of the caller. It may start from `IDLE`, `DONE` or `ERR_INVALID_OP` (70_reset_and_hazards.md R206). -/
def callerMove (m : CallerMove) (s : State) : Result :=
  match m with
  | .writeOp w => callerWrite s { s with op := w }
  | .writeNblk w => callerWrite s { s with nblk := w }
  | .writeInA f => callerWrite s { s with inA := f }
  | .writeInB f => callerWrite s { s with inB := f }
  | .provideOut f => callerWrite s { s with out := f }
  | .start => if engaged s then .refused .startWhileBusy else .next { s with startReq := true }
  | .reset => .next (resetMachine s)

/-- The caller reads `OP` at any time (10_state.md R33). -/
def callerReadOp (s : State) : Word := s.op

/-- The caller reads `NBLK` at any time (10_state.md R33). -/
def callerReadNblk (s : State) : Word := s.nblk

/-- The caller reads `STATUS` at any time (10_state.md R33, 70_reset_and_hazards.md R206). -/
def callerReadStatus (s : State) : Status := s.status

/-- The caller reads `OUT`, but not during an invocation (60_exceptions.md R191, 20_memory.md R51). DESIGN CHOICE, unsafe:
the spec gives the read after `STATUS = DONE` (20_memory.md R47) and forbids it while `BUSY`; whether `OUT` may be read in
`IDLE` or `ERR_INVALID_OP` it leaves open, and the model allows it (log entry 33). -/
def callerReadOut (s : State) : Except Refusal Feed := if engaged s then .error .feedChangedDuringRun else .ok s.out

end Sys2Proof.Machine
end

