-- ==== Sys2Proof/Safety.lean ====
section
/-!
DEFINITION. The terms claims are stated in: a launched invocation, the machine's invariant, what a block's step leaves
(10_state.md R29 to R31), the words a block's result is (20_memory.md R51), and the Blocks the spec's laws name.
-/

namespace Sys2Proof.Machine

open Sys2Proof

/-- The launch premises of an invocation of operation `i` (60_exceptions.md R191, 20_memory.md R44). -/
def Launched (i : Instr) (s : State) : Prop :=
  s.cfg.legal = true ∧ selectedInstr s = some i ∧ launchFits i s = true ∧ launchReadable i s = true

/-- The invariant of the machine: between steps the slots hold nothing (10_state.md R30), `done` is a set in its
strictly rising form, and a running invocation was launched, has processed only its own blocks and has one left
(R29, R31). -/
def State.Inv (s : State) : Prop :=
  s.slots = Slots.empty ∧ s.done.Pairwise (· < ·) ∧
    (s.status = .busy →
      (∃ i, Launched i s) ∧ (∀ b ∈ s.done, b < nblkNat s) ∧ ∃ b, b < nblkNat s ∧ b ∉ s.done)

/-- `after` is `before` with the words `ws` from index `base` on: inside that run the words of `ws`, outside it what
was there. -/
def Wrote (before after : Feed) (base : Nat) (ws : List Word) : Prop :=
  after.length = before.length ∧
    ∀ a, memRead after a = if base ≤ a ∧ a < base + ws.length then ws[a - base]? else memRead before a

/-- What a step that processed block `b` leaves beside `OUT`: `b` has joined `done`, `STATUS` is `DONE` exactly when
no block is left, the slots hold nothing, and everything else is as it was (10_state.md R29 to R31). -/
def Retired (b : Nat) (s t : State) : Prop :=
  t.cfg = s.cfg ∧ t.op = s.op ∧ t.nblk = s.nblk ∧ t.inA = s.inA ∧ t.inB = s.inB ∧ t.startReq = s.startReq ∧
    t.slots = Slots.empty ∧ (∀ c, c ∈ t.done ↔ c = b ∨ c ∈ s.done) ∧
    t.status = if ∀ c < nblkNat s, c = b ∨ c ∈ s.done then .done else s.status

/-- The words block `b` of `OUT` holds when operation `i` has processed it (20_memory.md R51, 30_encoding.md R63). -/
def resultWords (i : Instr) (cfg : Config) (draw : Nat → BitVec 24) (inA inB : Feed) (b : Nat) :
    Except Refusal (List Word) :=
  match i with
  | .encode => (loadFloats cfg inA b).map fun ws => blockWords (encodeBlock cfg draw ws)
  | .decode => (loadBlock cfg inA b).map (decodeBlock cfg)
  | .add => (loadBlock cfg inA b).bind fun x => (loadBlock cfg inB b).map fun y => blockWords (addBlock cfg draw x y)
  | .sub => (loadBlock cfg inA b).bind fun x => (loadBlock cfg inB b).map fun y => blockWords (subBlock cfg draw x y)
  | .mul => (loadBlock cfg inA b).bind fun x => (loadBlock cfg inB b).map fun y => blockWords (mulBlock cfg draw x y)
  | .div => (loadBlock cfg inA b).bind fun x => (loadBlock cfg inB b).map fun y => blockWords (divBlock cfg draw x y)
  | .reciprocal => (loadBlock cfg inB b).map fun y => blockWords (reciprocalBlock cfg draw y)

/-- The words one block of the operation's result takes in `OUT` (20_memory.md R44). -/
def outWords (cfg : Config) (i : Instr) : Nat := useWords cfg (useOut i)

/-- The value an element of a Block denotes, `(-1)^s * m * 2^(E - BIAS - WM)` (10_state.md R25). -/
def elemValue (cfg : Config) (e : Nat) (el : Elem) : Rat :=
  signed el.sign ((el.mant : Rat) * pow2 ((e : Int) - cfg.bias - cfg.wm))

/-- `canon(B)`: every element with mantissa 0 becomes the zero element (41_codec.md R118). -/
def canonBlock (b : Block) : Block := ⟨b.exp, b.elems.map fun e => if e.mant = 0 then Elem.zero else e⟩

/-- `negate(B)`: every sign bit flipped (42_arith_addsub.md R137). -/
def negateBlock (b : Block) : Block := ⟨b.exp, b.elems.map fun e => ⟨!e.sign, e.mant⟩⟩

/-- `ONE = Block{BIAS, [(0, 2^WM)] * N}` (43_arith_muldivrecip.md R157). -/
def oneBlock (cfg : Config) : Block := ⟨cfg.bias, List.replicate cfg.n ⟨false, 2 ^ cfg.wm⟩⟩

/-- `r` is the integer nearest to `x`, the even one of the two when `x` is exactly halfway (40_bit_utilities.md R87). -/
def nearestEven (x : Rat) (r : Nat) : Prop := |(r : Rat) - x| ≤ 1 / 2 ∧ (|(r : Rat) - x| = 1 / 2 → r % 2 = 0)

/-- `mx` is the maximum unbiased exponent among the nonzero words of `ws`, none of them non-finite (41_codec.md R101). -/
def isMaxExp (cfg : Config) (ws : List Word) (mx : Int) : Prop :=
  (∃ w ∈ ws, (decomposeInput cfg 0 w).exp = some mx) ∧ ∀ w ∈ ws, ∀ e, (decomposeInput cfg 0 w).exp = some e → e ≤ mx

/-- `k` steps of the core, through the host's interface. -/
def runSteps (k : Nat) (s : State) : Result := Host.Core.run Sys2Proof.core k s

/-- A word is a zero or a normal number: no subnormal, no infinity, no NaN (10_state.md R28). -/
def Word.zeroOrNormal (w : Word) : Prop := w.isZero = true ∨ w.normal = true

end Sys2Proof.Machine
end

