-- ==== Sys2Proof/Certificates/Slice0/Obligations.lean ====
section
/-!
DEFINITION. The statements for the provers, from the spec's numbered rules.
-/

open Sys2Proof Sys2Proof.Machine

/-! ### The selector -/

/-- For every injective numbering the code of an operation decodes to it (30_encoding.md R60, R61). The numbering as
an injective parameter is the spec's decision D5, log entry 12. -/
def Obligations.SelectorRoundTrip : Prop :=
  ∀ (m : OpcodeMap) (i : Instr), i.wellFormed m = true → decodeSelector m (encodeSelector m i) = .ok i

/-- The decoder accepts a word only as the whole code it gives, and refuses every other word by name (30_encoding.md
R60, R62). The comparison of the whole word is the spec's decision D5, log entry 12. -/
def Obligations.SelectorAcceptsOnlyCodes : Prop :=
  ∀ (m : OpcodeMap) (w : Word),
    (∀ i, decodeSelector m w = .ok i → w = encodeSelector m i) ∧
      ((∀ i, w ≠ encodeSelector m i) → decodeSelector m w = .error (.illegalSelector w))

/-- The default numbering, word by word, and two words that are no operation (30_encoding.md R61, R62). The numbers
are the spec's decision D5, log entry 12. -/
def Obligations.DefaultSelectorWords : Prop :=
  decodeTableWord 32 0x00000000 = some .encode ∧ decodeTableWord 32 0x00000001 = some .decode ∧
    decodeTableWord 32 0x00000002 = some .add ∧ decodeTableWord 32 0x00000003 = some .sub ∧
    decodeTableWord 32 0x00000004 = some .mul ∧ decodeTableWord 32 0x00000005 = some .div ∧
    decodeTableWord 32 0x00000006 = some .reciprocal ∧ decodeTableWord 32 0x00000007 = none ∧
    decodeTableWord 32 0x00000102 = none

/-! ### Steps, the start of an invocation, the exception -/

/-- While an invocation runs, a step is the operation `OP` selects (10_state.md R31, 30_encoding.md R60, R63). STATUS
and the step of one block are the spec's decision D3; the request field is the model's, log entry 5. -/
def Obligations.StepRunsSelectedOperation : Prop :=
  ∀ (s : State) (i : Instr), s.startReq = false → s.status = .busy →
    decodeSelector s.cfg.opcode s.op = .ok i → step s = exec i s

/-- A placed selector is what the very next step runs, on block 0 (the placing is the model's own, log entry 5). -/
def Obligations.PlacedSelectorRunsNext : Prop :=
  ∀ (s : State) (nbits w : Nat) (i : Instr), decodeSelector s.cfg.opcode (BitVec.ofNat 32 w) = .ok i →
    (s.withFetchWord nbits w).op = BitVec.ofNat 32 w ∧ pickBlock (s.withFetchWord nbits w) = some 0 ∧
      step (s.withFetchWord nbits w) = exec i (s.withFetchWord nbits w)

/-- With nothing started and nothing running a step changes nothing (the model's choice, log entry 7). -/
def Obligations.StepWithoutInvocationChangesNothing : Prop :=
  ∀ s : State, s.startReq = false → s.status ≠ .busy → step s = .next s

/-- InvalidOperation: a start with an `OP` that is no operation's code sets `STATUS` to `ERR_INVALID_OP`, leaves
`done` empty, takes the request, and changes nothing else, whatever the configuration, the block count and the feeds
(60_exceptions.md R180, R181, R185, R186). The form of the error is the spec's decision D15; the request and the emptied done are
the model's, log entries 5 and 11. -/
def Obligations.InvalidSelectorTakesException : Prop :=
  ∀ s : State, s.startReq = true → s.status ≠ .busy → (∀ i, s.op ≠ encodeSelector s.cfg.opcode i) →
    step s = .next { s with status := .errInvalidOp, done := [], startReq := false }

/-- A start with a legal `OP`: the launch premises are checked, then the invocation runs, or is done at once when it
has no block (60_exceptions.md R181, R185, R191; 10_state.md R31). The order among the refusals is the model's choice
(log entry 8). The start is the spec's decisions D3, D7 and D15; the order among refusals is the model's, log entry 8.
-/
def Obligations.StartChecksPremises : Prop :=
  ∀ (s : State) (i : Instr), s.startReq = true → s.status ≠ .busy → selectedInstr s = some i →
    (s.cfg.legal = false → step s = .refused .badConfiguration) ∧
    (s.cfg.legal = true →
      (s.inA.length < nblkNat s * useWords s.cfg (useInA i) ∨ s.inB.length < nblkNat s * useWords s.cfg (useInB i) ∨
        s.out.length < nblkNat s * useWords s.cfg (useOut i)) → step s = .refused .shortFeed) ∧
    (s.cfg.legal = true → launchFits i s = true →
      (∃ b < nblkNat s, (useInA i = .blocks ∧ loadBlock s.cfg s.inA b = .error .malformedBlockWord) ∨
        (useInB i = .blocks ∧ loadBlock s.cfg s.inB b = .error .malformedBlockWord)) →
      step s = .refused .malformedBlockWord) ∧
    (Launched i s → nblkNat s ≠ 0 → step s = .next { s with status := .busy, done := [], startReq := false }) ∧
    (Launched i s → nblkNat s = 0 → step s = .next { s with status := .done, done := [], startReq := false })

/-- What the caller may not do while `STATUS = BUSY` is given no outcome: a second start, and an `OP` changed to no
operation's code (60_exceptions.md R191, 70_reset_and_hazards.md R206; log entry 9). The refusals are the spec's
decisions; the name startWhileBusy is the model's, log entry 9. -/
def Obligations.BusyRefusesCallerBreach : Prop :=
  ∀ s : State, s.status = .busy →
    (s.startReq = true → step s = .refused .startWhileBusy) ∧
      (s.startReq = false → (∀ i, s.op ≠ encodeSelector s.cfg.opcode i) → step s = .refused .feedChangedDuringRun)

/-! ### The seven operations: result, completion and frame of one block's step -/

/-- ENCODE (41_codec.md R100): the block of floats loaded from `IN_A` is encoded and stored, and nothing else changes.
The feed layout and the step's bookkeeping are the spec's decisions D3, D4 and D6 (log entries 18, 23 and 29). -/
def Obligations.EncodeStepResult : Prop :=
  ∀ (s : State) (b : Nat) (ws : List Word), s.cfg.legal = true → pickBlock s = some b →
    loadFloats s.cfg s.inA b = .ok ws → b * s.cfg.blkw + s.cfg.blkw ≤ s.out.length →
    ∃ t, exec .encode s = .next t ∧ Retired b s t ∧
      Wrote s.out t.out (b * s.cfg.blkw) (blockWords (encodeBlock s.cfg (laneDraw s) ws))

/-- DECODE (41_codec.md R113). The feed layout and the step's bookkeeping are the spec's decisions D3, D4 and D6 (log
entries 18, 23 and 29). -/
def Obligations.DecodeStepResult : Prop :=
  ∀ (s : State) (b : Nat) (A : Block), s.cfg.legal = true → pickBlock s = some b →
    loadBlock s.cfg s.inA b = .ok A → b * s.cfg.n + s.cfg.n ≤ s.out.length →
    ∃ t, exec .decode s = .next t ∧ Retired b s t ∧ Wrote s.out t.out (b * s.cfg.n) (decodeBlock s.cfg A)

/-- ADD (42_arith_addsub.md R130, R132): decode both operands, add element-wise in binary32, re-encode. The feed
layout and the step's bookkeeping are the spec's decisions D3, D4 and D6 (log entries 18, 23 and 29). -/
def Obligations.AddStepResult : Prop :=
  ∀ (s : State) (b : Nat) (A B : Block), s.cfg.legal = true → pickBlock s = some b →
    loadBlock s.cfg s.inA b = .ok A → loadBlock s.cfg s.inB b = .ok B → b * s.cfg.blkw + s.cfg.blkw ≤ s.out.length →
    ∃ t, exec .add s = .next t ∧ Retired b s t ∧
      Wrote s.out t.out (b * s.cfg.blkw)
        (blockWords (encodeBlock s.cfg (laneDraw s)
          (List.zipWith fadd32 (decodeBlock s.cfg A) (decodeBlock s.cfg B))))

/-- SUB, minuend from `IN_A`, subtrahend from `IN_B` (42_arith_addsub.md R130, R133). The feed layout and the step's
bookkeeping are the spec's decisions D3, D4 and D6 (log entries 18, 23 and 29). -/
def Obligations.SubStepResult : Prop :=
  ∀ (s : State) (b : Nat) (A B : Block), s.cfg.legal = true → pickBlock s = some b →
    loadBlock s.cfg s.inA b = .ok A → loadBlock s.cfg s.inB b = .ok B → b * s.cfg.blkw + s.cfg.blkw ≤ s.out.length →
    ∃ t, exec .sub s = .next t ∧ Retired b s t ∧
      Wrote s.out t.out (b * s.cfg.blkw)
        (blockWords (encodeBlock s.cfg (laneDraw s)
          (List.zipWith fsub32 (decodeBlock s.cfg A) (decodeBlock s.cfg B))))

/-- MUL (43_arith_muldivrecip.md R150). The feed layout and the step's bookkeeping are the spec's decisions D3, D4 and
D6 (log entries 18, 23 and 29). -/
def Obligations.MulStepResult : Prop :=
  ∀ (s : State) (b : Nat) (A B : Block), s.cfg.legal = true → pickBlock s = some b →
    loadBlock s.cfg s.inA b = .ok A → loadBlock s.cfg s.inB b = .ok B → b * s.cfg.blkw + s.cfg.blkw ≤ s.out.length →
    ∃ t, exec .mul s = .next t ∧ Retired b s t ∧
      Wrote s.out t.out (b * s.cfg.blkw)
        (blockWords (encodeBlock s.cfg (laneDraw s)
          (List.zipWith fmul32 (decodeBlock s.cfg A) (decodeBlock s.cfg B))))

/-- DIV, dividend from `IN_A`, divisor from `IN_B`; a near-zero divisor gives `+0.0` (43_arith_muldivrecip.md R151,
R153). The feed layout and the step's bookkeeping are the spec's decisions D3, D4 and D6 (log entries 18, 23 and 29).
-/
def Obligations.DivStepResult : Prop :=
  ∀ (s : State) (b : Nat) (A B : Block), s.cfg.legal = true → pickBlock s = some b →
    loadBlock s.cfg s.inA b = .ok A → loadBlock s.cfg s.inB b = .ok B → b * s.cfg.blkw + s.cfg.blkw ≤ s.out.length →
    ∃ t, exec .div s = .next t ∧ Retired b s t ∧
      Wrote s.out t.out (b * s.cfg.blkw)
        (blockWords (encodeBlock s.cfg (laneDraw s)
          (List.zipWith (fun x y => if nearZero y then 0x00000000 else fdiv32 x y)
            (decodeBlock s.cfg A) (decodeBlock s.cfg B))))

/-- RECIPROCAL, the operand from `IN_B`, the numerator 1.0 (43_arith_muldivrecip.md R152, R153). The feed layout and
the step's bookkeeping are the spec's decisions D3, D4 and D6 (log entries 18, 23 and 29). -/
def Obligations.ReciprocalStepResult : Prop :=
  ∀ (s : State) (b : Nat) (B : Block), s.cfg.legal = true → pickBlock s = some b →
    loadBlock s.cfg s.inB b = .ok B → b * s.cfg.blkw + s.cfg.blkw ≤ s.out.length →
    ∃ t, exec .reciprocal s = .next t ∧ Retired b s t ∧
      Wrote s.out t.out (b * s.cfg.blkw)
        (blockWords (encodeBlock s.cfg (laneDraw s)
          ((decodeBlock s.cfg B).map fun y => if nearZero y then 0x00000000 else fdiv32 0x3F800000 y)))

/-- Under the launch premises every operation completes on every unprocessed block, whichever is taken
(60_exceptions.md R183, R192; 70_reset_and_hazards.md R204; 10_state.md R31). The premises are the spec's decision D7;
the free order of blocks is a free value, log entry 2. -/
def Obligations.LaunchedOperationCompletes : Prop :=
  ∀ (i : Instr) (s : State), Launched i s → (∃ b, b < nblkNat s ∧ b ∉ s.done) →
    ∃ b t, pickBlock s = some b ∧ b < nblkNat s ∧ b ∉ s.done ∧ exec i s = .next t ∧ Retired b s t

/-- The frame of all seven operations: the configuration, `OP`, `NBLK`, the input feeds and the caller's request are
unchanged, `OUT` keeps its length, and every word of `OUT` outside the run of the block taken is unchanged
(20_memory.md R40, R47; 42_arith_addsub.md R134; 44_common_semantics.md R165). The run of a block in OUT is the spec's
decision D6, log entry 18. -/
def Obligations.OperationFrame : Prop :=
  ∀ (i : Instr) (s t : State), exec i s = .next t →
    t.cfg = s.cfg ∧ t.op = s.op ∧ t.nblk = s.nblk ∧ t.inA = s.inA ∧ t.inB = s.inB ∧ t.startReq = s.startReq ∧
      t.out.length = s.out.length ∧
      ∀ a, (∀ b, pickBlock s = some b → ¬(b * outWords s.cfg i ≤ a ∧ a < b * outWords s.cfg i + outWords s.cfg i)) →
        memRead t.out a = memRead s.out a

/-- While an invocation runs a step is enabled, processes exactly one block that was unprocessed, and so enlarges `done`
by that index; it sets `STATUS` to `DONE` exactly when that block was the last, and leaves it `BUSY` otherwise
(70_reset_and_hazards.md R204, 10_state.md R31). STATUS and the step of one block are the spec's decision D3; the
invariant's form and the step that sets DONE are the model's, log entries 23 and 29. -/
def Obligations.RunningStepProcessesOneBlock : Prop :=
  ∀ s : State, s.Inv → s.status = .busy → s.startReq = false →
    ∃ b t, step s = .next t ∧ b < nblkNat s ∧ b ∉ s.done ∧ (∀ c, c ∈ t.done ↔ c = b ∨ c ∈ s.done) ∧
      t.done.length = s.done.length + 1 ∧
      ((∀ c < nblkNat s, c ≠ b → c ∈ s.done) → t.status = .done) ∧
      ((∃ c < nblkNat s, c ≠ b ∧ c ∉ s.done) → t.status = .busy)

/-- No operation runs under a configuration a model must refuse (00_scope.md R7, 60_exceptions.md R191). The range is
the spec's decision D1, the injective numbering the model's check, log entries 12 and 31. -/
def Obligations.IllegalConfigurationRefused : Prop :=
  ∀ (i : Instr) (s : State), s.cfg.legal = false → exec i s = .refused .badConfiguration

/-- A block that cannot be loaded or stored is refused under the name of its reason (60_exceptions.md R191). The
spec's decision D7, log entry 8. -/
def Obligations.UnreadableBlockRefused : Prop :=
  ∀ (i : Instr) (s : State) (b : Nat), s.cfg.legal = true → pickBlock s = some b →
    (∀ r, resultWords i s.cfg (laneDraw s) s.inA s.inB b = .error r → exec i s = .refused r) ∧
      ∀ ws, resultWords i s.cfg (laneDraw s) s.inA s.inB b = .ok ws →
        s.out.length < b * outWords s.cfg i + outWords s.cfg i → exec i s = .refused .shortFeed

/-- No step of the core ends in a fault: the one exception is a next state, and a block slot is never read before it
is written (60_exceptions.md R183, R192; 10_state.md R30). The slots are the spec's decision D4; the guarded fault is
the model's, log entry 23. -/
def Obligations.StepNeverFaults : Prop :=
  ∀ (s : State) (f : Fault), step s ≠ .fault f

/-! ### The feeds -/

/-- A stored Block occupies `BLKW` words from `b * BLKW` on: the exponent word, the `N` sign words, the `N` mantissa
words, each zero-extended; no other word changes (20_memory.md R42). The layout is the spec's decision D6, log entry
18. -/
def Obligations.StoredBlockLayout : Prop :=
  (∀ (cfg : Config) (f g : Feed) (b : Nat) (B : Block), cfg.legal = true → B.legal cfg = true →
    storeBlock cfg f b B = .ok g →
    memRead g (b * cfg.blkw) = some (BitVec.ofNat 32 B.exp) ∧ (BitVec.ofNat 32 B.exp).toNat = B.exp ∧
      (∀ (i : Nat) (el : Elem), B.elems[i]? = some el →
        (∃ w, memRead g (b * cfg.blkw + 1 + i) = some w ∧ w.toNat = if el.sign then 1 else 0) ∧
        ∃ w, memRead g (b * cfg.blkw + 1 + cfg.n + i) = some w ∧ w.toNat = el.mant) ∧
      ∀ a, ¬(b * cfg.blkw ≤ a ∧ a < b * cfg.blkw + cfg.blkw) → memRead g a = memRead f a) ∧
    Config.normative.blkw = 33

/-- A Block stored in a feed is loaded back unchanged (20_memory.md R42, R56). The layout is the spec's decision D6,
log entry 18. -/
def Obligations.StoreThenLoadBlock : Prop :=
  ∀ (cfg : Config) (f g : Feed) (b : Nat) (B : Block), cfg.legal = true → B.legal cfg = true →
    storeBlock cfg f b B = .ok g → loadBlock cfg g b = .ok B

/-- What the loads do on every feed. `LoadBlock`: a feed too short is refused; a word beyond its field is refused and
never truncated; where every word of the block is in its field's range a Block is loaded; and a Block that is loaded is
legal and is what the words say (20_memory.md R42, R43, R56). `LoadFloats`: a feed too short is refused, and otherwise
the `N` words of the block are given, whatever they are (R41, R56). Layout and refusals are the spec's decisions D6 and
D7, log entries 8 and 18. -/
def Obligations.LoadsGiveTheWordsOrRefuse : Prop :=
  ∀ (cfg : Config) (f : Feed) (b : Nat), cfg.legal = true →
    (f.length < b * cfg.blkw + cfg.blkw → loadBlock cfg f b = .error .shortFeed) ∧
    (b * cfg.blkw + cfg.blkw ≤ f.length →
      ((∃ w, memRead f (b * cfg.blkw) = some w ∧ cfg.emax < w.toNat) ∨
        (∃ i < cfg.n, ∃ w, memRead f (b * cfg.blkw + 1 + i) = some w ∧ 1 < w.toNat) ∨
        ∃ i < cfg.n, ∃ w, memRead f (b * cfg.blkw + 1 + cfg.n + i) = some w ∧ cfg.mmax < w.toNat) →
      loadBlock cfg f b = .error .malformedBlockWord) ∧
    (b * cfg.blkw + cfg.blkw ≤ f.length →
      (∀ w, memRead f (b * cfg.blkw) = some w → w.toNat ≤ cfg.emax) →
      (∀ i < cfg.n, ∀ w, memRead f (b * cfg.blkw + 1 + i) = some w → w.toNat ≤ 1) →
      (∀ i < cfg.n, ∀ w, memRead f (b * cfg.blkw + 1 + cfg.n + i) = some w → w.toNat ≤ cfg.mmax) →
      ∃ B, loadBlock cfg f b = .ok B) ∧
    (∀ B, loadBlock cfg f b = .ok B → B.legal cfg = true ∧ memRead f (b * cfg.blkw) = some (BitVec.ofNat 32 B.exp) ∧
      ∀ i < cfg.n, ∃ el, B.elems[i]? = some el ∧ memRead f (b * cfg.blkw + 1 + i) = some (signWord el) ∧
        memRead f (b * cfg.blkw + 1 + cfg.n + i) = some (mantWord el)) ∧
    (f.length < b * cfg.n + cfg.n → loadFloats cfg f b = .error .shortFeed) ∧
    (b * cfg.n + cfg.n ≤ f.length → ∃ ws, loadFloats cfg f b = .ok ws ∧ ws.length = cfg.n ∧
      ∀ i < cfg.n, ws[i]? = memRead f (b * cfg.n + i))

/-! ### The bit-layout utilities and the float primitives -/

/-- `round_shift_right` between its two end clauses: the quotient, one more where the remainder is above half or is half
with an odd quotient, not reduced modulo anything; with the rule's examples (40_bit_utilities.md R84). The range the
formula holds on, `W_RS = 32`, is the spec's decision D2, log entry 32. -/
def Obligations.RoundShiftRightFormula : Prop :=
  (∀ value shift : Nat, value < 2 ^ 32 → 1 ≤ shift → shift < 32 →
    roundShiftRight value shift =
      if value % 2 ^ shift > 2 ^ (shift - 1) ∨ (value % 2 ^ shift = 2 ^ (shift - 1) ∧ value / 2 ^ shift % 2 = 1) then
        value / 2 ^ shift + 1
      else value / 2 ^ shift) ∧
    roundShiftRight 0xFF8000 16 = 0x100 ∧ roundShiftRight 0xB43333 16 = 0xB4 ∧ roundShiftRight 0x808000 16 = 0x80 ∧
    roundShiftRight 0x818000 16 = 0x82 ∧ roundShiftRight 0x808001 16 = 0x81

/-- `round_shift_right` on a 24-bit value is the nearest integer to the exact quotient, ties to even, with the bounds the
spec derives from it; and its two end clauses, in the 32-bit container the spec decides on (40_bit_utilities.md section 2;
the spec's own inference and its decision D2, log entry 32). -/
def Obligations.RoundShiftRightIsNearestEven : Prop :=
  (∀ (value shift : Nat), value < 2 ^ 24 → 1 ≤ shift →
    nearestEven ((value : Rat) / 2 ^ shift) (roundShiftRight value shift) ∧
      (25 ≤ shift → roundShiftRight value shift = 0) ∧
      (shift = 24 → roundShiftRight value shift = 0 ∨ roundShiftRight value shift = 1) ∧
      (16 ≤ shift → roundShiftRight value shift ≤ 256 ∧
        (roundShiftRight value shift = 256 ↔ shift = 16 ∧ 0xFF8000 ≤ value))) ∧
    (∀ (cfg : Config) (value shift : Nat), cfg.legal = true → value < 2 ^ 24 → 1 ≤ shift →
      cfg.baseShift ≤ (shift : Int) →
      roundShiftRight value shift ≤ 2 ^ cfg.mw ∧
        (roundShiftRight value shift = 2 ^ cfg.mw →
          (shift : Int) = cfg.baseShift ∧ (2 : Rat) ^ 24 - pow2 (cfg.baseShift - 1) ≤ value)) ∧
    ∀ value : Nat, value < 2 ^ 32 →
      (∀ s : Nat, roundShiftRight value (-(s : Int)) = value * 2 ^ s % 2 ^ 32) ∧
        ∀ s : Int, 32 ≤ s → roundShiftRight value s = 0

/-- `saturate` and `clamp`, with their rules' examples (40_bit_utilities.md R88, R89). -/
def Obligations.SaturateAndClampStayInRange : Prop :=
  (∀ value max : Nat, saturate value max = (if value > max then max else value) ∧ saturate value max ≤ max) ∧
    saturate 0x100 0xFF = 0xFF ∧ saturate 0xB4 0xFF = 0xB4 ∧
    (∀ v lo hi : Int, lo ≤ hi →
      clamp v lo hi = (if v < lo then lo else if v > hi then hi else v) ∧ lo ≤ clamp v lo hi ∧ clamp v lo hi ≤ hi) ∧
    clamp (6 + 15) 0 31 = 21 ∧ clamp (20 + 15) 0 31 = 31 ∧ clamp (-20 + 15) 0 31 = 0

/-- `decompose`, class by class, and the exact value of a finite word (40_bit_utilities.md R80 to R83, R92).
Subnormals and non-finite words rest on the spec's decisions D11 and D18, log entries 3, 13 and 14. -/
def Obligations.DecomposeGivesFieldsAndValue : Prop :=
  ∀ (d : BitVec 24) (w : Word),
    (decompose d w).sign = w.sign ∧
    (w.normal = true →
      (decompose d w).exp = some ((w.expField : Int) - 127) ∧ (decompose d w).mant = 2 ^ 23 + w.fracField) ∧
    (w.isZero = true → (decompose d w).exp = none ∧ (decompose d w).mant = 0 ∧ f32val w = 0) ∧
    (w.expField = 0 → w.fracField ≠ 0 → (decompose d w).exp = some (-126) ∧ (decompose d w).mant = w.fracField) ∧
    (w.finite = false → (decompose d w).exp = some 127 ∧ (decompose d w).mant = d.toNat) ∧
    ∀ e, w.finite = true → (decompose d w).exp = some e →
      f32val w = signed w.sign (((decompose d w).mant : Rat) * pow2 (e - 23)) ∧
        0 < (decompose d w).mant ∧ (decompose d w).mant < 2 ^ 24

/-- `rnd32` on every rational, branch by branch (40_bit_utilities.md R90). Zero gives positive zero. Below the bound
`2^128 - 2^103`, from which half a unit above the largest finite word is reached, the result is finite, has the sign of
`q`, is normal from `2^-126` on, no finite word (subnormals included) is nearer to `q`, and where another value is as near
the fraction is even. From the bound on the result is the infinity of `q`'s sign. IEEE 754 as the spec presumes it,
decision D12 and log entry 13. -/
def Obligations.RoundToBinary32IsNearest : Prop :=
  rnd32 0 = 0x00000000 ∧
    ∀ q : Rat, q ≠ 0 →
      (|q| < pow2 128 - pow2 103 →
        (rnd32 q).finite = true ∧ (rnd32 q).sign = decide (q < 0) ∧ (pow2 (-126) ≤ |q| → (rnd32 q).normal = true) ∧
          ∀ w : Word, w.finite = true →
            |f32val (rnd32 q) - q| ≤ |f32val w - q| ∧
              (|f32val (rnd32 q) - q| = |f32val w - q| → f32val w ≠ f32val (rnd32 q) →
                (rnd32 q).fracField % 2 = 0)) ∧
      (pow2 128 - pow2 103 ≤ |q| → rnd32 q = if q < 0 then 0xFF800000 else 0x7F800000)

/-- Every finite nonzero word, subnormals included, is what its own exact value rounds to (40_bit_utilities.md R90,
R92). IEEE 754 as the spec presumes it, decision D12 and log entry 13. -/
def Obligations.RoundingFixesFloats : Prop :=
  ∀ w : Word, w.finite = true → w.isZero = false → rnd32 (f32val w) = w

/-- `f32exact` on its domain: the word with the sign, exponent and fraction the rule gives, of exactly the value
`(-1)^S * m * 2^k`, which is also what that value rounds to (40_bit_utilities.md R93). From general knowledge, as the
spec says (G2), log entry 13. -/
def Obligations.FloatExactDenotesItsValue : Prop :=
  (∀ (sign : Bool) (m : Nat) (k : Int), 1 ≤ m → m < 2 ^ 24 → -126 ≤ k + Nat.log2 m → k + Nat.log2 m ≤ 127 →
    (f32exact sign m k).sign = sign ∧ ((f32exact sign m k).expField : Int) = k + Nat.log2 m + 127 ∧
      (f32exact sign m k).fracField = m * 2 ^ (23 - Nat.log2 m) % 2 ^ 23 ∧
      f32val (f32exact sign m k) = signed sign ((m : Rat) * pow2 k) ∧
      f32exact sign m k = rnd32 (signed sign ((m : Rat) * pow2 k))) ∧
    f32exact false 180 (-1) = 0x42B40000

/-- The near-zero test on a decoded value is the test of the mantissa (43_arith_muldivrecip.md R154). The spec's own
inference from its decisions D1 and D19, log entries 30 and 31. -/
def Obligations.NearZeroIsMantissaZero : Prop :=
  (∀ (cfg : Config) (B : Block) (el : Elem), cfg.legal = true → B.legal cfg = true → el ∈ B.elems →
    (nearZero (decodeElem cfg B.exp el) = true ↔ el.mant = 0) ∧
      (el.mant ≠ 0 → pow2 (-(cfg.bias : Int) - cfg.wm) ≤ |f32val (decodeElem cfg B.exp el)|) ∧
      pow2 (-86) ≤ pow2 (-(cfg.bias : Int) - cfg.wm)) ∧
    (12 / 10 : Rat) * (1 / 10 ^ 26) < pow2 (-86) ∧ nzThresh < (12 / 10 : Rat) * (1 / 10 ^ 26) ∧ nzThresh = 1 / 10 ^ 30

/-! ### The codec -/

/-- An input of zeros of either sign is encoded as the canonical zero Block (41_codec.md R102, R106). -/
def Obligations.EncodeOfZerosIsZeroBlock : Prop :=
  ∀ (cfg : Config) (draw : Nat → BitVec 24) (ws : List Word), ws.length = cfg.n → (∀ w ∈ ws, w.isZero = true) →
    encodeBlock cfg draw ws = ⟨0, List.replicate cfg.n ⟨false, 0⟩⟩

/-- The shared exponent is the clamped maximum exponent of the nonzero elements, with its three cases at the default
configuration (41_codec.md R103). -/
def Obligations.EncodeSharedExponent : Prop :=
  ∀ (cfg : Config) (draw : Nat → BitVec 24) (ws : List Word) (mx : Int), cfg.legal = true →
    (∀ w ∈ ws, w.finite = true) → isMaxExp cfg ws mx →
    ((encodeBlock cfg draw ws).exp : Int) = clamp (mx + (2 ^ (cfg.we - 1) - 1)) 0 (2 ^ cfg.we - 1) ∧
      (cfg = Config.normative →
        (-15 ≤ mx → mx ≤ 16 → ((encodeBlock cfg draw ws).exp : Int) = mx + 15) ∧
        (mx < -15 → (encodeBlock cfg draw ws).exp = 0) ∧ (16 < mx → (encodeBlock cfg draw ws).exp = 31))

/-- The stored element of a finite word: the zero element for a zero, else the magnitude over the block quantum, taken
from the unclamped maximum, rounded to nearest with ties to even and saturated, under the word's own sign, which
`CANONICAL_ZERO_SIGN` clears where the mantissa is 0 (41_codec.md R104, R105, R107 to R109, D13). Where there is no
maximum, every word being a zero or, under `FLUSH_SUBNORMAL_INPUT`, a subnormal, the Block is the zero Block (R102, D11).
The sign on mantissa 0 and the subnormals are the spec's decisions D13 and D11, log entries 14 and 15. -/
def Obligations.EncodeStoredElement : Prop :=
  (∀ (cfg : Config) (draw : Nat → BitVec 24) (ws : List Word) (mx : Int) (i : Nat) (w : Word), cfg.legal = true →
    (∀ v ∈ ws, v.finite = true) → isMaxExp cfg ws mx → ws[i]? = some w →
    ((decomposeInput cfg 0 w).exp = none → (encodeBlock cfg draw ws).elems[i]? = some ⟨false, 0⟩) ∧
    ((decomposeInput cfg 0 w).exp ≠ none →
      ∃ r m, nearestEven (|f32val w| / pow2 (mx - cfg.wm)) r ∧ m = min r cfg.mmax ∧
        (encodeBlock cfg draw ws).elems[i]? = some ⟨w.sign && !(cfg.canonicalZeroSign && m == 0), m⟩)) ∧
    (∀ (cfg : Config) (w : Word), w.finite = true →
      ((decomposeInput cfg 0 w).exp = none ↔
        w.isZero = true ∨ (cfg.flushSubnormalInput = true ∧ w.expField = 0))) ∧
    ∀ (cfg : Config) (draw : Nat → BitVec 24) (ws : List Word), ws.length = cfg.n →
      (∀ w ∈ ws, w.isZero = true ∨ (cfg.flushSubnormalInput = true ∧ w.expField = 0)) →
      encodeBlock cfg draw ws = ⟨0, List.replicate cfg.n ⟨false, 0⟩⟩

/-- A non-finite input: the operation completes with a legal Block, `exp_shared = EMAX`; the non-finite element has
its word's sign and any mantissa, the finite elements are encoded against exponent 127 (41_codec.md R110). The free
mantissa is the spec's decision D18, log entry 3; the sign parameter D13, log entry 15. -/
def Obligations.EncodeOfNonFinite : Prop :=
  ∀ (cfg : Config) (draw : Nat → BitVec 24) (ws : List Word), cfg.legal = true → ws.length = cfg.n →
    (∃ w ∈ ws, w.finite = false) →
    (encodeBlock cfg draw ws).legal cfg = true ∧ (encodeBlock cfg draw ws).exp = cfg.emax ∧
      ∀ (i : Nat) (w : Word), ws[i]? = some w →
        (w.finite = true → (decomposeInput cfg 0 w).exp = none →
          (encodeBlock cfg draw ws).elems[i]? = some ⟨false, 0⟩) ∧
        (w.finite = true → (decomposeInput cfg 0 w).exp ≠ none →
          ∃ r m, nearestEven (|f32val w| / pow2 (127 - cfg.wm)) r ∧ m = min r cfg.mmax ∧
            (encodeBlock cfg draw ws).elems[i]? = some ⟨w.sign && !(cfg.canonicalZeroSign && m == 0), m⟩) ∧
        (w.finite = false →
          (∃ m, m ≤ cfg.mmax ∧
            (encodeBlock cfg draw ws).elems[i]? = some ⟨w.sign && !(cfg.canonicalZeroSign && m == 0), m⟩) ∧
          ∀ m, m ≤ cfg.mmax → ∃ draw' : Nat → BitVec 24,
            (encodeBlock cfg draw' ws).elems[i]? = some ⟨w.sign && !(cfg.canonicalZeroSign && m == 0), m⟩)

/-- Every Block an operation produces is legal: exponent clamped, mantissas saturated, `N` elements (10_state.md R21,
R22, R24; 44_common_semantics.md R161). For legal configurations, decision D1 and log entry 31. -/
def Obligations.ProducedBlocksAreLegal : Prop :=
  ∀ (cfg : Config) (draw : Nat → BitVec 24), cfg.legal = true →
    (∀ ws : List Word, ws.length = cfg.n → (encodeBlock cfg draw ws).legal cfg = true) ∧
      ∀ A B : Block, A.legal cfg = true → B.legal cfg = true →
        (addBlock cfg draw A B).legal cfg = true ∧ (subBlock cfg draw A B).legal cfg = true ∧
          (mulBlock cfg draw A B).legal cfg = true ∧ (divBlock cfg draw A B).legal cfg = true ∧
          (reciprocalBlock cfg draw B).legal cfg = true

/-- A Block encoded from zeros and normal numbers, not all zero, is normalised (10_state.md R26). The spec's own
inference from the encode rule. -/
def Obligations.EncodedBlockIsNormalised : Prop :=
  ∀ (cfg : Config) (draw : Nat → BitVec 24) (ws : List Word), cfg.legal = true →
    (∀ w ∈ ws, Word.zeroOrNormal w) → (∃ w ∈ ws, w.normal = true) →
    ∃ el ∈ (encodeBlock cfg draw ws).elems, 2 ^ cfg.wm ≤ el.mant ∧ el.mant ≤ cfg.mmax

/-- The quantisation error where the exponent is not clamped: within half a quantum, and under one quantum for an
element that saturates (41_codec.md R120). The spec's own inference from the encode rule. -/
def Obligations.QuantisationErrorBound : Prop :=
  ∀ (cfg : Config) (draw : Nat → BitVec 24) (ws : List Word) (mx : Int) (i : Nat) (w : Word) (el : Elem),
    cfg.legal = true → (∀ v ∈ ws, v.finite = true) → isMaxExp cfg ws mx → 0 ≤ mx + cfg.bias → mx + cfg.bias ≤ cfg.emax →
    ws[i]? = some w → (encodeBlock cfg draw ws).elems[i]? = some el →
    (|f32val w| < ((cfg.mmax : Rat) + 1 / 2) * pow2 (mx - cfg.wm) →
      abs ((el.mant : Rat) * pow2 (mx - cfg.wm) - |f32val w|) ≤ pow2 (mx - cfg.wm) / 2) ∧
    (((cfg.mmax : Rat) + 1 / 2) * pow2 (mx - cfg.wm) ≤ |f32val w| →
      el.mant = cfg.mmax ∧ abs ((el.mant : Rat) * pow2 (mx - cfg.wm) - |f32val w|) < pow2 (mx - cfg.wm))

/-- `decode` is exact and in range: never rounded, never subnormal, never non-finite (41_codec.md R116). The range is
the spec's own inference under its decision D1, log entry 31. -/
def Obligations.DecodeIsExactAndInRange : Prop :=
  ∀ (cfg : Config) (B : Block) (el : Elem), cfg.legal = true → B.legal cfg = true → el ∈ B.elems →
    f32val (decodeElem cfg B.exp el) = elemValue cfg B.exp el ∧ Word.zeroOrNormal (decodeElem cfg B.exp el) ∧
    (el.mant ≠ 0 →
      (decodeElem cfg B.exp el).normal = true ∧
      (-(cfg.bias : Int) - cfg.wm ≤ (B.exp : Int) - cfg.bias - cfg.wm + Nat.log2 el.mant ∧
        (B.exp : Int) - cfg.bias - cfg.wm + Nat.log2 el.mant ≤ (cfg.emax : Int) - cfg.bias) ∧
      (-86 ≤ -(cfg.bias : Int) - cfg.wm ∧ (cfg.emax : Int) - cfg.bias ≤ 64) ∧
      (cfg = Config.normative → -(cfg.bias : Int) - cfg.wm = -22 ∧ (cfg.emax : Int) - cfg.bias = 16 ∧
        (cfg.mmax : Rat) * pow2 ((cfg.emax : Int) - cfg.bias - cfg.wm) = 130560) ∧
      pow2 (-(cfg.bias : Int) - cfg.wm) ≤ |f32val (decodeElem cfg B.exp el)| ∧
      |f32val (decodeElem cfg B.exp el)| ≤ (cfg.mmax : Rat) * pow2 ((cfg.emax : Int) - cfg.bias - cfg.wm))

/-- An element with mantissa 0 decodes to the zero of its sign bit, whatever the exponent (41_codec.md R115). The sign
is the spec's decision D14, log entry 15. -/
def Obligations.DecodedZeroKeepsItsSign : Prop :=
  ∀ (cfg : Config) (e : Nat), decodeElem cfg e ⟨false, 0⟩ = 0x00000000 ∧ decodeElem cfg e ⟨true, 0⟩ = 0x80000000

/-- The round trip that holds: re-encoding a decoded result of `encode` gives its canonical form, which is the Block
itself exactly when it has no element `(1, 0)`; with the rule's two examples (41_codec.md R118). The spec's own
inference (the law that holds in place of the source's claim, conflict C2), resting on decisions D11, D13 and D14, log
entries 14 and 15. -/
def Obligations.ReencodeIsCanonical : Prop :=
  (∀ (cfg : Config) (draw draw' : Nat → BitVec 24) (v : List Word), cfg.legal = true → v.length = cfg.n →
    (∀ w ∈ v, w.finite = true) → ((∀ w ∈ v, w.isZero = true) ∨ ∃ w ∈ v, w.normal = true) →
    encodeBlock cfg draw' (decodeBlock cfg (encodeBlock cfg draw v)) = canonBlock (encodeBlock cfg draw v) ∧
      (encodeBlock cfg draw' (decodeBlock cfg (encodeBlock cfg draw v)) = encodeBlock cfg draw v ↔
        ∀ el ∈ (encodeBlock cfg draw v).elems, el ≠ ⟨true, 0⟩)) ∧
    ∀ draw : Nat → BitVec 24,
      (encodeBlock Config.normative draw (0x3F800000 :: 0xBB800000 :: List.replicate 14 0) =
          ⟨15, ⟨false, 0x80⟩ :: ⟨true, 0⟩ :: List.replicate 14 ⟨false, 0⟩⟩ ∧
        encodeBlock Config.normative draw
            (decodeBlock Config.normative ⟨15, ⟨false, 0x80⟩ :: ⟨true, 0⟩ :: List.replicate 14 ⟨false, 0⟩⟩) =
          ⟨15, ⟨false, 0x80⟩ :: ⟨false, 0⟩ :: List.replicate 14 ⟨false, 0⟩⟩) ∧
      encodeBlock Config.normative draw (0x00400000 :: List.replicate 15 0) =
          ⟨0, ⟨false, 0x40⟩ :: List.replicate 15 ⟨false, 0⟩⟩ ∧
        encodeBlock Config.normative draw
            (decodeBlock Config.normative ⟨0, ⟨false, 0x40⟩ :: List.replicate 15 ⟨false, 0⟩⟩) =
          ⟨0, ⟨false, 0x80⟩ :: List.replicate 15 ⟨false, 0⟩⟩

/-- Decode then encode of any legal Block: normalised and canonical, of the same values unless the exponent is clamped
at 0; with the rule's example (41_codec.md R119). The spec's own inference from the codec's rules. -/
def Obligations.DecodeThenEncodeNormalises : Prop :=
  (∀ (cfg : Config) (draw : Nat → BitVec 24) (B : Block) (top : Elem), cfg.legal = true → B.legal cfg = true →
    top ∈ B.elems → (∀ el ∈ B.elems, el.mant ≤ top.mant) → 1 ≤ top.mant →
    ((encodeBlock cfg draw (decodeBlock cfg B)).exp : Int) =
        clamp ((B.exp : Int) - ((cfg.wm : Int) - Nat.log2 top.mant)) 0 cfg.emax ∧
      (encodeBlock cfg draw (decodeBlock cfg B)).elems =
        B.elems.map (fun el =>
          if el.mant = 0 then ⟨false, 0⟩ else ⟨el.sign, el.mant <<< (cfg.wm - Nat.log2 top.mant)⟩) ∧
      ∀ (i : Nat) (el el' : Elem), B.elems[i]? = some el →
        (encodeBlock cfg draw (decodeBlock cfg B)).elems[i]? = some el' →
        (0 ≤ (B.exp : Int) - ((cfg.wm : Int) - Nat.log2 top.mant) →
          elemValue cfg (encodeBlock cfg draw (decodeBlock cfg B)).exp el' = elemValue cfg B.exp el) ∧
        ((B.exp : Int) - ((cfg.wm : Int) - Nat.log2 top.mant) < 0 → el.mant ≠ 0 →
          elemValue cfg (encodeBlock cfg draw (decodeBlock cfg B)).exp el' ≠ elemValue cfg B.exp el)) ∧
    ∀ draw : Nat → BitVec 24,
      decodeBlock Config.normative ⟨20, ⟨false, 1⟩ :: ⟨false, 1⟩ :: List.replicate 14 ⟨false, 0⟩⟩ =
          0x3E800000 :: 0x3E800000 :: List.replicate 14 0 ∧
        encodeBlock Config.normative draw (0x3E800000 :: 0x3E800000 :: List.replicate 14 0) =
          ⟨13, ⟨false, 0x80⟩ :: ⟨false, 0x80⟩ :: List.replicate 14 ⟨false, 0⟩⟩

/-! ### The arithmetic engine -/

/-- ADD is commutative bit for bit, is not associative, and adding the zero Block is decode then encode
(42_arith_addsub.md R136). The spec's own inference from the reference contract. -/
def Obligations.AddCommutesAndZeroReencodes : Prop :=
  (∀ (cfg : Config) (draw : Nat → BitVec 24) (A B : Block), addBlock cfg draw A B = addBlock cfg draw B A) ∧
    (∀ (cfg : Config) (draw : Nat → BitVec 24) (A : Block), cfg.legal = true → A.legal cfg = true →
      addBlock cfg draw A (Block.zero cfg.n) = encodeBlock cfg draw (decodeBlock cfg A)) ∧
    ∃ A B C : Block, A.legal Config.normative = true ∧ B.legal Config.normative = true ∧ C.legal Config.normative = true ∧
      ∀ draw : Nat → BitVec 24,
        addBlock Config.normative draw (addBlock Config.normative draw A B) C ≠
          addBlock Config.normative draw A (addBlock Config.normative draw B C)

/-- SUB is ADD of the negated Block (42_arith_addsub.md R137). The spec's own inference, from general knowledge of
binary32 subtraction (G8), log entry 13. -/
def Obligations.SubIsAddOfNegated : Prop :=
  ∀ (cfg : Config) (draw : Nat → BitVec 24) (A B : Block), cfg.legal = true → A.legal cfg = true → B.legal cfg = true →
    subBlock cfg draw A B = addBlock cfg draw A (negateBlock B)

/-- RECIPROCAL is DIV of ONE, whose every element decodes to 1.0 (43_arith_muldivrecip.md R157). The spec's own
inference from the two operations' rules. -/
def Obligations.ReciprocalIsDivisionOfOne : Prop :=
  ∀ (cfg : Config) (draw : Nat → BitVec 24) (B : Block), cfg.legal = true → B.legal cfg = true →
    (oneBlock cfg).legal cfg = true ∧ decodeBlock cfg (oneBlock cfg) = List.replicate cfg.n 0x3F800000 ∧
      reciprocalBlock cfg draw B = divBlock cfg draw (oneBlock cfg) B

/-- The intermediates of ADD and SUB: `fadd32` and `fsub32` of decoded elements are `rnd32` of the exact sum and of the
exact difference (40_bit_utilities.md R91); that value is an exact multiple of the smallest decoded magnitude, at most
twice the largest, and is rounded to a normal number or, only where it is exactly zero, to a zero (42_arith_addsub.md
R135). The spec's own inference under its decisions D1 and D12, log entries 13 and 31. -/
def Obligations.AddSubIntermediatesStayNormal : Prop :=
  (∀ (cfg : Config) (A B : Block) (x y : Elem) (v : Rat) (r : Word), cfg.legal = true → A.legal cfg = true →
    B.legal cfg = true → x ∈ A.elems → y ∈ B.elems →
    (v = elemValue cfg A.exp x + elemValue cfg B.exp y ∧
        r = fadd32 (decodeElem cfg A.exp x) (decodeElem cfg B.exp y) ∨
      v = elemValue cfg A.exp x - elemValue cfg B.exp y ∧
        r = fsub32 (decodeElem cfg A.exp x) (decodeElem cfg B.exp y)) →
    r = rnd32 v ∧
      (∃ k : Int, v = k * pow2 (-(cfg.bias : Int) - cfg.wm)) ∧
      (v ≠ 0 → pow2 (-(cfg.bias : Int) - cfg.wm) ≤ |v|) ∧
      |v| ≤ 2 * cfg.mmax * pow2 ((cfg.emax : Int) - cfg.bias - cfg.wm) ∧
      (v = 0 → r.isZero = true) ∧ (v ≠ 0 → r.normal = true)) ∧
    2 * (Config.normative.mmax : Rat) * pow2 ((Config.normative.emax : Int) - Config.normative.bias - Config.normative.wm) =
      261120

/-- The intermediates of MUL, DIV and RECIPROCAL: `fmul32` of decoded elements is `rnd32` of the exact product, and for a
nonzero divisor `fdiv32` is `rnd32` of the exact quotient of the first by the second, under every legal configuration
(40_bit_utilities.md R91); for `WE <= 6` they lie between the bounds the rule gives and are normal numbers, or a zero
exactly where the exact result is zero (43_arith_muldivrecip.md R156). The spec's own inference under its decisions D1
and D12, log entries 13, 27 and 31. -/
def Obligations.MulDivIntermediatesStayNormal : Prop :=
  ∀ (cfg : Config) (A B : Block) (x y : Elem), cfg.legal = true → A.legal cfg = true → B.legal cfg = true →
    x ∈ A.elems → y ∈ B.elems →
    fmul32 (decodeElem cfg A.exp x) (decodeElem cfg B.exp y) =
      rnd32 (elemValue cfg A.exp x * elemValue cfg B.exp y) ∧
    (y.mant ≠ 0 →
      fdiv32 (decodeElem cfg A.exp x) (decodeElem cfg B.exp y) =
          rnd32 (elemValue cfg A.exp x / elemValue cfg B.exp y) ∧
        fdiv32 0x3F800000 (decodeElem cfg B.exp y) = rnd32 (1 / elemValue cfg B.exp y)) ∧
    ∀ u V : Rat, cfg.we ≤ 6 → u = pow2 (-(cfg.bias : Int) - cfg.wm) →
      V = (cfg.mmax : Rat) * pow2 ((cfg.emax : Int) - cfg.bias - cfg.wm) →
      (x.mant ≠ 0 → y.mant ≠ 0 →
        u * u ≤ |elemValue cfg A.exp x * elemValue cfg B.exp y| ∧
          |elemValue cfg A.exp x * elemValue cfg B.exp y| ≤ V * V ∧
          (fmul32 (decodeElem cfg A.exp x) (decodeElem cfg B.exp y)).normal = true ∧
          u / V ≤ |elemValue cfg A.exp x / elemValue cfg B.exp y| ∧
          |elemValue cfg A.exp x / elemValue cfg B.exp y| ≤ V / u ∧
          (fdiv32 (decodeElem cfg A.exp x) (decodeElem cfg B.exp y)).normal = true) ∧
      (x.mant = 0 ∨ y.mant = 0 → (fmul32 (decodeElem cfg A.exp x) (decodeElem cfg B.exp y)).isZero = true) ∧
      (x.mant = 0 → y.mant ≠ 0 → (fdiv32 (decodeElem cfg A.exp x) (decodeElem cfg B.exp y)).isZero = true) ∧
      (y.mant ≠ 0 → 1 / V ≤ |1 / elemValue cfg B.exp y| ∧ |1 / elemValue cfg B.exp y| ≤ 1 / u ∧
        (fdiv32 0x3F800000 (decodeElem cfg B.exp y)).normal = true)

/-- For `WE <= 6` no free value reaches an arithmetic result, and none reaches `encode` of finite words (41_codec.md
R112, 42_arith_addsub.md R135, 43_arith_muldivrecip.md R156). The ranges behind it are the spec's own inferences; the
draws are free values, log entries 3 and 27. -/
def Obligations.NoDrawReachesFiniteResults : Prop :=
  ∀ (cfg : Config) (draw draw' : Nat → BitVec 24), cfg.legal = true →
    (∀ ws : List Word, (∀ w ∈ ws, w.finite = true) → encodeBlock cfg draw ws = encodeBlock cfg draw' ws) ∧
    ∀ A B : Block, A.legal cfg = true → B.legal cfg = true →
      addBlock cfg draw A B = addBlock cfg draw' A B ∧ subBlock cfg draw A B = subBlock cfg draw' A B ∧
      (cfg.we ≤ 6 → mulBlock cfg draw A B = mulBlock cfg draw' A B ∧ divBlock cfg draw A B = divBlock cfg draw' A B ∧
        reciprocalBlock cfg draw B = reciprocalBlock cfg draw' B)

/-- A divisor element that decodes to a magnitude at or below `10^-30` gives the zero element in DIV and RECIPROCAL, whatever
the dividend and the signs; the float forced is `+0.0` (43_arith_muldivrecip.md R153). -/
def Obligations.NearZeroDivisorGivesZeroElement : Prop :=
  ∀ (cfg : Config) (draw : Nat → BitVec 24) (A B : Block) (i : Nat) (y : Elem), cfg.legal = true →
    A.legal cfg = true → B.legal cfg = true → B.elems[i]? = some y →
    |f32val (decodeElem cfg B.exp y)| ≤ 1 / 10 ^ 30 →
    (∀ x : Word, divLane x (decodeElem cfg B.exp y) = 0x00000000) ∧
      (divBlock cfg draw A B).elems[i]? = some ⟨false, 0⟩ ∧ (reciprocalBlock cfg draw B).elems[i]? = some ⟨false, 0⟩

/-- `sub(A, A)` is the canonical zero Block (42_arith_addsub.md R133). One corner case of the rule; binary32
subtraction is presumed, log entry 13. -/
def Obligations.SubOfItselfIsZeroBlock : Prop :=
  ∀ (cfg : Config) (draw : Nat → BitVec 24) (A : Block), cfg.legal = true → A.legal cfg = true →
    subBlock cfg draw A A = ⟨0, List.replicate cfg.n ⟨false, 0⟩⟩

/-- The product of two decoded values is exact in binary32 where two mantissas fit 24 bits (43_arith_muldivrecip.md
R150). One corner case of the rule; the range behind it is the spec's own inference, log entries 13 and 31. -/
def Obligations.ProductsOfDecodedValuesAreExact : Prop :=
  ∀ (cfg : Config) (A B : Block) (x y : Elem), cfg.legal = true → cfg.we ≤ 6 → cfg.wm ≤ 11 → A.legal cfg = true →
    B.legal cfg = true → x ∈ A.elems → y ∈ B.elems →
    f32val (fmul32 (decodeElem cfg A.exp x) (decodeElem cfg B.exp y)) =
      elemValue cfg A.exp x * elemValue cfg B.exp y

/-! ### The whole machine -/

/-- Reset: `STATUS = IDLE`, `done` empty (10_state.md R36), the normative configuration, and the invariant holds. The
reset values are the spec's decision D10; that the configuration is carried in State is the model's, log entry 1. -/
def Obligations.ResetStateMeetsInvariant : Prop :=
  State.reset.status = .idle ∧ State.reset.done = [] ∧ State.reset.cfg = ⟨16, 5, 7, OpcodeMap.default, false, false⟩ ∧
    State.reset.cfg.legal = true ∧ State.reset.Inv

/-- Every step keeps the invariant (10_state.md R29 to R31). The state is the spec's decisions D3 and D4; the
invariant's form is the model's, log entries 23 and 29. -/
def Obligations.InvariantKeptByStep : Prop :=
  ∀ s t : State, s.Inv → step s = .next t → t.Inv

/-- Every move of the caller keeps the invariant (70_reset_and_hazards.md R200, R201, R206). The moves are the spec's
decisions D3, D7 and D10 in the model's form, log entries 10 and 22. -/
def Obligations.InvariantKeptByCaller : Prop :=
  ∀ (m : CallerMove) (s t : State), s.Inv → callerMove m s = .next t → t.Inv

/-- What the caller may do and may not do. While an invocation is started or running: no start, no write of `OP`, `NBLK`
or a feed, no read of `OUT`. Otherwise: a start, each of the writes, and a read of `OUT`. At any time: the reads of `OP`,
`NBLK` and `STATUS`, and a reset, which abandons a running invocation, leaves the input feeds and empties `done`
(10_state.md R33; 60_exceptions.md R187, R191; 70_reset_and_hazards.md R200, R206). The spec's decisions D3, D7 and D10 in
the model's form, log entries 9, 10 and 22. Three clauses are the model's own, log entry 33: that a start not yet taken up
counts as an invocation (DESIGN CHOICE), that the caller's write of `OUT` during one is refused, which R191 does not name
(DEDUCED from 20_memory.md R51), and that `OUT` may be read in `IDLE` and `ERR_INVALID_OP` too (DESIGN CHOICE). -/
def Obligations.CallerDutiesAndLiberties : Prop :=
  ∀ s : State,
    (engaged s = true ↔ s.startReq = true ∨ s.status = .busy) ∧
    (engaged s = true →
      callerMove .start s = .refused .startWhileBusy ∧
      (∀ w, callerMove (.writeOp w) s = .refused .feedChangedDuringRun ∧
        callerMove (.writeNblk w) s = .refused .feedChangedDuringRun) ∧
      (∀ f, callerMove (.writeInA f) s = .refused .feedChangedDuringRun ∧
        callerMove (.writeInB f) s = .refused .feedChangedDuringRun ∧
        callerMove (.provideOut f) s = .refused .feedChangedDuringRun) ∧
      callerReadOut s = .error .feedChangedDuringRun) ∧
    (engaged s = false →
      callerMove .start s = .next { s with startReq := true } ∧ callerReadOut s = .ok s.out ∧
      (∀ w, callerMove (.writeOp w) s = .next { s with op := w } ∧
        callerMove (.writeNblk w) s = .next { s with nblk := w }) ∧
      ∀ f, callerMove (.writeInA f) s = .next { s with inA := f } ∧
        callerMove (.writeInB f) s = .next { s with inB := f } ∧
        callerMove (.provideOut f) s = .next { s with out := f }) ∧
    callerReadOp s = s.op ∧ callerReadNblk s = s.nblk ∧ callerReadStatus s = s.status ∧
    ∃ t, callerMove .reset s = .next t ∧ t.status = .idle ∧ t.done = [] ∧ t.startReq = false ∧ t.inA = s.inA ∧
      t.inB = s.inB ∧ t.cfg = s.cfg ∧ t.out.length = s.out.length

/-- A running invocation ends after exactly as many steps as it has blocks left, with `STATUS = DONE`, and is `BUSY`
before (60_exceptions.md R192, 70_reset_and_hazards.md R204). STATUS and the step of one block are the spec's decision
D3; the invariant is the model's, log entry 29. -/
def Obligations.RunningInvocationCompletes : Prop :=
  ∀ s : State, s.Inv → s.status = .busy → s.startReq = false →
    (∃ t, runSteps (remaining s).length s = .next t ∧ t.status = .done) ∧
      ∀ k < (remaining s).length, ∃ t, runSteps k s = .next t ∧ t.status = .busy

/-- A launched invocation, from its start: after the start and one step for each block `STATUS = DONE`, every block of
`OUT` holds the result the operation's rule gives for that block of the inputs, no other word of `OUT` has changed,
and the inputs are as they were; whatever the order of the blocks (20_memory.md R51, 60_exceptions.md R181, R192). The
start as a step of its own is the model's, log entry 5; the layout the spec's decision D6, log entry 18. -/
def Obligations.InvocationComputesEveryBlock : Prop :=
  ∀ (i : Instr) (s : State), Launched i s → s.startReq = true → s.status ≠ .busy →
    ∃ t, runSteps (nblkNat s + 1) s = .next t ∧ t.status = .done ∧ t.startReq = false ∧ t.cfg = s.cfg ∧ t.op = s.op ∧
      t.nblk = s.nblk ∧ t.inA = s.inA ∧ t.inB = s.inB ∧ t.out.length = s.out.length ∧
      (∀ b < nblkNat s, ∃ (draw : Nat → BitVec 24) (ws : List Word),
        resultWords i s.cfg draw s.inA s.inB b = .ok ws ∧ ws.length = outWords s.cfg i ∧
          ∀ k < outWords s.cfg i, memRead t.out (b * outWords s.cfg i + k) = ws[k]?) ∧
      ∀ a, nblkNat s * outWords s.cfg i ≤ a → memRead t.out a = memRead s.out a

/-- The output is a function of the operation, the block count, the inputs and the configuration alone: two
invocations that agree on these end with the same output words, whatever the order of the blocks, the earlier contents
of `OUT` and every other part of the state; for MUL, DIV and RECIPROCAL under `WE <= 6`, and for ENCODE of finite inputs,
where no free value is drawn (10_state.md R35, 70_reset_and_hazards.md R203). The spec's own inferences (independence across invocations, every schedule alike); log
entries 2, 3 and 19. -/
def Obligations.ScheduleAndHistoryDoNotMatter : Prop :=
  ∀ (i : Instr) (s s' : State), Launched i s → Launched i s' → s.startReq = true → s'.startReq = true →
    s.status ≠ .busy → s'.status ≠ .busy → s'.cfg = s.cfg → s'.nblk = s.nblk → s'.inA = s.inA → s'.inB = s.inB →
    (i = .mul ∨ i = .div ∨ i = .reciprocal → s.cfg.we ≤ 6) → (i = .encode → ∀ w ∈ s.inA, w.finite = true) →
    ∃ t t', runSteps (nblkNat s + 1) s = .next t ∧ runSteps (nblkNat s' + 1) s' = .next t' ∧ t.status = .done ∧
      t'.status = .done ∧ ∀ a < nblkNat s * outWords s.cfg i, memRead t.out a = memRead t'.out a
end

