-- ==== Sys2Proof/Laws/Rounding.lean ====
section
/-!
SUPPORT. Powers of two, rounding to nearest with ties to even, and the shift built on it (40_bit_utilities.md R84 to
R90).
-/

namespace Sys2Proof.Machine

open Sys2Proof

theorem pow2_eq_zpow (k : Int) : pow2 k = (2 : ℚ) ^ k := by
  cases k with
  | ofNat k => simp [pow2]
  | negSucc k => simp [pow2, zpow_negSucc, Rat.mkRat_eq_div]

theorem pow2_pos (k : Int) : 0 < pow2 k := by rw [pow2_eq_zpow]; positivity

theorem pow2_add (j k : Int) : pow2 (j + k) = pow2 j * pow2 k := by
  simp only [pow2_eq_zpow]; exact zpow_add₀ (by norm_num) j k

theorem pow2_sub (j k : Int) : pow2 (j - k) = pow2 j / pow2 k := by
  simp only [pow2_eq_zpow]; exact zpow_sub₀ (by norm_num) j k

theorem pow2_natCast (k : Nat) : pow2 k = ((2 ^ k : Nat) : ℚ) := rfl

theorem pow2_le_pow2 {j k : Int} : pow2 j ≤ pow2 k ↔ j ≤ k := by
  simp only [pow2_eq_zpow]; exact zpow_le_zpow_iff_right₀ (by norm_num)

theorem pow2_lt_pow2 {j k : Int} : pow2 j < pow2 k ↔ j < k := by
  simp only [pow2_eq_zpow]; exact zpow_lt_zpow_iff_right₀ (by norm_num)

/-- The two directions in which a rounded quotient is determined by the exact one. -/
theorem rneDiv_eq_iff {num den r : Nat} (hd : 0 < den) :
    rneDiv num den = r ↔
      2 * r * den ≤ 2 * num + den ∧ 2 * num ≤ 2 * r * den + den ∧
        ((2 * num = 2 * r * den + den ∨ 2 * r * den = 2 * num + den) → r % 2 = 0) := by
  have hq := Nat.div_add_mod num den
  have hr := Nat.mod_lt num hd
  unfold rneDiv
  set q := num / den with hqdef
  set m := num % den with hmdef
  have hnum : num = q * den + m := by rw [Nat.mul_comm q den]; exact hq.symm
  clear hq
  constructor
  · intro h
    dsimp only at h
    split at h <;> rename_i hc
    · subst h
      have e1 : 2 * (q + 1) * den = 2 * (q * den) + 2 * den := by ring
      refine ⟨by rw [e1]; omega, by rw [e1]; omega, ?_⟩
      intro ht; rw [e1] at ht; omega
    · subst h
      have e1 : 2 * q * den = 2 * (q * den) := by ring
      refine ⟨by rw [e1]; omega, by rw [e1]; omega, ?_⟩
      intro ht; rw [e1] at ht; omega
  · rintro ⟨h1, h2, h3⟩
    have hlow : q ≤ r := by
      by_contra hlt
      have : (r + 1) * den ≤ q * den := Nat.mul_le_mul_right _ (by omega)
      have e : 2 * r * den + 2 * den = 2 * ((r + 1) * den) := by ring
      omega
    have hhigh : r ≤ q + 1 := by
      by_contra hlt
      have : (q + 2) * den ≤ r * den := Nat.mul_le_mul_right _ (by omega)
      have e : 2 * r * den = 2 * (r * den) := by ring
      have e2 : (q + 2) * den = q * den + 2 * den := by ring
      omega
    dsimp only
    rcases (by omega : r = q ∨ r = q + 1) with rfl | rfl
    · have e1 : 2 * q * den = 2 * (q * den) := by ring
      rw [e1] at h1 h2 h3
      rw [if_neg]; omega
    · have e1 : 2 * (q + 1) * den = 2 * (q * den) + 2 * den := by ring
      rw [e1] at h1 h2 h3
      rw [if_pos]; omega

/-- Scaling a quotient does not change its rounding. -/
theorem rneDiv_mul_mul {num den k : Nat} (hd : 0 < den) (hk : 0 < k) :
    rneDiv (num * k) (den * k) = rneDiv num den := by
  obtain ⟨h1, h2, h3⟩ := (rneDiv_eq_iff (num := num) hd).1 rfl
  rw [rneDiv_eq_iff (Nat.mul_pos hd hk)]
  set r := rneDiv num den
  have e : 2 * r * (den * k) = 2 * r * den * k := by ring
  have e1 : 2 * (num * k) + den * k = (2 * num + den) * k := by ring
  have e2 : 2 * r * den * k + den * k = (2 * r * den + den) * k := by ring
  rw [e, e1, e2]
  refine ⟨Nat.mul_le_mul_right _ h1, ?_, ?_⟩
  · have e3 : 2 * (num * k) = 2 * num * k := by ring
    rw [e3]; exact Nat.mul_le_mul_right _ h2
  · intro ht
    apply h3
    have e3 : 2 * (num * k) = 2 * num * k := by ring
    rw [e3] at ht
    exact ht.imp (fun h => Nat.eq_of_mul_eq_mul_right hk h) (fun h => Nat.eq_of_mul_eq_mul_right hk h)

theorem rneDiv_mul_self {q den : Nat} (hd : 0 < den) : rneDiv (q * den) den = q := by
  rw [rneDiv_eq_iff hd]
  have e : 2 * q * den = 2 * (q * den) := by ring
  rw [e]; omega

theorem rneDiv_mono {a b den : Nat} (hd : 0 < den) (h : a ≤ b) : rneDiv a den ≤ rneDiv b den := by
  obtain ⟨h1, h2, h3⟩ := (rneDiv_eq_iff (num := a) hd).1 rfl
  obtain ⟨g1, g2, g3⟩ := (rneDiv_eq_iff (num := b) hd).1 rfl
  by_contra hlt
  have hstep : rneDiv b den + 1 ≤ rneDiv a den := by omega
  have := Nat.mul_le_mul_right den hstep
  have e1 : (rneDiv b den + 1) * den = rneDiv b den * den + den := by ring
  have e2 : 2 * rneDiv a den * den = 2 * (rneDiv a den * den) := by ring
  have e3 : 2 * rneDiv b den * den = 2 * (rneDiv b den * den) := by ring
  rw [e2] at h1 h2 h3; rw [e3] at g1 g2 g3
  have hab : a = b := by omega
  subst hab; omega

/-- `RNE` of a non-negative rational given as any quotient of naturals. -/
theorem rne_natCast_div (num den : Nat) (hd : 0 < den) : rne ((num : ℚ) / den) = rneDiv num den := by
  have hx : (0 : ℚ) ≤ (num : ℚ) / den := by positivity
  set x : ℚ := (num : ℚ) / den with hxdef
  have hnum : (0 : Int) ≤ x.num := Rat.num_nonneg.2 hx
  have hxd : 0 < x.den := x.den_pos
  have heq : (x.num.toNat : ℚ) * den = num * x.den := by
    have h1 : (x.num.toNat : ℚ) = x.num := by exact_mod_cast Int.toNat_of_nonneg hnum
    have h2 : (x.num : ℚ) = x * x.den := (Rat.mul_den_eq_num x).symm
    rw [h1, h2, hxdef]; field_simp
  have heq' : x.num.toNat * den = num * x.den := by exact_mod_cast heq
  unfold rne
  rw [← rneDiv_mul_mul hxd hd, heq', Nat.mul_comm x.den den, rneDiv_mul_mul hd hxd]

/-- `RNE` of a non-negative rational is the only natural number within a half of it, the even one at a tie. -/
theorem rne_eq_iff {x : ℚ} (hx : 0 ≤ x) {r : Nat} :
    rne x = r ↔ (r : ℚ) - 1 / 2 ≤ x ∧ x ≤ r + 1 / 2 ∧
      ((x = r + 1 / 2 ∨ x = (r : ℚ) - 1 / 2) → r % 2 = 0) := by
  have hnum : (0 : Int) ≤ x.num := Rat.num_nonneg.2 hx
  have hd : (0 : ℚ) < x.den := by exact_mod_cast x.den_pos
  have h1 : (x.num.toNat : ℚ) = x * x.den := by
    rw [Rat.mul_den_eq_num]; exact_mod_cast Int.toNat_of_nonneg hnum
  unfold rne
  rw [rneDiv_eq_iff x.den_pos]
  have c1 : 2 * r * x.den ≤ 2 * x.num.toNat + x.den ↔ (r : ℚ) - 1 / 2 ≤ x := by
    rw [← @Nat.cast_le ℚ]; push_cast; rw [h1]
    constructor <;> intro h <;> nlinarith
  have c2 : 2 * x.num.toNat ≤ 2 * r * x.den + x.den ↔ x ≤ (r : ℚ) + 1 / 2 := by
    rw [← @Nat.cast_le ℚ]; push_cast; rw [h1]
    constructor <;> intro h <;> nlinarith
  have c3 : 2 * x.num.toNat = 2 * r * x.den + x.den ↔ x = (r : ℚ) + 1 / 2 := by
    rw [← @Nat.cast_inj ℚ]; push_cast; rw [h1]
    constructor
    · intro h
      have : (x - (r + 1 / 2)) * x.den = 0 := by linarith
      rcases mul_eq_zero.1 this with h | h
      · linarith
      · exact absurd h hd.ne'
    · rintro rfl; ring
  have c4 : 2 * r * x.den = 2 * x.num.toNat + x.den ↔ x = (r : ℚ) - 1 / 2 := by
    rw [← @Nat.cast_inj ℚ]; push_cast; rw [h1]
    constructor
    · intro h
      have : (x - (r - 1 / 2)) * x.den = 0 := by linarith
      rcases mul_eq_zero.1 this with h | h
      · linarith
      · exact absurd h hd.ne'
    · rintro rfl; ring
  rw [c1, c2, c3, c4]

theorem rne_natCast (k : Nat) : rne (k : ℚ) = k := by
  have := rne_natCast_div k 1 (by norm_num)
  simpa [rneDiv, Nat.mod_one] using this

/-- The shift between the two clauses is the rounded quotient (40_bit_utilities.md R84). -/
theorem roundShiftRight_eq_rneDiv (value s : Nat) (h1 : 1 ≤ s) (h2 : s < 32) :
    roundShiftRight value s = rneDiv value (2 ^ s) := by
  obtain ⟨t, rfl⟩ : ∃ t, s = t + 1 := ⟨s - 1, by omega⟩
  unfold roundShiftRight rneDiv wRs
  rw [if_neg (by omega), if_neg (by omega)]
  simp only [Int.toNat_natCast, Nat.shiftRight_eq_div_pow, Nat.one_shiftLeft, Nat.and_two_pow_sub_one_eq_mod,
    Nat.add_sub_cancel]
  congr 1
  rw [pow_succ]
  simp only [eq_iff_iff]
  generalize 2 ^ t = h
  omega

theorem roundShiftRight_of_le (value : Nat) (shift : Int) (h : 32 ≤ shift) : roundShiftRight value shift = 0 := by
  unfold roundShiftRight wRs; rw [if_neg (by omega), if_pos (by omega)]

theorem roundShiftRight_zero (value : Nat) : roundShiftRight value 0 = value % 2 ^ 32 := by
  simp [roundShiftRight, wRs]

/-- On every value `encode` passes, `round_shift_right` is the rounded quotient, whatever the shift (40_bit_utilities.md
R87). -/
theorem roundShiftRight_mant (value : Nat) (hv : value < 2 ^ 24) (s : Nat) :
    roundShiftRight value s = rneDiv value (2 ^ s) := by
  rcases Nat.eq_zero_or_pos s with rfl | h1
  · rw [show ((0 : Nat) : Int) = 0 from rfl, roundShiftRight_zero, Nat.mod_eq_of_lt (by omega)]
    simp [rneDiv, Nat.mod_one]
  · rcases Nat.lt_or_ge s 32 with h2 | h2
    · exact roundShiftRight_eq_rneDiv value s h1 h2
    · rw [roundShiftRight_of_le _ _ (by omega)]
      symm
      rw [rneDiv_eq_iff (by positivity)]
      have : 2 ^ 32 ≤ 2 ^ s := Nat.pow_le_pow_right (by norm_num) h2
      omega

theorem saturate_eq_min (value max : Nat) : saturate value max = min value max := by
  unfold saturate; split <;> omega

theorem clamp_eq (v lo hi : Int) (h : lo ≤ hi) : clamp v lo hi = max lo (min v hi) := by
  unfold clamp; split <;> [skip; split] <;> omega

end Sys2Proof.Machine
end

