-- ==== Sys2Proof/Laws/Float.lean ====
section
/-!
SUPPORT. The fields of a float word, the value of a word, and the one rounding to binary32 (30_encoding.md R65,
40_bit_utilities.md R80 to R94).
-/

namespace Sys2Proof.Machine

open Sys2Proof

/-! ### The fields of a word -/

theorem packFloat_sign (s : Bool) (e : BitVec 8) (f : BitVec 23) : Word.sign (packFloat s e f) = s := by
  unfold Word.sign packFloat
  rw [BitVec.getLsbD_append, if_neg (by omega), BitVec.getLsbD_append, if_neg (by omega)]
  simp

theorem packFloat_expField (s : Bool) (e : BitVec 8) (f : BitVec 23) :
    Word.expField (packFloat s e f) = e.toNat := by
  unfold Word.expField packFloat
  congr 1
  ext i hi
  rw [BitVec.getElem_extractLsb', BitVec.getLsbD_append, if_neg (by omega), Nat.add_sub_cancel_left,
    BitVec.getLsbD_append, if_pos hi, BitVec.getLsbD_eq_getElem hi]

theorem packFloat_fracField (s : Bool) (e : BitVec 8) (f : BitVec 23) :
    Word.fracField (packFloat s e f) = f.toNat := by
  unfold Word.fracField packFloat
  congr 1
  ext i hi
  rw [BitVec.getElem_extractLsb', BitVec.getLsbD_append, if_pos (by omega), Nat.zero_add,
    BitVec.getLsbD_eq_getElem hi]

theorem expField_lt (w : Word) : w.expField < 256 := (w.extractLsb' 23 8).isLt

theorem fracField_lt (w : Word) : w.fracField < 2 ^ 23 := (w.extractLsb' 0 23).isLt

/-- A word is its three fields. -/
theorem packFloat_fields (w : Word) :
    packFloat w.sign (BitVec.ofNat 8 w.expField) (BitVec.ofNat 23 w.fracField) = w := by
  unfold Word.expField Word.fracField packFloat
  simp only [BitVec.ofNat_toNat, BitVec.setWidth_eq]
  apply BitVec.eq_of_getLsbD_eq
  intro i hi
  simp only [BitVec.getLsbD_append, BitVec.getLsbD_extractLsb', Word.sign, BitVec.getLsbD_ofBool]
  rcases Nat.lt_or_ge i 23 with h | h
  · simp [h]
  · rcases Nat.lt_or_ge i 31 with h' | h'
    · simp [show ¬ i < 23 by omega, show i - 23 < 8 by omega, show 23 + (i - 23) = i by omega]
    · have : i = 31 := by omega
      subst this; simp

theorem word_ext {v w : Word} (hs : v.sign = w.sign) (he : v.expField = w.expField)
    (hf : v.fracField = w.fracField) : v = w := by
  rw [← packFloat_fields v, ← packFloat_fields w, hs, he, hf]

/-! ### The value of a word -/

theorem signed_zero (s : Bool) : signed s 0 = 0 := by cases s <;> simp [signed]

theorem signed_neg (s : Bool) (a : ℚ) : signed (!s) a = -signed s a := by cases s <;> simp [signed]

theorem abs_signed (s : Bool) (a : ℚ) : |signed s a| = |a| := by cases s <;> simp [signed]

theorem signed_sub (s : Bool) (a b : ℚ) : signed s (a - b) = signed s a - signed s b := by
  cases s <;> simp [signed]; ring

theorem signed_mul (s t : Bool) (a b : ℚ) : signed s a * signed t b = signed (xor s t) (a * b) := by
  cases s <;> cases t <;> simp [signed]

/-- The value of a normal word (40_bit_utilities.md R80, R92). -/
theorem f32val_normal {w : Word} (h : w.normal = true) :
    f32val w = signed w.sign (((2 ^ 23 + w.fracField : Nat) : ℚ) * pow2 ((w.expField : Int) - 150)) := by
  simp only [Word.normal, Bool.and_eq_true, bne_iff_ne, ne_eq] at h
  have hf : w.finite = true := by simp [Word.finite, h.2]
  simp only [f32val, hf, if_true, decompose, if_neg h.2, if_neg h.1]
  congr 3; omega

/-- The value of a subnormal word (40_bit_utilities.md R82, R92). -/
theorem f32val_subnormal {w : Word} (he : w.expField = 0) (hf : w.fracField ≠ 0) :
    f32val w = signed w.sign ((w.fracField : ℚ) * pow2 (-149)) := by
  simp [f32val, Word.finite, decompose, he, hf]

/-- The value of a zero of either sign (40_bit_utilities.md R81, R92). -/
theorem f32val_zero {w : Word} (h : w.isZero = true) : f32val w = 0 := by
  simp only [Word.isZero, Bool.and_eq_true, beq_iff_eq] at h
  simp [f32val, Word.finite, decompose, h.1, h.2]

theorem finite_of_normal {w : Word} (h : w.normal = true) : w.finite = true := by
  simp only [Word.normal, Bool.and_eq_true, bne_iff_ne, ne_eq] at h; simp [Word.finite, h.2]

/-- A finite word is a zero, a subnormal or a normal one (10_state.md R28). -/
theorem finite_cases {w : Word} (h : w.finite = true) :
    w.isZero = true ∨ (w.expField = 0 ∧ w.fracField ≠ 0) ∨ w.normal = true := by
  simp only [Word.finite, Word.isZero, Word.normal, bne_iff_ne, ne_eq, Bool.and_eq_true, beq_iff_eq] at *
  by_cases h0 : w.expField = 0 <;> by_cases h1 : w.fracField = 0 <;> simp_all

theorem f32val_ne_zero_of_normal {w : Word} (h : w.normal = true) : f32val w ≠ 0 := by
  rw [f32val_normal h]
  have h1 : (0 : ℚ) < ((2 ^ 23 + w.fracField : Nat) : ℚ) * pow2 ((w.expField : Int) - 150) :=
    mul_pos (by positivity) (pow2_pos _)
  intro h0
  have := abs_signed w.sign (((2 ^ 23 + w.fracField : Nat) : ℚ) * pow2 ((w.expField : Int) - 150))
  rw [h0, abs_zero] at this
  exact absurd (abs_eq_zero.1 this.symm) h1.ne'

/-- Among finite words exactly the two zeros have the value 0. -/
theorem f32val_eq_zero_iff {w : Word} (h : w.finite = true) : f32val w = 0 ↔ w.isZero = true := by
  constructor
  · intro h0
    rcases finite_cases h with hz | ⟨he, hf⟩ | hn
    · exact hz
    · rw [f32val_subnormal he hf] at h0
      have h1 : (0 : ℚ) < (w.fracField : ℚ) * pow2 (-149) :=
        mul_pos (by exact_mod_cast Nat.pos_of_ne_zero hf) (pow2_pos _)
      have := abs_signed w.sign ((w.fracField : ℚ) * pow2 (-149))
      rw [h0, abs_zero] at this
      exact absurd (abs_eq_zero.1 this.symm) h1.ne'
    · exact absurd h0 (f32val_ne_zero_of_normal hn)
  · exact f32val_zero

/-! ### `floor(log2)` -/

/-- `floorLog2` is the exponent of the binade (40_bit_utilities.md R90). -/
theorem floorLog2_spec {a : ℚ} (ha : 0 < a) : pow2 (floorLog2 a) ≤ a ∧ a < pow2 (floorLog2 a + 1) := by
  have hn : 0 < a.num := Rat.num_pos.2 ha
  have hnz : a.num.toNat ≠ 0 := by omega
  have hd : a.den ≠ 0 := a.den_nz
  have hna : (a.num.toNat : ℚ) = a * a.den := by
    rw [Rat.mul_den_eq_num]; exact_mod_cast Int.toNat_of_nonneg hn.le
  have hdp : (0 : ℚ) < a.den := by exact_mod_cast a.den_pos
  set p := Nat.log2 a.num.toNat with hp
  set r := Nat.log2 a.den with hr
  have n1 : 2 ^ p ≤ a.num.toNat := Nat.log2_self_le hnz
  have n2 : a.num.toNat < 2 ^ (p + 1) := Nat.lt_log2_self
  have d1 : 2 ^ r ≤ a.den := Nat.log2_self_le hd
  have d2 : a.den < 2 ^ (r + 1) := Nat.lt_log2_self
  have n1' : pow2 p ≤ a * a.den := by rw [← hna, pow2_natCast]; exact_mod_cast n1
  have n2' : a * a.den < pow2 (p + 1 : Nat) := by rw [← hna, pow2_natCast]; exact_mod_cast n2
  have d1' : pow2 r ≤ a.den := by rw [pow2_natCast]; exact_mod_cast d1
  have d2' : (a.den : ℚ) < pow2 (r + 1 : Nat) := by rw [pow2_natCast]; exact_mod_cast d2
  have up : a < pow2 ((p : Int) - r + 1) := by
    have e : pow2 ((p + 1 : Nat) : Int) = pow2 ((p : Int) - r + 1) * pow2 r := by
      rw [← pow2_add]; congr 1; push_cast; ring
    rw [e] at n2'
    by_contra hge
    push Not at hge
    have := mul_le_mul hge d1' (pow2_pos _).le ha.le
    linarith
  have low : pow2 ((p : Int) - r - 1) ≤ a := by
    have e : pow2 ((p : Nat) : Int) = pow2 ((p : Int) - r - 1) * pow2 ((r + 1 : Nat) : Int) := by
      rw [← pow2_add]; congr 1; push_cast; ring
    rw [e] at n1'
    by_contra hlt
    push Not at hlt
    have := mul_lt_mul hlt d2'.le hdp (pow2_pos _).le
    linarith
  unfold floorLog2
  simp only [← hp, ← hr]
  split
  · rename_i h; exact ⟨h, up⟩
  · rename_i h
    refine ⟨low, ?_⟩
    rw [show (p : Int) - r - 1 + 1 = (p : Int) - r by ring]
    exact lt_of_not_ge h

theorem floorLog2_unique {a : ℚ} {e : Int} (h1 : pow2 e ≤ a) (h2 : a < pow2 (e + 1)) : floorLog2 a = e := by
  have ha : 0 < a := lt_of_lt_of_le (pow2_pos _) h1
  obtain ⟨g1, g2⟩ := floorLog2_spec ha
  have a1 : floorLog2 a < e + 1 := pow2_lt_pow2.1 (lt_of_le_of_lt g1 h2)
  have a2 : e < floorLog2 a + 1 := pow2_lt_pow2.1 (lt_of_le_of_lt h1 g2)
  omega

/-! ### `f32exact` -/

/-- On its domain `f32exact` is a normal word with the given sign (40_bit_utilities.md R93). -/
theorem f32exact_fields {s : Bool} {m : Nat} {k : Int} (h0 : m ≠ 0) (h24 : m < 2 ^ 24)
    (hlo : -126 ≤ k + Nat.log2 m) (hhi : k + Nat.log2 m ≤ 127) :
    (f32exact s m k).sign = s ∧ ((f32exact s m k).expField : Int) = k + Nat.log2 m + 127 ∧
      2 ^ 23 + (f32exact s m k).fracField = m * 2 ^ (23 - Nat.log2 m) ∧ (f32exact s m k).normal = true := by
  have hp : Nat.log2 m < 24 := (Nat.log2_lt h0).2 h24
  have m1 : 2 ^ Nat.log2 m ≤ m := Nat.log2_self_le h0
  have m2 : m < 2 ^ (Nat.log2 m + 1) := Nat.lt_log2_self
  have hexp : ((f32exact s m k).expField : Int) = k + Nat.log2 m + 127 := by
    unfold f32exact
    rw [packFloat_expField]
    have : (BitVec.ofInt 8 (k + Nat.log2 m + 127)).toNat = (k + Nat.log2 m + 127).toNat := by
      rw [BitVec.toNat_ofInt]
      congr 1
      exact Int.emod_eq_of_lt (by omega) (by simpa using (by omega : k + Nat.log2 m + 127 < 256))
    rw [this]; omega
  refine ⟨packFloat_sign _ _ _, hexp, ?_, ?_⟩
  · unfold f32exact
    rw [packFloat_fracField, BitVec.toNat_ofNat, Nat.shiftLeft_eq]
    have e1 : 2 ^ 23 = 2 ^ Nat.log2 m * 2 ^ (23 - Nat.log2 m) := by rw [← pow_add]; congr 1; omega
    have e2 : 2 ^ 24 = 2 ^ (Nat.log2 m + 1) * 2 ^ (23 - Nat.log2 m) := by rw [← pow_add]; congr 1; omega
    have l1 : 2 ^ 23 ≤ m * 2 ^ (23 - Nat.log2 m) := by rw [e1]; exact Nat.mul_le_mul_right _ m1
    have l2 : m * 2 ^ (23 - Nat.log2 m) < 2 ^ 24 := by
      rw [e2]; exact Nat.mul_lt_mul_of_pos_right m2 (by positivity)
    omega
  · simp only [Word.normal, Bool.and_eq_true, bne_iff_ne, ne_eq]; omega

/-- `f32exact` denotes exactly the value it is made for (40_bit_utilities.md R93). -/
theorem f32val_f32exact_of_mem {s : Bool} {m : Nat} {k : Int} (h0 : m ≠ 0) (h24 : m < 2 ^ 24)
    (hlo : -126 ≤ k + Nat.log2 m) (hhi : k + Nat.log2 m ≤ 127) :
    f32val (f32exact s m k) = signed s ((m : ℚ) * pow2 k) := by
  obtain ⟨hs, he, hf, hn⟩ := f32exact_fields (s := s) h0 h24 hlo hhi
  have hp : Nat.log2 m < 24 := (Nat.log2_lt h0).2 h24
  rw [f32val_normal hn, hs, hf, he]
  congr 1
  push_cast
  rw [mul_assoc]
  congr 1
  have : ((2 : ℚ) ^ (23 - Nat.log2 m)) = pow2 ((23 - Nat.log2 m : Nat) : Int) := by rw [pow2_natCast]; norm_cast
  rw [this, ← pow2_add]
  congr 1; omega

/-! ### `rnd32` -/

/-- The binade and the rounded significand of a rounding in the normal range: no branch but the normal one and the
carry is taken (40_bit_utilities.md R90). -/
theorem rnd32_normal {q : ℚ} {e : Int} (hlo : pow2 e ≤ |q|) (hhi : |q| < pow2 (e + 1)) (he : -126 ≤ e) :
    rnd32 q = rnd32Pack (decide (q < 0)) e (rne (|q| / pow2 (e - 23))) := by
  have hq : q ≠ 0 := by
    rintro rfl
    simp only [abs_zero] at hlo
    exact absurd hlo (not_le.2 (pow2_pos e))
  have ha : (if q < 0 then -q else q) = |q| := by
    split
    · rename_i h; rw [abs_of_neg h]
    · rename_i h; rw [abs_of_nonneg (not_lt.1 h)]
  unfold rnd32
  rw [if_neg hq]
  simp only [ha, floorLog2_unique hlo hhi, max_eq_left he]

/-- The significand of a normal rounding lies in `[2^23, 2^24]`. -/
theorem rne_significand {a : ℚ} {e : Int} (hlo : pow2 e ≤ a) (hhi : a < pow2 (e + 1)) :
    2 ^ 23 ≤ rne (a / pow2 (e - 23)) ∧ rne (a / pow2 (e - 23)) ≤ 2 ^ 24 := by
  have hp : 0 < pow2 (e - 23) := pow2_pos _
  have ha : 0 < a := lt_of_lt_of_le (pow2_pos _) hlo
  have e1 : pow2 e = 2 ^ 23 * pow2 (e - 23) := by
    have h : pow2 ((23 : Nat) : Int) = 2 ^ 23 := by rw [pow2_natCast]; norm_cast
    rw [← h, ← pow2_add]; congr 1; push_cast; ring
  have e2 : pow2 (e + 1) = 2 ^ 24 * pow2 (e - 23) := by
    have h : pow2 ((24 : Nat) : Int) = 2 ^ 24 := by rw [pow2_natCast]; norm_cast
    rw [← h, ← pow2_add]; congr 1; push_cast; ring
  have x1 : (2 : ℚ) ^ 23 ≤ a / pow2 (e - 23) := by rw [le_div_iff₀ hp, ← e1]; exact hlo
  have x2 : a / pow2 (e - 23) < (2 : ℚ) ^ 24 := by rw [div_lt_iff₀ hp, ← e2]; exact hhi
  obtain ⟨g1, g2, -⟩ := (rne_eq_iff (x := a / pow2 (e - 23)) (by positivity)).1 rfl
  constructor
  · have : ((2 ^ 23 : Nat) : ℚ) < rne (a / pow2 (e - 23)) + 1 := by push_cast; linarith
    have : 2 ^ 23 < rne (a / pow2 (e - 23)) + 1 := by exact_mod_cast this
    omega
  · have : (rne (a / pow2 (e - 23)) : ℚ) < ((2 ^ 24 : Nat) : ℚ) + 1 := by push_cast; linarith
    have : rne (a / pow2 (e - 23)) < 2 ^ 24 + 1 := by exact_mod_cast this
    omega

/-- `rnd32Pack` of a significand in `[2^23, 2^24]` at an exponent that stays finite: a normal word with the given sign
and the value the significand and the exponent give (40_bit_utilities.md R90). -/
theorem rnd32Pack_spec (s : Bool) (e : Int) (m : Nat) (h1 : 2 ^ 23 ≤ m) (h2 : m ≤ 2 ^ 24) (he : -126 ≤ e)
    (he' : e ≤ 126 ∨ (e = 127 ∧ m < 2 ^ 24)) :
    (rnd32Pack s e m).sign = s ∧ (rnd32Pack s e m).normal = true ∧
      ((rnd32Pack s e m).expField : Int) = (if m = 2 ^ 24 then e + 1 else e) + 127 ∧
      f32val (rnd32Pack s e m) = signed s ((m : ℚ) * pow2 (e - 23)) := by
  have fieldE : ∀ x : Int, -126 ≤ x → x ≤ 127 → (BitVec.ofInt 8 (x + 127)).toNat = (x + 127).toNat := by
    intro x hx1 hx2
    rw [BitVec.toNat_ofInt]
    congr 1
    exact Int.emod_eq_of_lt (by omega) (by simpa using (by omega : x + 127 < 256))
  by_cases hm : m = 2 ^ 24
  · subst hm
    have hle : e ≤ 126 := by omega
    have hd : rnd32Pack s e (2 ^ 24) = packFloat s (BitVec.ofInt 8 (e + 1 + 127)) (BitVec.ofNat 23 (2 ^ 23)) := by
      unfold rnd32Pack
      simp only [if_true]
      rw [if_neg (by omega), if_neg (by omega)]
    have hE : ((rnd32Pack s e (2 ^ 24)).expField : Int) = e + 1 + 127 := by
      rw [hd, packFloat_expField, fieldE _ (by omega) (by omega)]; omega
    have hF : (rnd32Pack s e (2 ^ 24)).fracField = 0 := by rw [hd, packFloat_fracField]; rfl
    have hS : (rnd32Pack s e (2 ^ 24)).sign = s := by rw [hd, packFloat_sign]
    have hN : (rnd32Pack s e (2 ^ 24)).normal = true := by
      simp only [Word.normal, Bool.and_eq_true, bne_iff_ne, ne_eq]; omega
    refine ⟨hS, hN, by simpa using hE, ?_⟩
    rw [f32val_normal hN, hS, hF, hE]
    congr 1
    rw [show e + 1 + 127 - 150 = (e - 23) + 1 by ring, pow2_add]
    have : pow2 1 = 2 := by simp [pow2_eq_zpow]
    rw [this]; push_cast; ring
  · have hd : rnd32Pack s e m = packFloat s (BitVec.ofInt 8 (e + 127)) (BitVec.ofNat 23 m) := by
      unfold rnd32Pack
      simp only [if_neg hm]
      rw [if_neg (by omega), if_neg (by omega)]
    have hE : ((rnd32Pack s e m).expField : Int) = e + 127 := by
      rw [hd, packFloat_expField, fieldE _ (by omega) (by omega)]; omega
    have hF : 2 ^ 23 + (rnd32Pack s e m).fracField = m := by
      rw [hd, packFloat_fracField, BitVec.toNat_ofNat]; omega
    have hS : (rnd32Pack s e m).sign = s := by rw [hd, packFloat_sign]
    have hN : (rnd32Pack s e m).normal = true := by
      simp only [Word.normal, Bool.and_eq_true, bne_iff_ne, ne_eq]; omega
    refine ⟨hS, hN, by rw [if_neg hm]; exact hE, ?_⟩
    rw [f32val_normal hN, hS, hF, hE]
    congr 3; ring

theorem signed_decide_abs (q : ℚ) : signed (decide (q < 0)) |q| = q := by
  unfold signed
  by_cases h : q < 0
  · simp [h, abs_of_neg h]
  · simp [h, abs_of_nonneg (not_lt.1 h)]

/-- A rounding in the normal range below `2^127` gives a normal word of the right sign within half a unit of the last
place. -/
theorem rnd32_spec {q : ℚ} {e : Int} (hlo : pow2 e ≤ |q|) (hhi : |q| < pow2 (e + 1)) (he : -126 ≤ e) (he' : e ≤ 126) :
    (rnd32 q).normal = true ∧ (rnd32 q).sign = decide (q < 0) ∧ |f32val (rnd32 q) - q| ≤ pow2 (e - 24) ∧
      e + 127 ≤ (rnd32 q).expField ∧ ((rnd32 q).expField : Int) ≤ e + 128 := by
  obtain ⟨m1, m2⟩ := rne_significand hlo hhi
  have hr := rnd32_normal hlo hhi he
  obtain ⟨hS, hN, hE, hV⟩ := rnd32Pack_spec (decide (q < 0)) e _ m1 m2 he (Or.inl he')
  rw [← hr] at hS hN hE hV
  refine ⟨hN, hS, ?_, ?_, ?_⟩
  · rw [hV]
    have hp : 0 < pow2 (e - 23) := pow2_pos _
    obtain ⟨g1, g2, -⟩ := (rne_eq_iff (x := |q| / pow2 (e - 23)) (by positivity)).1 rfl
    have e1 : pow2 (e - 23) = 2 * pow2 (e - 24) := by
      have : pow2 1 = 2 := by simp [pow2_eq_zpow]
      rw [← this, ← pow2_add]; congr 1; ring
    have hx : |q| = |q| / pow2 (e - 23) * pow2 (e - 23) := by field_simp
    set x := |q| / pow2 (e - 23)
    set m := rne x
    have b1 : (m : ℚ) * pow2 (e - 23) - |q| ≤ pow2 (e - 24) := by rw [hx]; nlinarith
    have b2 : |q| - (m : ℚ) * pow2 (e - 23) ≤ pow2 (e - 24) := by rw [hx]; nlinarith
    have hq : signed (decide (q < 0)) ((m : ℚ) * pow2 (e - 23)) - q =
        signed (decide (q < 0)) ((m : ℚ) * pow2 (e - 23) - abs q) := by
      rw [signed_sub, signed_decide_abs]
    rw [hq, abs_signed]
    exact abs_le.2 ⟨by linarith, by linarith⟩
  · rw [hE]; split <;> omega
  · rw [hE]; split <;> omega

theorem rnd32_zero : rnd32 0 = 0 := by simp [rnd32]

end Sys2Proof.Machine
end

