-- ==== Sys2Proof/Laws/State.lean ====
section
/-!
SUPPORT. One lemma per field for each update of the state (10_state.md R29).
-/

namespace Sys2Proof.Machine

open Sys2Proof

/-! ### `clearSlots` -/

@[simp] theorem clearSlots_cfg (s : State) : (clearSlots s).cfg = s.cfg := rfl
@[simp] theorem clearSlots_op (s : State) : (clearSlots s).op = s.op := rfl
@[simp] theorem clearSlots_nblk (s : State) : (clearSlots s).nblk = s.nblk := rfl
@[simp] theorem clearSlots_inA (s : State) : (clearSlots s).inA = s.inA := rfl
@[simp] theorem clearSlots_inB (s : State) : (clearSlots s).inB = s.inB := rfl
@[simp] theorem clearSlots_out (s : State) : (clearSlots s).out = s.out := rfl
@[simp] theorem clearSlots_done (s : State) : (clearSlots s).done = s.done := rfl
@[simp] theorem clearSlots_status (s : State) : (clearSlots s).status = s.status := rfl
@[simp] theorem clearSlots_slots (s : State) : (clearSlots s).slots = Slots.empty := rfl
@[simp] theorem clearSlots_startReq (s : State) : (clearSlots s).startReq = s.startReq := rfl
@[simp] theorem clearSlots_tick (s : State) : (clearSlots s).tick = s.tick := rfl

/-! ### `settleStatus` -/

@[simp] theorem settleStatus_cfg (s : State) : (settleStatus s).cfg = s.cfg := by unfold settleStatus; split <;> rfl
@[simp] theorem settleStatus_op (s : State) : (settleStatus s).op = s.op := by unfold settleStatus; split <;> rfl
@[simp] theorem settleStatus_nblk (s : State) : (settleStatus s).nblk = s.nblk := by
  unfold settleStatus; split <;> rfl
@[simp] theorem settleStatus_inA (s : State) : (settleStatus s).inA = s.inA := by unfold settleStatus; split <;> rfl
@[simp] theorem settleStatus_inB (s : State) : (settleStatus s).inB = s.inB := by unfold settleStatus; split <;> rfl
@[simp] theorem settleStatus_out (s : State) : (settleStatus s).out = s.out := by unfold settleStatus; split <;> rfl
@[simp] theorem settleStatus_done (s : State) : (settleStatus s).done = s.done := by
  unfold settleStatus; split <;> rfl
@[simp] theorem settleStatus_slots (s : State) : (settleStatus s).slots = s.slots := by
  unfold settleStatus; split <;> rfl
@[simp] theorem settleStatus_startReq (s : State) : (settleStatus s).startReq = s.startReq := by
  unfold settleStatus; split <;> rfl
@[simp] theorem settleStatus_tick (s : State) : (settleStatus s).tick = s.tick := by
  unfold settleStatus; split <;> rfl
theorem settleStatus_status (s : State) :
    (settleStatus s).status = if remaining s = [] then .done else s.status := by
  unfold settleStatus; split <;> rfl

/-! ### `retireBlock` -/

@[simp] theorem retireBlock_cfg (b : Nat) (s : State) : (retireBlock b s).cfg = s.cfg := by simp [retireBlock]
@[simp] theorem retireBlock_op (b : Nat) (s : State) : (retireBlock b s).op = s.op := by simp [retireBlock]
@[simp] theorem retireBlock_nblk (b : Nat) (s : State) : (retireBlock b s).nblk = s.nblk := by simp [retireBlock]
@[simp] theorem retireBlock_inA (b : Nat) (s : State) : (retireBlock b s).inA = s.inA := by simp [retireBlock]
@[simp] theorem retireBlock_inB (b : Nat) (s : State) : (retireBlock b s).inB = s.inB := by simp [retireBlock]
@[simp] theorem retireBlock_out (b : Nat) (s : State) : (retireBlock b s).out = s.out := by simp [retireBlock]
@[simp] theorem retireBlock_done (b : Nat) (s : State) : (retireBlock b s).done = insertIndex b s.done := by
  simp [retireBlock]
@[simp] theorem retireBlock_slots (b : Nat) (s : State) : (retireBlock b s).slots = Slots.empty := by
  simp [retireBlock]
@[simp] theorem retireBlock_startReq (b : Nat) (s : State) : (retireBlock b s).startReq = s.startReq := by
  simp [retireBlock]
@[simp] theorem retireBlock_tick (b : Nat) (s : State) : (retireBlock b s).tick = s.tick + s.cfg.n + 1 := by
  simp [retireBlock]

/-! ### `raiseInvalidOperation` -/

@[simp] theorem raiseInvalidOperation_cfg (s : State) : (raiseInvalidOperation s).cfg = s.cfg := rfl
@[simp] theorem raiseInvalidOperation_op (s : State) : (raiseInvalidOperation s).op = s.op := rfl
@[simp] theorem raiseInvalidOperation_nblk (s : State) : (raiseInvalidOperation s).nblk = s.nblk := rfl
@[simp] theorem raiseInvalidOperation_inA (s : State) : (raiseInvalidOperation s).inA = s.inA := rfl
@[simp] theorem raiseInvalidOperation_inB (s : State) : (raiseInvalidOperation s).inB = s.inB := rfl
@[simp] theorem raiseInvalidOperation_out (s : State) : (raiseInvalidOperation s).out = s.out := rfl
@[simp] theorem raiseInvalidOperation_done (s : State) : (raiseInvalidOperation s).done = [] := rfl
@[simp] theorem raiseInvalidOperation_status (s : State) : (raiseInvalidOperation s).status = .errInvalidOp := rfl
@[simp] theorem raiseInvalidOperation_slots (s : State) : (raiseInvalidOperation s).slots = s.slots := rfl
@[simp] theorem raiseInvalidOperation_startReq (s : State) : (raiseInvalidOperation s).startReq = false := rfl
@[simp] theorem raiseInvalidOperation_tick (s : State) : (raiseInvalidOperation s).tick = s.tick := rfl

/-! ### `placeSelector` -/

@[simp] theorem placeSelector_cfg (s : State) (w : Word) : (placeSelector s w).cfg = s.cfg := rfl
@[simp] theorem placeSelector_op (s : State) (w : Word) : (placeSelector s w).op = w := rfl
@[simp] theorem placeSelector_nblk (s : State) (w : Word) : (placeSelector s w).nblk = 1 := rfl
@[simp] theorem placeSelector_inA (s : State) (w : Word) : (placeSelector s w).inA = padFeed s.cfg.blkw s.inA := rfl
@[simp] theorem placeSelector_inB (s : State) (w : Word) : (placeSelector s w).inB = padFeed s.cfg.blkw s.inB := rfl
@[simp] theorem placeSelector_out (s : State) (w : Word) : (placeSelector s w).out = padFeed s.cfg.blkw s.out := rfl
@[simp] theorem placeSelector_done (s : State) (w : Word) : (placeSelector s w).done = [] := rfl
@[simp] theorem placeSelector_status (s : State) (w : Word) : (placeSelector s w).status = .busy := rfl
@[simp] theorem placeSelector_slots (s : State) (w : Word) : (placeSelector s w).slots = s.slots := rfl
@[simp] theorem placeSelector_startReq (s : State) (w : Word) : (placeSelector s w).startReq = false := rfl
@[simp] theorem placeSelector_tick (s : State) (w : Word) : (placeSelector s w).tick = s.tick := rfl

/-! ### `resetMachine` -/

@[simp] theorem resetMachine_cfg (s : State) : (resetMachine s).cfg = s.cfg := rfl
@[simp] theorem resetMachine_inA (s : State) : (resetMachine s).inA = s.inA := rfl
@[simp] theorem resetMachine_inB (s : State) : (resetMachine s).inB = s.inB := rfl
@[simp] theorem resetMachine_out_length (s : State) : (resetMachine s).out.length = s.out.length := by
  simp [resetMachine]
@[simp] theorem resetMachine_done (s : State) : (resetMachine s).done = [] := rfl
@[simp] theorem resetMachine_status (s : State) : (resetMachine s).status = .idle := rfl
@[simp] theorem resetMachine_slots (s : State) : (resetMachine s).slots = Slots.empty := rfl
@[simp] theorem resetMachine_startReq (s : State) : (resetMachine s).startReq = false := rfl

end Sys2Proof.Machine
end

