-- ==== Sys2Proof/Laws/Feed.lean ====
section
/-!
SUPPORT. The feeds as memory: what a read after a write gives, when a run of words can be read or written, and the
words of a Block (20_memory.md R40 to R44, R56).
-/

namespace Sys2Proof.Machine

open Sys2Proof

/-! ### One word -/

theorem memWrite_eq_some {f g : Feed} {a : Nat} {v : Word} :
    memWrite f a v = some g ↔ a < f.length ∧ g = f.set a v := by
  unfold memWrite; split <;> rename_i h <;> simp [h, eq_comm]

theorem memWrite_length {f g : Feed} {a : Nat} {v : Word} (h : memWrite f a v = some g) : g.length = f.length := by
  obtain ⟨-, rfl⟩ := memWrite_eq_some.1 h; simp

/-- A read of the written word gives the value written. -/
theorem memRead_memWrite_same {f g : Feed} {a : Nat} {v : Word} (h : memWrite f a v = some g) :
    memRead g a = some v := by
  obtain ⟨ha, rfl⟩ := memWrite_eq_some.1 h
  simp [memRead, ha]

/-- A write leaves every other word alone. -/
theorem memRead_memWrite_of_ne {f g : Feed} {a c : Nat} {v : Word} (h : memWrite f a v = some g) (hc : c ≠ a) :
    memRead g c = memRead f c := by
  obtain ⟨-, rfl⟩ := memWrite_eq_some.1 h
  simp [memRead, Ne.symm hc]

theorem memRead_isSome {f : Feed} {a : Nat} : (memRead f a).isSome ↔ a < f.length := by simp [memRead]

/-! ### A run of words -/

/-- A run can be read exactly when the feed holds it; its words are the feed's. -/
theorem readWords_eq (f : Feed) (a k : Nat) :
    readWords f a k = if a + k ≤ f.length ∨ k = 0 then some ((f.drop a).take k) else none := by
  induction k generalizing a with
  | zero => simp [readWords]
  | succ k ih =>
    unfold readWords
    rw [ih (a + 1)]
    by_cases h : a < f.length
    · have hr : memRead f a = some f[a] := by simp [memRead, h]
      rw [hr, List.drop_eq_getElem_cons h, List.take_succ_cons]
      by_cases h2 : a + 1 + k ≤ f.length
      · rw [if_pos (Or.inl h2), if_pos (Or.inl (by omega))]
      · have hk : k ≠ 0 := by omega
        rw [if_neg (by omega), if_neg (by omega)]
    · have hr : memRead f a = none := by simp [memRead]; omega
      rw [hr]; exact (if_neg (by omega)).symm

theorem readWords_of_le {f : Feed} {a k : Nat} (h : a + k ≤ f.length) :
    readWords f a k = some ((f.drop a).take k) := by rw [readWords_eq, if_pos (Or.inl h)]

theorem readWords_length {f : Feed} {a k : Nat} {ws : List Word} (h : readWords f a k = some ws) : ws.length = k := by
  rw [readWords_eq] at h
  split at h
  · rename_i hc
    simp only [Option.some.injEq] at h
    subst h
    simp only [List.length_take, List.length_drop]
    omega
  · cases h

theorem readWords_getElem? {f : Feed} {a k : Nat} {ws : List Word} (h : readWords f a k = some ws) {i : Nat}
    (hi : i < k) : ws[i]? = memRead f (a + i) := by
  rw [readWords_eq] at h
  split at h
  · simp only [Option.some.injEq] at h
    subst h
    simp [memRead, hi, List.getElem?_drop]
  · cases h

/-- Two feeds that agree on a run give the same words. -/
theorem readWords_congr {f g : Feed} {a k : Nat} (h : ∀ i < k, memRead f (a + i) = memRead g (a + i)) :
    readWords f a k = readWords g a k := by
  induction k generalizing a with
  | zero => rfl
  | succ k ih =>
    unfold readWords
    have h0 := h 0 (by omega)
    rw [Nat.add_zero] at h0
    rw [h0, ih (a := a + 1)]
    intro i hi
    have := h (i + 1) (by omega)
    rwa [show a + (i + 1) = a + 1 + i by omega] at this

/-- What a run of writes leaves. -/
theorem writeWords_spec {f g : Feed} {a : Nat} {ws : List Word} (h : writeWords f a ws = some g) :
    Wrote f g a ws := by
  induction ws generalizing f a with
  | nil =>
    simp only [writeWords, Option.some.injEq] at h
    subst h
    refine ⟨rfl, fun c => ?_⟩
    rw [if_neg]; simp
  | cons w ws ih =>
    unfold writeWords at h
    split at h
    · rename_i f' hf'
      obtain ⟨hlen, hread⟩ := ih h
      refine ⟨hlen.trans (memWrite_length hf'), fun c => ?_⟩
      rw [hread c, List.length_cons]
      by_cases h1 : c = a
      · subst h1
        rw [if_neg (by omega), if_pos (by omega), memRead_memWrite_same hf']; simp
      · by_cases h2 : a + 1 ≤ c ∧ c < a + 1 + ws.length
        · rw [if_pos h2, if_pos (by omega), show c - a = (c - (a + 1)) + 1 by omega, List.getElem?_cons_succ]
        · rw [if_neg h2, if_neg (by omega), memRead_memWrite_of_ne hf' h1]
    · cases h

/-- A run can be written exactly when the feed holds it. -/
theorem writeWords_isSome (f : Feed) (a : Nat) (ws : List Word) (h : a + ws.length ≤ f.length) :
    ∃ g, writeWords f a ws = some g := by
  induction ws generalizing f a with
  | nil => exact ⟨f, rfl⟩
  | cons w ws ih =>
    rw [List.length_cons] at h
    have hf : memWrite f a w = some (f.set a w) := memWrite_eq_some.2 ⟨by omega, rfl⟩
    obtain ⟨g, hg⟩ := ih (f.set a w) (a + 1) (by simp; omega)
    exact ⟨g, by unfold writeWords; rw [hf]; exact hg⟩

theorem writeWords_none (f : Feed) (a : Nat) (ws : List Word) (h : f.length < a + ws.length) (hw : ws ≠ []) :
    writeWords f a ws = none := by
  induction ws generalizing f a with
  | nil => exact absurd rfl hw
  | cons w ws ih =>
    rw [List.length_cons] at h
    unfold writeWords
    by_cases ha : a < f.length
    · rw [memWrite_eq_some.2 ⟨ha, rfl⟩]
      exact ih (f.set a w) (a + 1) (by simp; omega) (by rintro rfl; simp at h; omega)
    · have : memWrite f a w = none := by unfold memWrite; rw [if_neg ha]
      rw [this]

/-- Reading back a run that was written gives the words written. -/
theorem readWords_writeWords {f g : Feed} {a : Nat} {ws : List Word} (h : writeWords f a ws = some g) :
    readWords g a ws.length = some ws := by
  obtain ⟨hlen, hread⟩ := writeWords_spec h
  induction ws generalizing f a with
  | nil => rfl
  | cons w ws ih =>
    have h' := h
    unfold writeWords at h'
    split at h'
    · rename_i f' hf'
      have hs := writeWords_spec h'
      rw [List.length_cons]
      unfold readWords
      have h0 := hread a
      rw [if_pos (by simp)] at h0
      simp only [Nat.sub_self, List.getElem?_cons_zero] at h0
      rw [h0, ih h' hs.1 hs.2]
    · cases h'

/-! ### The words of a Block -/

theorem block_legal_iff {cfg : Config} {b : Block} :
    b.legal cfg = true ↔ b.exp ≤ cfg.emax ∧ b.elems.length = cfg.n ∧ ∀ x ∈ b.elems, x.mant ≤ cfg.mmax := by
  unfold Block.legal
  rw [Bool.and_eq_true, Bool.and_eq_true, decide_eq_true_iff, decide_eq_true_iff, List.all_eq_true, and_assoc]
  simp only [Elem.legal, decide_eq_true_iff]

theorem blockWords_length (b : Block) : (blockWords b).length = 2 * b.elems.length + 1 := by
  simp [blockWords]; omega

theorem storeBlock_ok {cfg : Config} {f : Feed} {b : Nat} {blk : Block} (hl : blk.elems.length = cfg.n)
    (h : b * cfg.blkw + cfg.blkw ≤ f.length) :
    ∃ g, storeBlock cfg f b blk = .ok g ∧ Wrote f g (b * cfg.blkw) (blockWords blk) := by
  have hlen : (blockWords blk).length = cfg.blkw := by rw [blockWords_length, hl]; rfl
  obtain ⟨g, hg⟩ := writeWords_isSome f (b * cfg.blkw) (blockWords blk) (by omega)
  exact ⟨g, by simp [storeBlock, storeWords, hg], writeWords_spec hg⟩

theorem storeFloats_ok {cfg : Config} {f : Feed} {b : Nat} {ws : List Word} (hl : ws.length = cfg.n)
    (h : b * cfg.n + cfg.n ≤ f.length) :
    ∃ g, storeFloats cfg f b ws = .ok g ∧ Wrote f g (b * cfg.n) ws := by
  obtain ⟨g, hg⟩ := writeWords_isSome f (b * cfg.n) ws (by omega)
  exact ⟨g, by simp [storeFloats, storeWords, hg], writeWords_spec hg⟩

/-- A feed that holds block `b` yields its `N` float words. -/
theorem loadFloats_ok {cfg : Config} {f : Feed} {b : Nat} (h : b * cfg.n + cfg.n ≤ f.length) :
    loadFloats cfg f b = .ok ((f.drop (b * cfg.n)).take cfg.n) := by
  simp [loadFloats, readWords_of_le h]

theorem loadFloats_length {cfg : Config} {f : Feed} {b : Nat} {ws : List Word} (h : loadFloats cfg f b = .ok ws) :
    ws.length = cfg.n := by
  unfold loadFloats at h
  split at h
  · rename_i ws' hws
    cases h
    exact readWords_length hws
  · cases h

/-- A Block that was loaded is legal (20_memory.md R43). -/
theorem loadBlock_legal {cfg : Config} {f : Feed} {b : Nat} {blk : Block} (h : loadBlock cfg f b = .ok blk) :
    blk.legal cfg = true := by
  unfold loadBlock at h
  split at h
  · rename_i e ss ms _ hss hms
    split at h
    · rename_i hl
      cases h
      simp only [blockWordsLegal, Bool.and_eq_true, decide_eq_true_eq, List.all_eq_true] at hl
      obtain ⟨⟨he, -⟩, hm⟩ := hl
      have hlen : (List.zipWith (fun s m : Word => (⟨s.toNat == 1, m.toNat⟩ : Elem)) ss ms).length = cfg.n := by
        rw [List.length_zipWith, readWords_length hss, readWords_length hms, Nat.min_self]
      have hmem : ∀ x ∈ List.zipWith (fun s m : Word => (⟨s.toNat == 1, m.toNat⟩ : Elem)) ss ms, x.mant ≤ cfg.mmax := by
        intro x hx
        rw [← List.map_uncurry_zip_eq_zipWith] at hx
        obtain ⟨⟨p, q⟩, hpq, rfl⟩ := List.mem_map.1 hx
        exact hm q (List.of_mem_zip hpq).2
      exact block_legal_iff.2 ⟨he, hlen, hmem⟩
    · cases h
  · cases h

end Sys2Proof.Machine
end

