-- ==== Sys2Proof/Laws/Step.lean ====
section
/-!
SUPPORT. What a step can do: the choice of a block, the set `done`, and the one equation that says what every operation's
step does (10_state.md R31, 30_encoding.md R63).
-/

namespace Sys2Proof.Machine

open Sys2Proof

/-! ### `done` and the choice of a block -/

@[simp] theorem mem_insertIndex {b c : Nat} {l : List Nat} : c ∈ insertIndex b l ↔ c = b ∨ c ∈ l := by
  induction l with
  | nil => simp [insertIndex]
  | cons d ds ih =>
    unfold insertIndex
    split
    · simp
    · split
      · rename_i h; subst h; simp
      · simp only [List.mem_cons, ih]; tauto

theorem insertIndex_pairwise {b : Nat} {l : List Nat} (h : l.Pairwise (· < ·)) :
    (insertIndex b l).Pairwise (· < ·) := by
  induction l with
  | nil => simp [insertIndex]
  | cons d ds ih =>
    rw [List.pairwise_cons] at h
    unfold insertIndex
    split
    · rename_i hbd
      refine List.pairwise_cons.2 ⟨fun c hc => ?_, List.pairwise_cons.2 h⟩
      rcases List.mem_cons.1 hc with rfl | hc
      · exact hbd
      · exact lt_trans hbd (h.1 c hc)
    · split
      · exact List.pairwise_cons.2 h
      · refine List.pairwise_cons.2 ⟨fun c hc => ?_, ih h.2⟩
        rcases mem_insertIndex.1 hc with rfl | hc
        · omega
        · exact h.1 c hc

@[simp] theorem mem_remaining {s : State} {b : Nat} : b ∈ remaining s ↔ b < nblkNat s ∧ b ∉ s.done := by
  simp [remaining]

theorem remaining_eq_nil {s : State} : remaining s = [] ↔ ∀ b < nblkNat s, b ∈ s.done := by
  rw [List.eq_nil_iff_forall_not_mem]
  constructor
  · intro h b hb; by_contra hn; exact h b (mem_remaining.2 ⟨hb, hn⟩)
  · intro h b hb; exact (mem_remaining.1 hb).2 (h b (mem_remaining.1 hb).1)

/-- The block a step takes is an unprocessed one (10_state.md R31). -/
theorem pickBlock_mem {s : State} {b : Nat} (h : pickBlock s = some b) : b < nblkNat s ∧ b ∉ s.done := by
  rw [← mem_remaining]
  unfold pickBlock at h
  split at h
  · cases h
  · rename_i c hc; cases h; simp [hc]
  · rename_i c d rest hr
    rw [hr]; exact List.mem_of_getElem? h

theorem pickBlock_eq_none {s : State} : pickBlock s = none ↔ remaining s = [] := by
  unfold pickBlock
  split
  · simp_all
  · simp_all
  · rename_i c d rest hr
    rw [hr]
    simp only [reduceCtorEq, iff_false]
    rw [List.getElem?_eq_none_iff]
    have := Nat.mod_lt (Config.freePick s.tick) (show 0 < rest.length + 2 by omega)
    simp only [List.length_cons]; omega

theorem nblkNat_settleStatus (s : State) : nblkNat (settleStatus s) = nblkNat s := by simp [nblkNat]

/-! ### One equation for every operation -/

/-- Result words stored for block `b`, and the block retired; or the refusal of the load or of the store. -/
def storeResult (s : State) (base b : Nat) (r : Except Refusal (List Word)) : Result :=
  match r with
  | .error e => .refused e
  | .ok ws =>
    match storeWords s.out base ws with
    | .error e => .refused e
    | .ok f => .next (retireBlock b { s with out := f })

/-- A block step whose three phases store the result words. -/
theorem blockStep_eq {load : Nat → State → Result} {compute : State → Result} {store : Nat → State → Result}
    {s : State} {r : Nat → Except Refusal (List Word)} {width : Nat}
    (h : ∀ b, (andThen (load b (clearSlots s)) fun s1 => andThen (compute s1) fun s2 =>
      andThen (store b s2) fun s3 => .next (retireBlock b s3)) = storeResult s (b * width) b (r b)) :
    blockStep load compute store s =
      if s.cfg.legal then
        match pickBlock s with
        | none => .next (settleStatus s)
        | some b => storeResult s (b * width) b (r b)
      else .refused .badConfiguration := by
  cases hp : pickBlock s <;> simp only [blockStep, hp, h]

/-- The phases of a two-operand operation. -/
theorem phases_two (g : Block → Block → Block) (s : State) (b : Nat) :
    (andThen (loadBABB b (clearSlots s)) fun s1 => andThen (computeBRofBABB g s1) fun s2 =>
      andThen (storeBR b s2) fun s3 => .next (retireBlock b s3)) =
    storeResult s (b * s.cfg.blkw) b ((loadBlock s.cfg s.inA b).bind fun x =>
      (loadBlock s.cfg s.inB b).map fun y => blockWords (g x y)) := by
  simp only [andThen, loadBABB, loadBA, loadBB, clearSlots_cfg, clearSlots_inA, clearSlots_inB]
  cases hA : loadBlock s.cfg s.inA b with
  | error r => simp [Except.bind, storeResult]
  | ok x =>
    cases hB : loadBlock s.cfg s.inB b with
    | error r => simp [Except.bind, Except.map, hB, storeResult]
    | ok y =>
      simp only [Except.bind, Except.map, hB, computeBRofBABB, storeBR, storeBlock, clearSlots, storeResult]
      cases storeWords s.out (b * s.cfg.blkw) (blockWords (g x y)) <;> rfl

/-- What every operation's step does, in terms of the words of the result (30_encoding.md R63). -/
theorem exec_eq (i : Instr) (s : State) :
    exec i s =
      if s.cfg.legal then
        match pickBlock s with
        | none => .next (settleStatus s)
        | some b =>
          storeResult s (b * outWords s.cfg i) b (resultWords i s.cfg (laneDraw s) s.inA s.inB b)
      else .refused .badConfiguration := by
  cases i with
  | encode =>
    refine blockStep_eq fun b => ?_
    simp only [andThen, loadFA, clearSlots_cfg, clearSlots_inA, resultWords, outWords, useOut, useWords]
    cases hA : loadFloats s.cfg s.inA b with
    | error r => simp [Except.map, storeResult]
    | ok ws =>
      simp only [Except.map, computeBRofFA, storeBR, storeBlock, clearSlots, storeResult]
      cases storeWords s.out (b * s.cfg.blkw) (blockWords (encodeBlock s.cfg (laneDraw s) ws)) <;> rfl
  | decode =>
    refine blockStep_eq fun b => ?_
    simp only [andThen, loadBA, clearSlots_cfg, clearSlots_inA, resultWords, outWords, useOut, useWords]
    cases hA : loadBlock s.cfg s.inA b with
    | error r => simp [Except.map, storeResult]
    | ok x =>
      simp only [Except.map, computeFRofBA, storeFR, storeFloats, clearSlots, storeResult]
      cases storeWords s.out (b * s.cfg.n) (decodeBlock s.cfg x) <;> rfl
  | add => exact blockStep_eq fun b => phases_two _ s b
  | sub => exact blockStep_eq fun b => phases_two _ s b
  | mul => exact blockStep_eq fun b => phases_two _ s b
  | div => exact blockStep_eq fun b => phases_two _ s b
  | reciprocal =>
    refine blockStep_eq fun b => ?_
    simp only [andThen, loadBB, clearSlots_cfg, clearSlots_inB, resultWords, outWords, useOut, useWords]
    cases hB : loadBlock s.cfg s.inB b with
    | error r => simp [Except.map, storeResult]
    | ok x =>
      simp only [Except.map, computeBRofBB, storeBR, storeBlock, clearSlots, storeResult]
      cases storeWords s.out (b * s.cfg.blkw) (blockWords (reciprocalBlock s.cfg (laneDraw s) x)) <;> rfl

/-- A result that could be computed and stored is stored, and the block retired. -/
theorem exec_of_resultWords {i : Instr} {s : State} {b : Nat} {ws : List Word} (hl : s.cfg.legal = true)
    (hp : pickBlock s = some b) (hr : resultWords i s.cfg (laneDraw s) s.inA s.inB b = .ok ws)
    (hs : b * outWords s.cfg i + ws.length ≤ s.out.length) :
    ∃ f, exec i s = .next (retireBlock b { s with out := f }) ∧ Wrote s.out f (b * outWords s.cfg i) ws := by
  obtain ⟨f, hf⟩ := writeWords_isSome s.out (b * outWords s.cfg i) ws hs
  refine ⟨f, ?_, writeWords_spec hf⟩
  rw [exec_eq, if_pos hl, hp]
  simp only [hr, storeResult, storeWords, hf]

/-- The inversion of `exec`: if it answers a next state, the invocation had no block left and is at its end, or one
unprocessed block was taken, its result words stored, and the block retired. -/
theorem exec_next {i : Instr} {s t : State} (h : exec i s = .next t) :
    s.cfg.legal = true ∧
      ((pickBlock s = none ∧ t = settleStatus s) ∨
        ∃ b ws f, pickBlock s = some b ∧ resultWords i s.cfg (laneDraw s) s.inA s.inB b = .ok ws ∧
          writeWords s.out (b * outWords s.cfg i) ws = some f ∧ t = retireBlock b { s with out := f }) := by
  rw [exec_eq] at h
  split at h
  · rename_i hl
    refine ⟨hl, ?_⟩
    split at h
    · rename_i hp
      cases h; exact Or.inl ⟨hp, rfl⟩
    · rename_i b hp
      unfold storeResult at h
      split at h
      · cases h
      · rename_i ws hws
        split at h
        · cases h
        · rename_i f hf
          cases h
          refine Or.inr ⟨b, ws, f, hp, hws, ?_, rfl⟩
          unfold storeWords at hf
          split at hf
          · rename_i f' hf'; cases hf; exact hf'
          · cases hf
  · cases h

/-- A retired block, field by field. -/
theorem retired_of_retireBlock (b : Nat) (s : State) (f : Feed) :
    Retired b s (retireBlock b { s with out := f }) := by
  refine ⟨by simp, by simp, by simp, by simp, by simp, by simp, by simp, by simp, ?_⟩
  unfold retireBlock
  rw [settleStatus_status]
  congr 1
  rw [remaining_eq_nil]
  simp [nblkNat]

end Sys2Proof.Machine
end

