-- ==== Sys2Proof/Laws/Codec.lean ====
section
/-!
SUPPORT. The codec: the ranges of a legal configuration, what `encode` stores, that it stores a legal Block, and the exact
value of a decoded element (00_scope.md R6, R7; 41_codec.md R101 to R117).
-/

namespace Sys2Proof.Machine

open Sys2Proof

/-! ### The ranges of a legal configuration -/

theorem legal_ranges {cfg : Config} (h : cfg.legal = true) :
    1 ≤ cfg.n ∧ 2 ≤ cfg.we ∧ cfg.we ≤ 7 ∧ 1 ≤ cfg.wm ∧ cfg.wm ≤ 23 := by
  simp only [Config.legal, Config.inRange, Bool.and_eq_true, decide_eq_true_iff] at h
  tauto

theorem legal_injective {cfg : Config} (h : cfg.legal = true) : cfg.opcode.injective = true := by
  simp only [Config.legal, Bool.and_eq_true] at h; exact h.2

theorem emax_eq {cfg : Config} (h : cfg.legal = true) : cfg.emax = 2 * cfg.bias + 1 := by
  obtain ⟨-, h2, -⟩ := legal_ranges h
  unfold Config.emax Config.bias
  obtain ⟨k, hk⟩ : ∃ k, cfg.we = k + 1 := ⟨cfg.we - 1, by omega⟩
  rw [hk, Nat.add_sub_cancel, pow_succ]
  have := Nat.one_le_two_pow (n := k)
  omega

theorem bias_range {cfg : Config} (h : cfg.legal = true) : 1 ≤ cfg.bias ∧ cfg.bias ≤ 63 := by
  obtain ⟨-, h2, h7, -⟩ := legal_ranges h
  unfold Config.bias
  have h1 : 2 ^ 1 ≤ 2 ^ (cfg.we - 1) := Nat.pow_le_pow_right (by norm_num) (by omega)
  have h3 : 2 ^ (cfg.we - 1) ≤ 2 ^ 6 := Nat.pow_le_pow_right (by norm_num) (by omega)
  omega

theorem bias_le_of_we_le_six {cfg : Config} (h6 : cfg.we ≤ 6) : cfg.bias ≤ 31 := by
  unfold Config.bias
  have h3 : 2 ^ (cfg.we - 1) ≤ 2 ^ 5 := Nat.pow_le_pow_right (by norm_num) (by omega)
  omega

theorem mmax_succ (cfg : Config) : cfg.mmax + 1 = 2 ^ (cfg.wm + 1) := by
  unfold Config.mmax
  have := Nat.one_le_two_pow (n := cfg.wm + 1)
  omega

theorem mmax_lt {cfg : Config} (h : cfg.legal = true) : cfg.mmax < 2 ^ 24 := by
  have h1 := mmax_succ cfg
  have h2 : 2 ^ (cfg.wm + 1) ≤ 2 ^ 24 := Nat.pow_le_pow_right (by norm_num) (by have := legal_ranges h; omega)
  omega

theorem log2_le_wm {cfg : Config} {m : Nat} (h0 : m ≠ 0) (hm : m ≤ cfg.mmax) : Nat.log2 m ≤ cfg.wm := by
  have := mmax_succ cfg
  have : Nat.log2 m < cfg.wm + 1 := (Nat.log2_lt h0).2 (by omega)
  omega

/-! ### What `decompose` and `encode` give -/

theorem decompose_mant_lt (d : BitVec 24) (w : Word) : (decompose d w).mant < 2 ^ 24 := by
  have h1 := fracField_lt w
  have h2 := d.isLt
  unfold decompose
  split
  · exact h2
  · split
    · split <;> simp; omega
    · simp; omega

theorem decomposeInput_mant_lt (cfg : Config) (d : BitVec 24) (w : Word) : (decomposeInput cfg d w).mant < 2 ^ 24 := by
  unfold decomposeInput
  split
  · simp
  · exact decompose_mant_lt d w

/-- The mantissa a nonzero element is stored with: the rounded quotient, saturated (41_codec.md R104). -/
theorem encodeElem_mant {cfg : Config} (hl : cfg.legal = true) {mx e : Int} {d : Decomposed} (hd : d.exp = some e)
    (hm : d.mant < 2 ^ 24) (he : e ≤ mx) :
    (encodeElem cfg mx d).mant = min (rneDiv d.mant (2 ^ (23 - cfg.wm + (mx - e).toNat))) cfg.mmax := by
  obtain ⟨-, -, -, -, hw⟩ := legal_ranges hl
  unfold encodeElem
  simp only [hd, saturate_eq_min]
  congr 1
  rw [← roundShiftRight_mant _ hm]
  congr 1
  unfold Config.baseShift
  omega

theorem encodeElem_mant_le (cfg : Config) (mx : Int) (d : Decomposed) : (encodeElem cfg mx d).mant ≤ cfg.mmax := by
  unfold encodeElem
  split
  · simp [Elem.zero]
  · rw [saturate_eq_min]; exact Nat.min_le_right _ _

theorem sharedExp_le (cfg : Config) (mx : Int) : sharedExp cfg mx ≤ cfg.emax := by
  unfold sharedExp; rw [clamp_eq _ _ _ (by omega)]; omega

theorem encodeDecomposed_legal {cfg : Config} {ds : List Decomposed} (h : ds.length = cfg.n) :
    (encodeDecomposed cfg ds).legal cfg = true := by
  unfold encodeDecomposed
  split
  · refine block_legal_iff.2 ⟨by simp [Block.zero], by simp [Block.zero], ?_⟩
    intro x hx
    simp only [Block.zero] at hx
    rw [List.eq_of_mem_replicate hx]; simp [Elem.zero]
  · refine block_legal_iff.2 ⟨sharedExp_le _ _, by simpa using h, ?_⟩
    intro x hx
    obtain ⟨d, -, rfl⟩ := List.mem_map.1 hx
    exact encodeElem_mant_le _ _ _

/-- Every vector of `N` words is encoded as a legal Block, non-finite words included (41_codec.md R110, R112). -/
theorem encodeBlock_isLegal {cfg : Config} (draw : Nat → BitVec 24) {ws : List Word} (h : ws.length = cfg.n) :
    (encodeBlock cfg draw ws).legal cfg = true := encodeDecomposed_legal (by simpa using h)

theorem legal_elems_length {cfg : Config} {b : Block} (h : b.legal cfg = true) : b.elems.length = cfg.n :=
  (block_legal_iff.1 h).2.1

theorem maxExp_eq_some {ds : List Decomposed} {mx : Int} :
    maxExp ds = some mx ↔ (∃ d ∈ ds, d.exp = some mx) ∧ ∀ d ∈ ds, ∀ e, d.exp = some e → e ≤ mx := by
  unfold maxExp
  rw [List.max?_eq_some_iff]
  simp only [List.mem_filterMap]
  constructor
  · rintro ⟨h1, h2⟩; exact ⟨h1, fun d hd e he => h2 e ⟨d, hd, he⟩⟩
  · rintro ⟨h1, h2⟩; exact ⟨h1, fun e ⟨d, hd, he⟩ => h2 d hd e he⟩

theorem maxExp_eq_none {ds : List Decomposed} : maxExp ds = none ↔ ∀ d ∈ ds, d.exp = none := by
  unfold maxExp
  rw [List.max?_eq_none_iff, List.filterMap_eq_nil_iff]

/-! ### `decode` -/

/-- The exponent of a decoded nonzero element stays inside the normal range (41_codec.md R116). -/
theorem decode_exponent_range {cfg : Config} (hl : cfg.legal = true) {e m : Nat} (he : e ≤ cfg.emax) (h0 : m ≠ 0)
    (hm : m ≤ cfg.mmax) :
    -(cfg.bias : Int) - cfg.wm ≤ ((e : Int) - cfg.bias - cfg.wm) + Nat.log2 m ∧
      ((e : Int) - cfg.bias - cfg.wm) + Nat.log2 m ≤ (cfg.emax : Int) - cfg.bias ∧
      -126 ≤ ((e : Int) - cfg.bias - cfg.wm) + Nat.log2 m ∧ ((e : Int) - cfg.bias - cfg.wm) + Nat.log2 m ≤ 127 := by
  have h1 := bias_range hl
  have h2 := emax_eq hl
  have h3 := log2_le_wm h0 hm
  have h4 := legal_ranges hl
  omega

theorem decodeElem_zero {cfg : Config} {e : Nat} {el : Elem} (h : el.mant = 0) :
    (decodeElem cfg e el).isZero = true ∧ (decodeElem cfg e el).sign = el.sign := by
  unfold decodeElem
  rw [if_pos h]
  refine ⟨?_, packFloat_sign _ _ _⟩
  simp [Word.isZero, packFloat_expField, packFloat_fracField]

theorem decodeElem_normal {cfg : Config} (hl : cfg.legal = true) {e : Nat} {el : Elem} (he : e ≤ cfg.emax)
    (h0 : el.mant ≠ 0) (hm : el.mant ≤ cfg.mmax) :
    (decodeElem cfg e el).normal = true ∧ (decodeElem cfg e el).sign = el.sign ∧
      ((decodeElem cfg e el).expField : Int) = (e : Int) - cfg.bias - cfg.wm + Nat.log2 el.mant + 127 ∧
      2 ^ 23 + (decodeElem cfg e el).fracField = el.mant * 2 ^ (23 - Nat.log2 el.mant) := by
  obtain ⟨-, -, h3, h4⟩ := decode_exponent_range hl he h0 hm
  have := mmax_lt hl
  obtain ⟨f1, f2, f3, f4⟩ := f32exact_fields (s := el.sign) h0 (by omega) h3 h4
  unfold decodeElem
  rw [if_neg h0]
  exact ⟨f4, f1, f2, f3⟩

/-- The exact value of a decoded element is the value the element denotes (10_state.md R25, 41_codec.md R114 to R116). -/
theorem f32val_decodeElem {cfg : Config} (hl : cfg.legal = true) {e : Nat} {el : Elem} (he : e ≤ cfg.emax)
    (hm : el.mant ≤ cfg.mmax) : f32val (decodeElem cfg e el) = elemValue cfg e el := by
  by_cases h0 : el.mant = 0
  · rw [f32val_zero (decodeElem_zero h0).1, elemValue, h0]
    simp [signed_zero]
  · obtain ⟨-, -, h3, h4⟩ := decode_exponent_range hl he h0 hm
    have := mmax_lt hl
    unfold decodeElem
    rw [if_neg h0, f32val_f32exact_of_mem h0 (by omega) h3 h4]
    rfl

theorem abs_elemValue (cfg : Config) (e : Nat) (el : Elem) :
    |elemValue cfg e el| = (el.mant : ℚ) * pow2 ((e : Int) - cfg.bias - cfg.wm) := by
  unfold elemValue
  rw [abs_signed, abs_of_nonneg]
  exact mul_nonneg (by positivity) (pow2_pos _).le

theorem decodeElem_zeroOrNormal {cfg : Config} (hl : cfg.legal = true) {e : Nat} {el : Elem} (he : e ≤ cfg.emax)
    (hm : el.mant ≤ cfg.mmax) : Word.zeroOrNormal (decodeElem cfg e el) := by
  by_cases h0 : el.mant = 0
  · exact Or.inl (decodeElem_zero h0).1
  · exact Or.inr (decodeElem_normal hl he h0 hm).1

theorem finite_of_zeroOrNormal {w : Word} (h : Word.zeroOrNormal w) : w.finite = true := by
  rcases h with h | h
  · simp only [Word.isZero, Bool.and_eq_true, beq_iff_eq] at h
    simp [Word.finite, h.1]
  · exact finite_of_normal h

/-! ### Lanes -/

theorem decodeBlock_length {cfg : Config} {b : Block} (h : b.legal cfg = true) : (decodeBlock cfg b).length = cfg.n := by
  simpa [decodeBlock] using legal_elems_length h

theorem referenceOp_legal {cfg : Config} {draw : Nat → BitVec 24} {fop : Word → Word → Word} {a b : Block}
    (ha : a.legal cfg = true) (hb : b.legal cfg = true) : (referenceOp cfg draw fop a b).legal cfg = true := by
  refine encodeBlock_isLegal draw ?_
  rw [List.length_zipWith, decodeBlock_length ha, decodeBlock_length hb, Nat.min_self]

theorem reciprocalBlock_isLegal {cfg : Config} {draw : Nat → BitVec 24} {b : Block} (hb : b.legal cfg = true) :
    (reciprocalBlock cfg draw b).legal cfg = true := by
  refine encodeBlock_isLegal draw ?_
  rw [List.length_map, decodeBlock_length hb]

/-- The result words of one block fill exactly the run of `OUT` that the block has (20_memory.md R44, R47). -/
theorem resultWords_length {i : Instr} {cfg : Config} {draw : Nat → BitVec 24} {inA inB : Feed} {b : Nat}
    {ws : List Word} (h : resultWords i cfg draw inA inB b = .ok ws) : ws.length = outWords cfg i := by
  have blk : ∀ x : Block, x.legal cfg = true → (blockWords x).length = cfg.blkw := by
    intro x hx; rw [blockWords_length, legal_elems_length hx]; rfl
  have two : ∀ g : Block → Block → Block, (∀ x y, x.legal cfg = true → y.legal cfg = true → (g x y).legal cfg = true) →
      ((loadBlock cfg inA b).bind fun x => (loadBlock cfg inB b).map fun y => blockWords (g x y)) = .ok ws →
      ws.length = cfg.blkw := by
    intro g hg h
    cases hA : loadBlock cfg inA b with
    | error r => rw [hA] at h; cases h
    | ok x =>
      cases hB : loadBlock cfg inB b with
      | error r => rw [hA, hB] at h; cases h
      | ok y =>
        rw [hA, hB] at h
        cases h
        exact blk _ (hg x y (loadBlock_legal hA) (loadBlock_legal hB))
  cases i with
  | encode =>
    simp only [resultWords] at h
    cases hA : loadFloats cfg inA b with
    | error r => rw [hA] at h; cases h
    | ok x =>
      rw [hA] at h; cases h
      exact blk _ (encodeBlock_isLegal draw (loadFloats_length hA))
  | decode =>
    simp only [resultWords] at h
    cases hA : loadBlock cfg inA b with
    | error r => rw [hA] at h; cases h
    | ok x => rw [hA] at h; cases h; exact decodeBlock_length (loadBlock_legal hA)
  | add => exact two _ (fun x y hx hy => referenceOp_legal hx hy) h
  | sub => exact two _ (fun x y hx hy => referenceOp_legal hx hy) h
  | mul => exact two _ (fun x y hx hy => referenceOp_legal hx hy) h
  | div => exact two _ (fun x y hx hy => referenceOp_legal hx hy) h
  | reciprocal =>
    simp only [resultWords] at h
    cases hB : loadBlock cfg inB b with
    | error r => rw [hB] at h; cases h
    | ok x => rw [hB] at h; cases h; exact blk _ (reciprocalBlock_isLegal (loadBlock_legal hB))

end Sys2Proof.Machine
end

