-- ==== Sys2Proof/Laws/Dyadic.lean ====
section
/-!
SUPPORT. Dyadic rationals: a value `m * 2^k` whose mantissa fits 24 bits is rounded to the word that denotes it
(40_bit_utilities.md R87, R90, R93).
-/

namespace Sys2Proof.Machine

open Sys2Proof

theorem pow2_one : pow2 1 = 2 := by simp [pow2_eq_zpow]

theorem pow2_nat (k : Nat) : pow2 k = (2 : ℚ) ^ k := by rw [pow2_natCast]; norm_cast

/-- `RNE` gives the integer nearest to a non-negative rational, the even one at a tie (40_bit_utilities.md R87). -/
theorem nearestEven_rne {x : ℚ} (hx : 0 ≤ x) : nearestEven x (rne x) := by
  obtain ⟨h1, h2, h3⟩ := (rne_eq_iff hx).1 rfl
  refine ⟨abs_le.2 ⟨by linarith, by linarith⟩, fun h => h3 ?_⟩
  rcases (abs_eq (by norm_num)).1 h with h | h
  · right; linarith
  · left; linarith

/-- The leading bit of a mantissa bounds its value from below. -/
theorem pow2_log2_le {m : Nat} (h0 : m ≠ 0) (k : Int) : pow2 (k + Nat.log2 m) ≤ (m : ℚ) * pow2 k := by
  rw [pow2_add, mul_comm]
  apply mul_le_mul_of_nonneg_right _ (pow2_pos _).le
  rw [pow2_natCast]; exact_mod_cast Nat.log2_self_le h0

/-- The leading bit of a mantissa bounds its value from above. -/
theorem lt_pow2_log2 (m : Nat) (k : Int) : (m : ℚ) * pow2 k < pow2 (k + Nat.log2 m + 1) := by
  rw [add_assoc, pow2_add, mul_comm]
  apply mul_lt_mul_of_pos_left _ (pow2_pos _)
  rw [show (Nat.log2 m : Int) + 1 = ((Nat.log2 m + 1 : Nat) : Int) by push_cast; rfl, pow2_natCast]
  exact_mod_cast Nat.lt_log2_self

theorem floorLog2_mul_pow2 {m : Nat} {k : Int} (hm : m ≠ 0) : floorLog2 ((m : ℚ) * pow2 k) = k + Nat.log2 m :=
  floorLog2_unique (pow2_log2_le hm k) (lt_pow2_log2 m k)

/-- An exactly representable dyadic value in the normal range is rounded to the word that denotes it. -/
theorem rnd32_dyadic (s : Bool) {m : Nat} {k : Int} (hm : m ≠ 0) (h24 : m < 2 ^ 24) (hlo : -126 ≤ k + Nat.log2 m)
    (hhi : k + Nat.log2 m ≤ 127) : rnd32 (signed s ((m : ℚ) * pow2 k)) = f32exact s m k := by
  have hpos : (0 : ℚ) < (m : ℚ) * pow2 k := mul_pos (by exact_mod_cast Nat.pos_of_ne_zero hm) (pow2_pos _)
  have hs : decide (signed s ((m : ℚ) * pow2 k) < 0) = s := by
    cases s <;> simp [signed] <;> linarith
  have habs : |signed s ((m : ℚ) * pow2 k)| = (m : ℚ) * pow2 k := by rw [abs_signed, abs_of_pos hpos]
  have hl : Nat.log2 m < 24 := (Nat.log2_lt hm).2 h24
  obtain ⟨j, hj⟩ : ∃ j, 23 = Nat.log2 m + j := ⟨23 - Nat.log2 m, by omega⟩
  have hdiv : (m : ℚ) * pow2 k / pow2 (k + Nat.log2 m - 23) = ((m * 2 ^ j : Nat) : ℚ) := by
    rw [div_eq_iff (pow2_pos _).ne']
    push_cast
    rw [← pow2_nat j, mul_assoc, ← pow2_add]
    congr 2; omega
  rw [rnd32_normal (by rw [habs]; exact pow2_log2_le hm k) (by rw [habs]; exact lt_pow2_log2 m k) hlo, hs, habs, hdiv,
    rne_natCast]
  have m1 : 2 ^ 23 ≤ m * 2 ^ j := by
    have : 2 ^ 23 = 2 ^ Nat.log2 m * 2 ^ j := by rw [← pow_add, ← hj]
    rw [this]; exact Nat.mul_le_mul_right _ (Nat.log2_self_le hm)
  have m2 : m * 2 ^ j < 2 ^ 24 := by
    have : 2 ^ 24 = 2 ^ (Nat.log2 m + 1) * 2 ^ j := by rw [← pow_add]; congr 1; omega
    rw [this]; exact Nat.mul_lt_mul_of_pos_right Nat.lt_log2_self (by positivity)
  unfold rnd32Pack f32exact
  simp only [if_neg (show m * 2 ^ j ≠ 2 ^ 24 by omega)]
  rw [if_neg (by omega), if_neg (by omega), show 23 - Nat.log2 m = j by omega, Nat.shiftLeft_eq]

/-- A normal word is the `f32exact` of its own fields. -/
theorem f32exact_of_normal {w : Word} (hn : w.normal = true) :
    f32exact w.sign (2 ^ 23 + w.fracField) ((w.expField : Int) - 150) = w := by
  have hf := fracField_lt w
  have hb := expField_lt w
  have hlog : Nat.log2 (2 ^ 23 + w.fracField) = 23 := by rw [Nat.log2_eq_iff (by omega)]; omega
  have hn' := hn
  simp only [Word.normal, Bool.and_eq_true, bne_iff_ne, ne_eq] at hn'
  obtain ⟨a, b, c, -⟩ := f32exact_fields (s := w.sign) (m := 2 ^ 23 + w.fracField) (k := (w.expField : Int) - 150)
    (by omega) (by omega) (by omega) (by omega)
  refine word_ext a (by omega) ?_
  rw [hlog] at c; simpa using c

end Sys2Proof.Machine
end

