-- ==== Sys2Proof/Laws/Encode.lean ====
section
/-!
SUPPORT. `encode` of finite words in one form: no draw, the elements as rounded and saturated quotients of the words'
exact magnitudes (41_codec.md R101 to R112).
-/

namespace Sys2Proof.Machine

open Sys2Proof

/-- Only a non-finite word looks at its draw (40_bit_utilities.md R83). -/
theorem decomposeInput_of_finite (cfg : Config) (d : BitVec 24) {w : Word} (h : w.finite = true) :
    decomposeInput cfg d w = decomposeInput cfg 0 w := by
  simp only [Word.finite, bne_iff_ne, ne_eq] at h
  unfold decomposeInput decompose
  simp only [h, if_false]

theorem encodeBlock_of_finite (cfg : Config) (draw : Nat → BitVec 24) {ws : List Word}
    (h : ∀ w ∈ ws, w.finite = true) :
    encodeBlock cfg draw ws = encodeDecomposed cfg (ws.map (decomposeInput cfg 0)) := by
  unfold encodeBlock
  congr 1
  apply List.ext_getElem (by simp)
  intro i h1 h2
  simp only [List.getElem_mapIdx, List.getElem_map]
  exact decomposeInput_of_finite cfg _ (h _ (List.getElem_mem _))

/-- `encode` where the maximum exponent is known (41_codec.md R112). -/
theorem encodeBlock_of_isMaxExp {cfg : Config} {draw : Nat → BitVec 24} {ws : List Word} {mx : Int}
    (h : ∀ w ∈ ws, w.finite = true) (hmx : isMaxExp cfg ws mx) :
    encodeBlock cfg draw ws = ⟨sharedExp cfg mx, ws.map fun w => encodeElem cfg mx (decomposeInput cfg 0 w)⟩ := by
  rw [encodeBlock_of_finite cfg draw h]
  have hm : maxExp (ws.map (decomposeInput cfg 0)) = some mx := by
    rw [maxExp_eq_some]
    obtain ⟨⟨w, hw, he⟩, h2⟩ := hmx
    refine ⟨⟨_, List.mem_map_of_mem hw, he⟩, ?_⟩
    intro d hd e hde
    obtain ⟨v, hv, rfl⟩ := List.mem_map.1 hd
    exact h2 v hv e hde
  rw [encodeDecomposed, hm]
  simp only [List.map_map, Function.comp_def]

/-- `encode` of words that are all taken as zeros (41_codec.md R102). -/
theorem encodeBlock_of_no_exp {cfg : Config} {draw : Nat → BitVec 24} {ws : List Word}
    (hf : ∀ w ∈ ws, w.finite = true) (h : ∀ w ∈ ws, (decomposeInput cfg 0 w).exp = none) :
    encodeBlock cfg draw ws = Block.zero cfg.n := by
  rw [encodeBlock_of_finite cfg draw hf]
  have hm : maxExp (ws.map (decomposeInput cfg 0)) = none := by
    rw [maxExp_eq_none]
    intro d hd
    obtain ⟨v, hv, rfl⟩ := List.mem_map.1 hd
    exact h v hv
  rw [encodeDecomposed, hm]

theorem decomposeInput_isZero (cfg : Config) (d : BitVec 24) {w : Word} (h : w.isZero = true) :
    (decomposeInput cfg d w).exp = none := by
  simp only [Word.isZero, Bool.and_eq_true, beq_iff_eq] at h
  simp [decomposeInput, decompose, h.1, h.2]

theorem decomposeInput_normal (cfg : Config) (d : BitVec 24) {w : Word} (h : w.normal = true) :
    decomposeInput cfg d w = ⟨w.sign, some ((w.expField : Int) - 127), 2 ^ 23 + w.fracField⟩ := by
  simp only [Word.normal, Bool.and_eq_true, bne_iff_ne, ne_eq] at h
  simp [decomposeInput, decompose, h.1, h.2]

/-- The exact value of a word that counts as nonzero (40_bit_utilities.md R80, R82, R92). -/
theorem decomposeInput_value {cfg : Config} {w : Word} {e : Int} (hf : w.finite = true)
    (he : (decomposeInput cfg 0 w).exp = some e) :
    f32val w = signed w.sign (((decomposeInput cfg 0 w).mant : ℚ) * pow2 (e - 23)) ∧
      (decomposeInput cfg 0 w).sign = w.sign ∧ 0 < (decomposeInput cfg 0 w).mant ∧
      (decomposeInput cfg 0 w).mant < 2 ^ 24 ∧ -126 ≤ e ∧ e ≤ 127 := by
  rcases finite_cases hf with hz | ⟨h0, h1⟩ | hn
  · rw [decomposeInput_isZero cfg 0 hz] at he; cases he
  · have hfr := fracField_lt w
    by_cases hfl : cfg.flushSubnormalInput = true
    · simp [decomposeInput, hfl, h0] at he
    · have hd : decomposeInput cfg 0 w = ⟨w.sign, some (-126), w.fracField⟩ := by
        simp [decomposeInput, decompose, hfl, h0, h1]
      rw [hd] at he ⊢
      simp only [Option.some.injEq] at he
      subst he
      refine ⟨?_, rfl, Nat.pos_of_ne_zero h1, by dsimp only; omega, by omega, by omega⟩
      rw [f32val_subnormal h0 h1]; norm_num
  · have hn' := hn
    have hfr := fracField_lt w
    have hb := expField_lt w
    simp only [Word.normal, Bool.and_eq_true, bne_iff_ne, ne_eq] at hn'
    rw [decomposeInput_normal cfg 0 hn] at he ⊢
    simp only [Option.some.injEq] at he
    subst he
    refine ⟨?_, rfl, by dsimp only; omega, by dsimp only; omega, by omega, by omega⟩
    rw [f32val_normal hn]
    congr 3; omega

/-- The magnitude of a word that counts as nonzero. -/
theorem abs_f32val_of_exp {cfg : Config} {w : Word} {e : Int} (hf : w.finite = true)
    (he : (decomposeInput cfg 0 w).exp = some e) :
    |f32val w| = ((decomposeInput cfg 0 w).mant : ℚ) * pow2 (e - 23) := by
  rw [(decomposeInput_value hf he).1, abs_signed, abs_of_nonneg (mul_nonneg (by positivity) (pow2_pos _).le)]

/-- The stored element of a word that counts as nonzero: the magnitude over the block quantum, rounded to nearest with
ties to even, saturated (41_codec.md R104, R107, R108). -/
theorem encodeElem_eq_rne {cfg : Config} (hl : cfg.legal = true) {mx e : Int} {w : Word} (hf : w.finite = true)
    (he : (decomposeInput cfg 0 w).exp = some e) (hle : e ≤ mx) :
    encodeElem cfg mx (decomposeInput cfg 0 w) =
      ⟨storedSign cfg w.sign (min (rne (|f32val w| / pow2 (mx - cfg.wm))) cfg.mmax),
        min (rne (|f32val w| / pow2 (mx - cfg.wm))) cfg.mmax⟩ := by
  obtain ⟨-, hs, -, hm, -⟩ := decomposeInput_value hf he
  obtain ⟨-, -, -, -, hw⟩ := legal_ranges hl
  have hmant := encodeElem_mant hl he hm hle
  have hr : rne (|f32val w| / pow2 (mx - cfg.wm)) =
      rneDiv (decomposeInput cfg 0 w).mant (2 ^ (23 - cfg.wm + (mx - e).toNat)) := by
    rw [← rne_natCast_div _ _ (by positivity), abs_f32val_of_exp hf he]
    congr 1
    rw [← pow2_natCast, mul_div_assoc, ← pow2_sub, div_eq_mul_inv]
    congr 1
    rw [pow2_eq_zpow, pow2_eq_zpow, ← zpow_neg]
    congr 1
    omega
  rw [hr]
  unfold encodeElem at hmant ⊢
  rw [he] at hmant ⊢
  simp only at hmant ⊢
  rw [hmant, hs]

end Sys2Proof.Machine
end

