-- ==== Sys2Proof/Laws/Invocation.lean ====
section
/-!
SUPPORT. A launched invocation: every block of it can be loaded, computed and stored; what one step of the core does at its
start and while it runs; runs of several steps (10_state.md R29 to R31, 20_memory.md R44, 60_exceptions.md R181, R191).
-/

namespace Sys2Proof.Machine

open Sys2Proof

/-- A selector word that is the code of no operation selects none (30_encoding.md R62). -/
theorem selectedInstr_eq_none {s : State} (h : ∀ i, s.op ≠ encodeSelector s.cfg.opcode i) : selectedInstr s = none := by
  have h1 := h .encode
  have h2 := h .decode
  have h3 := h .add
  have h4 := h .sub
  have h5 := h .mul
  have h6 := h .div
  have h7 := h .reciprocal
  simp only [encodeSelector] at h1 h2 h3 h4 h5 h6 h7
  simp [selectedInstr, decodeSelector, h1, h2, h3, h4, h5, h6, h7, Except.toOption]

/-- A requested start is taken up when nothing runs. -/
theorem step_of_start {s : State} (h1 : s.startReq = true) (h2 : s.status ≠ .busy) : step s = startInvocation s := by
  unfold step coreStep; rw [h1]; cases h : s.status <;> simp_all

/-- A running invocation steps by the selected operation. -/
theorem step_of_busy {s : State} {i : Instr} (h1 : s.startReq = false) (h2 : s.status = .busy)
    (h3 : selectedInstr s = some i) : step s = exec i s := by
  unfold step coreStep; rw [h1, h2, h3]

/-- An unprocessed block can be chosen while one is left. -/
theorem pickBlock_of_left {s : State} (h : ∃ b, b < nblkNat s ∧ b ∉ s.done) : ∃ b, pickBlock s = some b := by
  cases hp : pickBlock s with
  | some b => exact ⟨b, rfl⟩
  | none =>
    rw [pickBlock_eq_none, remaining_eq_nil] at hp
    obtain ⟨b, h1, h2⟩ := h
    exact absurd (hp b h1) h2

/-- A feed that holds `nblk` blocks holds each of them. -/
theorem block_fits {nblk k len b : Nat} (h : nblk * k ≤ len) (hb : b < nblk) : b * k + k ≤ len := by
  have := Nat.mul_le_mul_right k (show b + 1 ≤ nblk from hb)
  rw [Nat.add_mul, Nat.one_mul] at this; omega

theorem loadBlock_of_readable {cfg : Config} {f : Feed} {b : Nat} (h : blockReadable cfg .blocks f b = true) :
    ∃ x, loadBlock cfg f b = .ok x := by
  unfold blockReadable at h
  cases hx : loadBlock cfg f b with
  | ok x => exact ⟨x, rfl⟩
  | error e => rw [hx] at h; simp [Except.isOk, Except.toBool] at h

/-- Under the launch premises every block's result can be computed and stored. -/
theorem launched_result {i : Instr} {s : State} (h : Launched i s) {b : Nat} (hb : b < nblkNat s)
    (draw : Nat → BitVec 24) :
    (∃ ws, resultWords i s.cfg draw s.inA s.inB b = .ok ws) ∧
      b * outWords s.cfg i + outWords s.cfg i ≤ s.out.length := by
  obtain ⟨-, -, l3, l4⟩ := h
  simp only [launchFits, feedFits, Bool.and_eq_true, decide_eq_true_eq] at l3
  simp only [launchReadable, feedReadable, Bool.and_eq_true, List.all_eq_true, List.mem_range] at l4
  obtain ⟨⟨fA, -⟩, fO⟩ := l3
  refine ⟨?_, block_fits fO hb⟩
  have rA := l4.1 b hb
  have rB := l4.2 b hb
  cases i with
  | encode =>
    have := block_fits fA hb
    simp only [useInA, useWords] at this
    exact ⟨_, by simp only [resultWords, loadFloats_ok this]; rfl⟩
  | decode =>
    obtain ⟨x, hx⟩ := loadBlock_of_readable rA
    exact ⟨_, by simp only [resultWords, hx]; rfl⟩
  | reciprocal =>
    obtain ⟨x, hx⟩ := loadBlock_of_readable rB
    exact ⟨_, by simp only [resultWords, hx]; rfl⟩
  | _ =>
    obtain ⟨x, hx⟩ := loadBlock_of_readable rA
    obtain ⟨y, hy⟩ := loadBlock_of_readable rB
    exact ⟨_, by simp only [resultWords, hx, hy]; rfl⟩

/-- The launch premises look only at the configuration, the selector, the count, the inputs and the length of `OUT`. -/
theorem launched_congr {i : Instr} {s t : State} (h : Launched i s) (h1 : t.cfg = s.cfg) (h2 : t.op = s.op)
    (h3 : t.nblk = s.nblk) (h4 : t.inA = s.inA) (h5 : t.inB = s.inB) (h6 : t.out.length = s.out.length) :
    Launched i t := by
  obtain ⟨a, b, c, d⟩ := h
  unfold Launched selectedInstr launchFits launchReadable feedFits nblkNat at *
  rw [h1, h2, h3, h4, h5, h6]; exact ⟨a, b, c, d⟩

theorem remaining_nodup (s : State) : (remaining s).Nodup := List.nodup_range.filter _

/-- A step that retires a block leaves one block fewer. -/
theorem remaining_length_of_retired {s t : State} {b : Nat} (hn : t.nblk = s.nblk) (hb : b ∈ remaining s)
    (hd : ∀ c, c ∈ t.done ↔ c = b ∨ c ∈ s.done) : (remaining s).length = (remaining t).length + 1 := by
  have e : remaining t = (remaining s).erase b := by
    rw [(remaining_nodup s).erase_eq_filter]
    unfold remaining nblkNat
    rw [hn, List.filter_filter]
    congr 1; funext c
    have := hd c
    by_cases h1 : c = b <;> by_cases h2 : c ∈ s.done <;> simp_all
  rw [e, List.length_erase_of_mem hb]
  have := List.length_pos_of_mem hb
  omega

theorem runSteps_zero (s : State) : runSteps 0 s = .next s := rfl

theorem runSteps_succ (k : Nat) (s : State) :
    runSteps (k + 1) s =
      match step s with
      | .next t => runSteps k t
      | .fault f => .fault f
      | .refused r => .refused r := by
  have h : runSteps (k + 1) s = _ := Host.Core.run.eq_2 Sys2Proof.core s k
  rw [h]
  cases hs : step s <;> (rw [show Sys2Proof.core.step s = _ from hs]; rfl)

end Sys2Proof.Machine
end

