-- ==== Sys2Proof/Laws/PerInstr.lean ====
section
/-!
SUPPORT. Statements made per operation, about the operation as syntax: its selector word is its own under every
well-formed numbering (30_encoding.md R60, R61).
-/

namespace Sys2Proof

/-- Under a well-formed numbering no other operation has this operation's word. -/
def Laws.SelectorWord.Statement (i : Instr) : Prop :=
  ∀ m : OpcodeMap, i.wellFormed m = true → ∀ j : Instr, encodeSelector m j = encodeSelector m i → j = i

/-- A well-formed numbering is injective, operation by operation. -/
theorem encodeSelector_inj {m : OpcodeMap} (h : m.injective = true) {i j : Instr}
    (e : encodeSelector m j = encodeSelector m i) : j = i := by
  simp only [OpcodeMap.injective, OpcodeMap.codes, decide_eq_true_eq, List.nodup_cons, List.mem_cons,
    List.not_mem_nil, not_or] at h
  cases i <;> cases j <;> first | rfl | (simp only [encodeSelector] at e; simp_all)

theorem Laws.SelectorWord.encode : Laws.SelectorWord.Statement .encode := fun _ h _ => encodeSelector_inj h
theorem Laws.SelectorWord.decode : Laws.SelectorWord.Statement .decode := fun _ h _ => encodeSelector_inj h
theorem Laws.SelectorWord.add : Laws.SelectorWord.Statement .add := fun _ h _ => encodeSelector_inj h
theorem Laws.SelectorWord.sub : Laws.SelectorWord.Statement .sub := fun _ h _ => encodeSelector_inj h
theorem Laws.SelectorWord.mul : Laws.SelectorWord.Statement .mul := fun _ h _ => encodeSelector_inj h
theorem Laws.SelectorWord.div : Laws.SelectorWord.Statement .div := fun _ h _ => encodeSelector_inj h
theorem Laws.SelectorWord.reciprocal : Laws.SelectorWord.Statement .reciprocal := fun _ h _ => encodeSelector_inj h

end Sys2Proof
end

