-- ==== Sys2Proof/Laws/Range.lean ====
section
/-!
SUPPORT. The range of decoded values and of the float results made from them (41_codec.md R116, 42_arith_addsub.md R135,
43_arith_muldivrecip.md R156).
-/

namespace Sys2Proof.Machine

open Sys2Proof

/-- A rounding in the normal range below `2^127` is a normal word (40_bit_utilities.md R90). -/
theorem rnd32_isNormal {q : ℚ} (h1 : pow2 (-126) ≤ |q|) (h2 : |q| < pow2 127) : (rnd32 q).normal = true := by
  obtain ⟨g1, g2⟩ := floorLog2_spec (lt_of_lt_of_le (pow2_pos _) h1)
  have a := pow2_lt_pow2.1 (lt_of_le_of_lt h1 g2)
  have b := pow2_lt_pow2.1 (lt_of_le_of_lt g1 h2)
  exact (rnd32_spec g1 g2 (by omega) (by omega)).1

/-- Every element's value is a multiple of the smallest quantum. -/
theorem elemValue_multiple (cfg : Config) (e : Nat) (x : Elem) :
    ∃ k : Int, elemValue cfg e x = k * pow2 (-(cfg.bias : Int) - cfg.wm) := by
  refine ⟨(if x.sign then -1 else 1) * (x.mant * 2 ^ e), ?_⟩
  unfold elemValue
  rw [show (e : Int) - cfg.bias - cfg.wm = e + (-(cfg.bias : Int) - cfg.wm) by ring, pow2_add, pow2_nat]
  cases x.sign <;> simp [signed] <;> ring

/-- The smallest and the largest magnitude of a nonzero element. -/
theorem elemValue_bounds {cfg : Config} (hl : cfg.legal = true) {e : Nat} {x : Elem} (he : e ≤ cfg.emax)
    (hm : x.mant ≤ cfg.mmax) :
    |elemValue cfg e x| ≤ cfg.mmax * pow2 ((cfg.emax : Int) - cfg.bias - cfg.wm) ∧
      (x.mant ≠ 0 → pow2 (-(cfg.bias : Int) - cfg.wm) ≤ |elemValue cfg e x|) := by
  rw [abs_elemValue]
  have c1 : (x.mant : ℚ) ≤ cfg.mmax := by exact_mod_cast hm
  refine ⟨mul_le_mul c1 (pow2_le_pow2.2 (by omega)) (pow2_pos _).le (by positivity), fun h0 => ?_⟩
  exact le_trans (pow2_le_pow2.2 (decode_exponent_range hl he h0 hm).1) (pow2_log2_le h0 _)

theorem largest_value_lt {cfg : Config} (hl : cfg.legal = true) :
    (cfg.mmax : ℚ) * pow2 ((cfg.emax : Int) - cfg.bias - cfg.wm) < pow2 ((cfg.bias : Int) + 2) := by
  have h1 : (cfg.mmax : ℚ) < pow2 ((cfg.wm + 1 : Nat) : Int) := by
    rw [pow2_natCast, ← mmax_succ cfg]; push_cast; linarith
  have h2 := mul_lt_mul_of_pos_right h1 (pow2_pos ((cfg.emax : Int) - cfg.bias - cfg.wm))
  rw [← pow2_add] at h2
  refine lt_of_lt_of_le h2 (pow2_le_pow2.2 ?_)
  have := emax_eq hl
  push_cast; omega

theorem decodeBlock_zeroOrNormal {cfg : Config} (hl : cfg.legal = true) {b : Block} (hb : b.legal cfg = true) :
    ∀ w ∈ decodeBlock cfg b, Word.zeroOrNormal w := by
  obtain ⟨he, -, hm⟩ := block_legal_iff.1 hb
  intro w hw
  obtain ⟨el, hel, rfl⟩ := List.mem_map.1 hw
  exact decodeElem_zeroOrNormal hl he (hm el hel)

/-- The exponent `encode` sees in a decoded element. -/
theorem decomposeInput_decodeElem_exp {cfg : Config} (hl : cfg.legal = true) {e : Nat} {el : Elem} (he : e ≤ cfg.emax)
    (hm : el.mant ≤ cfg.mmax) :
    (decomposeInput cfg 0 (decodeElem cfg e el)).exp =
      if el.mant = 0 then none else some ((e : Int) - cfg.bias - cfg.wm + Nat.log2 el.mant) := by
  split
  · rename_i h; exact decomposeInput_isZero _ _ (decodeElem_zero h).1
  · rename_i h
    obtain ⟨a, -, c, -⟩ := decodeElem_normal hl he h hm
    rw [decomposeInput_normal _ _ a, Option.some.injEq]; omega

/-- An element decoded and encoded again on a grid with leading-bit position `p` at or above its own: shifted left, exactly
(41_codec.md R118, R119). -/
theorem encodeElem_decodeElem {cfg : Config} (hl : cfg.legal = true) {e : Nat} {el : Elem} {p : Nat} (he : e ≤ cfg.emax)
    (hm : el.mant ≤ cfg.mmax) (hp : p ≤ cfg.wm) (hlog : el.mant < 2 ^ (p + 1)) :
    encodeElem cfg ((e : Int) - cfg.bias - cfg.wm + p) (decomposeInput cfg 0 (decodeElem cfg e el)) =
      if el.mant = 0 then Elem.zero else ⟨el.sign, el.mant <<< (cfg.wm - p)⟩ := by
  split
  · rename_i h
    rw [encodeElem, decomposeInput_decodeElem_exp hl he hm, if_pos h]
  · rename_i h
    have hfin := finite_of_zeroOrNormal (decodeElem_zeroOrNormal hl he hm)
    have hlp : Nat.log2 el.mant ≤ p := by have := (Nat.log2_lt h).2 hlog; omega
    rw [encodeElem_eq_rne hl hfin (by rw [decomposeInput_decodeElem_exp hl he hm, if_neg h]) (by omega),
      f32val_decodeElem hl he hm, abs_elemValue]
    have : (el.mant : ℚ) * pow2 ((e : Int) - cfg.bias - cfg.wm) / pow2 ((e : Int) - cfg.bias - cfg.wm + p - cfg.wm) =
        ((el.mant * 2 ^ (cfg.wm - p) : Nat) : ℚ) := by
      rw [mul_div_assoc, ← pow2_sub]
      push_cast
      rw [← pow2_nat]
      congr 2; omega
    rw [this, rne_natCast]
    have hle : el.mant * 2 ^ (cfg.wm - p) ≤ cfg.mmax := by
      have h1 := mmax_succ cfg
      have h2 : 2 ^ (cfg.wm + 1) = 2 ^ (p + 1) * 2 ^ (cfg.wm - p) := by rw [← pow_add]; congr 1; omega
      have h3 := Nat.mul_lt_mul_of_pos_right hlog (show 0 < 2 ^ (cfg.wm - p) by positivity)
      omega
    rw [min_eq_left hle, (decodeElem_normal hl he h hm).2.1, Nat.shiftLeft_eq]
    have hne : el.mant * 2 ^ (cfg.wm - p) ≠ 0 := Nat.mul_ne_zero h (by positivity)
    simp [storedSign, hne]

end Sys2Proof.Machine
end

