-- ==== Sys2Proof/Tests/Slice0.lean ====
section
/-!
SUPPORT. Tests. Part 1: expected results taken from spec/95_test_vectors.md, each naming its vector, on a block length
that keeps the vector's leading lanes (a lane of zeros changes no other lane). Part 2: for every statement that has
hypotheses, a concrete state or operands that meet them, at the boundaries where a clause has one.
-/

namespace Sys2Proof.Tests

open Sys2Proof Sys2Proof.Machine

/-! ### Small machines -/

/-- `N` lanes, the other parameters as in the normative instance. -/
def lanes (n : Nat) : Config := ⟨n, 5, 7, OpcodeMap.default, false, false⟩

/-- A machine with a running invocation. -/
def running (cfg : Config) (op nblk : Word) (inA inB out : Feed) : State :=
  { State.reset with cfg := cfg, op := op, nblk := nblk, inA := inA, inB := inB, out := out, status := .busy }

/-- A machine whose caller has started an invocation. -/
def started (cfg : Config) (op nblk : Word) (inA inB out : Feed) : State :=
  { State.reset with cfg := cfg, op := op, nblk := nblk, inA := inA, inB := inB, out := out, startReq := true }

def isNext : Result → Bool
  | .next _ => true
  | _ => false

def outOf : Result → Option Feed
  | .next s => some s.out
  | _ => none

def statusOf : Result → Option Status
  | .next s => some s.status
  | _ => none

def refusalOf : Result → Option Refusal
  | .refused r => some r
  | _ => none

theorem next_of_isNext {r : Result} (h : isNext r = true) : ∃ t, r = .next t := by
  cases r with
  | next t => exact ⟨t, rfl⟩
  | fault f => cases h
  | refused f => cases h

def zeros (k : Nat) : Feed := List.replicate k 0

theorem forall_of_all {l : List Word} {p : Word → Bool} (h : l.all p = true) : ∀ w ∈ l, p w = true := by simpa using h

/-! ## Part 1. The spec's vectors -/

/-! ### Well-formedness refuses each kind of ill-formed term -/

/-- ADD and SUB share a code. -/
def twinCodes : OpcodeMap := ⟨0, 1, 2, 2, 4, 5, 6⟩

theorem test_wf_default_numbering : OpcodeMap.default.injective = true := by decide
theorem test_wf_twin_codes : twinCodes.injective = false := by decide
theorem test_wf_instr : Instr.wellFormed OpcodeMap.default .add = true ∧ Instr.wellFormed twinCodes .add = false := by
  decide
theorem test_wf_normative : Config.normative.legal = true := by decide
theorem test_wf_no_lane : Config.inRange ⟨0, 5, 7, OpcodeMap.default, false, false⟩ = false := by decide
theorem test_wf_exponent_width :
    Config.inRange ⟨16, 1, 7, OpcodeMap.default, false, false⟩ = false ∧
      Config.inRange ⟨16, 2, 7, OpcodeMap.default, false, false⟩ = true ∧
      Config.inRange ⟨16, 7, 7, OpcodeMap.default, false, false⟩ = true ∧
      Config.inRange ⟨16, 8, 7, OpcodeMap.default, false, false⟩ = false := by decide
theorem test_wf_mantissa_width :
    Config.inRange ⟨16, 5, 0, OpcodeMap.default, false, false⟩ = false ∧
      Config.inRange ⟨16, 5, 1, OpcodeMap.default, false, false⟩ = true ∧
      Config.inRange ⟨16, 5, 23, OpcodeMap.default, false, false⟩ = true ∧
      Config.inRange ⟨16, 5, 24, OpcodeMap.default, false, false⟩ = false := by decide
theorem test_wf_config_numbering : Config.legal ⟨16, 5, 7, twinCodes, false, false⟩ = false := by decide
theorem test_wf_element :
    Elem.legal (lanes 1) ⟨true, 0xFF⟩ = true ∧ Elem.legal (lanes 1) ⟨false, 0x100⟩ = false := by decide
theorem test_wf_block_exponent :
    Block.legal (lanes 1) ⟨31, [⟨false, 1⟩]⟩ = true ∧ Block.legal (lanes 1) ⟨32, [⟨false, 1⟩]⟩ = false := by decide
theorem test_wf_block_length : Block.legal (lanes 2) ⟨0, [⟨false, 1⟩]⟩ = false := by decide
theorem test_wf_block_mantissa : Block.legal (lanes 1) ⟨0, [⟨false, 0x100⟩]⟩ = false := by decide

/-! ### Decoding: 30_encoding.md R60 (all 32 bits are the code), R61 (codes 0 to 6), R62, program P5 -/

theorem test_decode_encode : decodeTableWord 32 0b00000000000000000000000000000000 = some .encode := by decide
theorem test_decode_decode : decodeTableWord 32 0b00000000000000000000000000000001 = some .decode := by decide
theorem test_decode_add : decodeTableWord 32 0b00000000000000000000000000000010 = some .add := by decide
theorem test_decode_sub : decodeTableWord 32 0b00000000000000000000000000000011 = some .sub := by decide
theorem test_decode_mul : decodeTableWord 32 0b00000000000000000000000000000100 = some .mul := by decide
theorem test_decode_div : decodeTableWord 32 0b00000000000000000000000000000101 = some .div := by decide
theorem test_decode_reciprocal : decodeTableWord 32 0b00000000000000000000000000000110 = some .reciprocal := by decide
theorem test_decode_illegal :
    decodeTableWord 32 7 = none ∧ decodeTableWord 32 0x102 = none ∧ decodeTableWord 32 0xFFFFFFFF = none := by decide

/-! ### The helpers: 95_test_vectors.md section 7 -/

theorem test_rsr_ties :
    roundShiftRight 0x808000 16 = 0x80 ∧ roundShiftRight 0x818000 16 = 0x82 ∧ roundShiftRight 0xFF8000 16 = 0x100 := by
  decide
theorem test_rsr_deep :
    roundShiftRight 0xC00000 24 = 1 ∧ roundShiftRight 0x800000 24 = 0 ∧ roundShiftRight 0xFFFFFF 25 = 0 ∧
      roundShiftRight 0xFFFFFF 32 = 0 ∧ roundShiftRight 1 (-4) = 0x10 := by decide
theorem test_saturate_clamp : saturate 0x100 0xFF = 0xFF ∧ saturate 0xFF 0xFF = 0xFF ∧ clamp 35 0 31 = 31 ∧
    clamp (-5) 0 31 = 0 ∧ clamp 21 0 31 = 21 := by decide
theorem test_decompose :
    decompose 0 0x42B43333 = ⟨false, some 6, 0xB43333⟩ ∧ decompose 0 0x80000000 = ⟨true, none, 0⟩ ∧
      decompose 0 0x007FFFFF = ⟨false, some (-126), 0x7FFFFF⟩ ∧
      decompose 0xABCDEF 0x7F800000 = ⟨false, some 127, 0xABCDEF⟩ := by decide
theorem test_rnd32 :
    rnd32 (mkRat 1 3) = 0x3EAAAAAB ∧ rnd32 (mkRat (-1) 7) = 0xBE124925 ∧ rnd32 (mkRat 16777217 1) = 0x4B800000 ∧
      rnd32 (mkRat 33554431 2) = 0x4B800000 := by decide +kernel

/-- 40_bit_utilities.md R90 by hand: a subnormal tie down and one up, the carry out of the subnormals, the largest finite
word, and the tie above it. -/
theorem test_rnd32_ends :
    rnd32 (pow2 (-150)) = 0x00000000 ∧ rnd32 (-3 * pow2 (-150)) = 0x80000002 ∧
      rnd32 (pow2 (-126) - pow2 (-150)) = 0x00800000 ∧ rnd32 (pow2 128 - pow2 104) = 0x7F7FFFFF ∧
      rnd32 (pow2 103 - pow2 128) = 0xFF800000 := by decide +kernel

/-- 40_bit_utilities.md R91 by hand: 3/2 (not 2/3), 3 - 2, and a sum whose last bit is a tie. -/
theorem test_float_operations :
    fdiv32 0x40400000 0x40000000 = 0x3FC00000 ∧ fsub32 0x40400000 0x40000000 = 0x3F800000 ∧
      fadd32 0x4B800001 0x3F800000 = 0x4B800002 ∧ fmul32 0x40400000 0xC0000000 = 0xC0C00000 := by decide +kernel

/-! ### One step of each operation: 95_test_vectors.md sections 2 to 5 -/

/-- E5: a negative tie and a negative small value keep their sign with mantissa 0. -/
theorem test_encode_e5 :
    outOf (step (running (lanes 5) 0 1 [0x3F800000, 0xBA83126F, 0x80000000, 0xBB800000, 0xBBC00000] [] (zeros 11))) =
      some [15, 0, 1, 0, 1, 1, 0x80, 0, 0, 0, 1] := by decide +kernel

/-- 92_eei_decisions.md D11 and D13, the other settings: a subnormal taken as a zero, and no sign on mantissa 0. -/
theorem test_encode_parameters :
    outOf (step (running { lanes 2 with flushSubnormalInput := true } 0 1 [0x807FFFFF, 0x00000001] [] (zeros 5))) =
        some [0, 0, 0, 0, 0] ∧
      outOf (step (running { lanes 2 with canonicalZeroSign := true } 0 1 [0x3F800000, 0xBB800000] [] (zeros 5))) =
        some [15, 0, 0, 0x80, 0] := by decide +kernel

/-- E7: the exponent clamped high with the mantissas against the unclamped maximum. -/
theorem test_encode_e7 :
    outOf (step (running (lanes 3) 0 1 [0x49800000, 0x49FF0000, 0x41000000] [] (zeros 7))) =
      some [31, 0, 0, 0, 0x80, 0xFF, 0] := by decide +kernel

/-- V1: the quantum `2^-1`, and negative zero for `(1, 0)`. -/
theorem test_decode_v1 :
    outOf (step (running (lanes 3) 1 1 [21, 0, 1, 1, 0xB4, 0xB4, 0] [] (zeros 3))) =
      some [0x42B40000, 0xC2B40000, 0x80000000] := by decide +kernel

/-- V3: the largest exponent. -/
theorem test_decode_v3 :
    outOf (step (running (lanes 2) 1 1 [31, 0, 1, 0xFF, 0x55] [] (zeros 2))) = some [0x47FF0000, 0xC72A0000] := by
  decide +kernel

/-- A1: the carry raises the exponent; ties to even on the doubled grid. -/
theorem test_add_a1 :
    outOf (step (running (lanes 3) 2 1 [15, 0, 0, 1, 0xFF, 0xFF, 3] [15, 0, 0, 0, 0xFF, 2, 0] (zeros 7))) =
      some [16, 0, 0, 1, 0xFF, 0x80, 2] := by decide +kernel

/-- A3: cancellation lowers the exponent. -/
theorem test_sub_a3 :
    outOf (step (running (lanes 2) 3 1 [20, 0, 0, 0x80, 0x10] [20, 0, 0, 0x7F, 0x10] (zeros 5))) =
      some [13, 0, 0, 0x80, 0] := by decide +kernel

/-- M1: the clamp at the top, and the sign of a product. -/
theorem test_mul_m1 :
    outOf (step (running (lanes 2) 4 1 [31, 0, 1, 0xFF, 0x80] [31, 0, 0, 0xFF, 0x80] (zeros 5))) =
      some [31, 0, 1, 0xFE, 0x40] := by decide +kernel

/-- D1: zero divisors of either sign, zero over zero, and an inexact quotient. -/
theorem test_div_d1 :
    outOf (step (running (lanes 5) 5 1 [15, 0, 0, 1, 0, 0, 0x80, 0, 0x80, 0x80, 0x80]
      [15, 0, 0, 1, 0, 1, 0, 0, 0, 0xC0, 0x80] (zeros 11))) =
      some [15, 0, 0, 0, 0, 1, 0, 0, 0, 0x55, 0x80] := by decide +kernel

/-- Q3: thirds, a negative reciprocal and forced zeros; `IN_A` is empty. -/
theorem test_reciprocal_q3 :
    outOf (step (running (lanes 4) 6 1 [] [16, 0, 1, 0, 1, 0xC0, 0x80, 0x40, 0] (zeros 9))) =
      some [15, 0, 1, 0, 0, 0x2B, 0x40, 0x80, 0] := by decide +kernel

/-! ### Starts, the exception, the refusals: programs P5 and P6, section 8 -/

theorem test_p5_illegal : statusOf (step (started (lanes 1) 0x102 1 (zeros 3) (zeros 3) [7, 8, 9])) = some .errInvalidOp ∧
    outOf (step (started (lanes 1) 0x102 1 (zeros 3) (zeros 3) [7, 8, 9])) = some [7, 8, 9] := by decide
theorem test_p6_empty : statusOf (step (started (lanes 1) 4 0 [] [] [])) = some .done := by decide
theorem test_p6_empty_illegal : statusOf (step (started (lanes 1) 7 0 [] [] [])) = some .errInvalidOp := by decide
theorem test_refuse_exponent_word :
    refusalOf (step (started (lanes 1) 1 1 [0x20, 0, 0] [] [0])) = some .malformedBlockWord := by decide +kernel
theorem test_refuse_sign_word :
    refusalOf (step (started (lanes 1) 2 1 [0, 2, 0] (zeros 3) (zeros 3))) = some .malformedBlockWord := by decide +kernel
theorem test_refuse_short_input : refusalOf (step (started (lanes 2) 0 2 (zeros 3) [] (zeros 10))) = some .shortFeed := by
  decide +kernel
theorem test_last_block_is_done :
    statusOf (step (running (lanes 1) 0 1 [0x3F800000] [] (zeros 3))) = some .done := by decide +kernel
/-- The host's probe: every selector runs as the first instruction after reset. -/
theorem test_placed_selectors :
    [0, 1, 2, 3, 4, 5, 6].all (fun k => isNext (step (State.reset.withFetchWord 32 k))) = true := by decide +kernel

/-! ## Part 2. Witnesses: operands that meet the hypotheses of each statement -/

/-! ### The selector and the steps -/

theorem witness_SelectorRoundTrip : Instr.wellFormed ⟨6, 5, 4, 3, 2, 1, 0xFFFFFFFF⟩ .reciprocal = true := by decide

theorem witness_SelectorAcceptsOnlyCodes :
    decodeSelector OpcodeMap.default 6 = .ok .reciprocal ∧
      ∀ i, (7 : Word) ≠ encodeSelector OpcodeMap.default i := by
  refine ⟨rfl, fun i => ?_⟩
  cases i <;> decide

/-- A running MUL on one block of one lane: 1.5 times 1.5. -/
def runMul : State := running (lanes 1) 4 1 [15, 0, 0xC0] [15, 0, 0xC0] (zeros 3)

theorem witness_StepRunsSelectedOperation : runMul.startReq = false ∧ runMul.status = .busy ∧
    decodeSelector runMul.cfg.opcode runMul.op = .ok .mul := ⟨rfl, rfl, rfl⟩

theorem witness_PlacedSelectorRunsNext :
    decodeSelector State.reset.cfg.opcode (BitVec.ofNat 32 6) = .ok .reciprocal := rfl

theorem witness_StepWithoutInvocationChangesNothing : State.reset.startReq = false ∧ State.reset.status ≠ .busy := by
  decide

/-- A start with selector 7, from `DONE`. -/
def startIllegal : State := { started (lanes 1) 7 0 [] [] [] with status := .done }

theorem witness_InvalidSelectorTakesException : startIllegal.startReq = true ∧ startIllegal.status ≠ .busy ∧
    ∀ i, startIllegal.op ≠ encodeSelector startIllegal.cfg.opcode i := by
  refine ⟨rfl, by decide, fun i => ?_⟩
  cases i <;> decide

/-- Starts of DECODE and RECIPROCAL, one for each clause. -/
def startBadConfig : State := started ⟨0, 5, 7, OpcodeMap.default, false, false⟩ 1 1 (zeros 3) [] (zeros 1)
def startShort : State := started (lanes 1) 1 1 (zeros 2) [] (zeros 1)
def startShortOut : State := started (lanes 1) 6 2 [] (zeros 6) (zeros 5)
def startMalformed : State := started (lanes 1) 6 2 [] [31, 1, 0xFF, 0, 0, 0x100] (zeros 6)
def startGood : State := started (lanes 1) 6 1 [] [31, 1, 0xFF] (zeros 3)
def startEmpty : State := started (lanes 1) 6 0 [] [] []

theorem witness_StartChecksPremises_start :
    [startBadConfig, startShort, startShortOut, startMalformed, startGood, startEmpty].all
      (fun s => s.startReq && decide (s.status ≠ .busy) && (selectedInstr s).isSome) = true := by decide

theorem witness_StartChecksPremises_config : startBadConfig.cfg.legal = false := by decide

theorem witness_StartChecksPremises_short :
    (startShort.cfg.legal = true ∧
      startShort.inA.length < nblkNat startShort * useWords startShort.cfg (useInA .decode)) ∧
    startShortOut.cfg.legal = true ∧
      startShortOut.out.length < nblkNat startShortOut * useWords startShortOut.cfg (useOut .reciprocal) := by decide

theorem witness_StartChecksPremises_malformed : startMalformed.cfg.legal = true ∧
    launchFits .reciprocal startMalformed = true ∧ 1 < nblkNat startMalformed ∧ useInB .reciprocal = .blocks ∧
    loadBlock startMalformed.cfg startMalformed.inB 1 = .error .malformedBlockWord := by
  refine ⟨by decide, by decide, by decide, rfl, rfl⟩

theorem witness_StartChecksPremises_launched : (Launched .reciprocal startGood ∧ nblkNat startGood ≠ 0) ∧
    Launched .reciprocal startEmpty ∧ nblkNat startEmpty = 0 := by
  refine ⟨⟨⟨by decide, rfl, by decide, by decide +kernel⟩, by decide⟩, ⟨by decide, rfl, by decide, by decide +kernel⟩, rfl⟩

theorem witness_BusyRefusesCallerBreach :
    ({ runMul with startReq := true }).status = .busy ∧ ({ runMul with op := 7 }).status = .busy ∧
      ∀ i, ({ runMul with op := 7 }).op ≠ encodeSelector ({ runMul with op := 7 }).cfg.opcode i := by
  refine ⟨rfl, rfl, fun i => ?_⟩
  cases i <;> decide

/-! ### The operations -/

/-- A running ENCODE on one block of two lanes: 1.0 and -2.0. -/
def runEncode : State := running (lanes 2) 0 1 [0x3F800000, 0xC0000000] [] (zeros 5)

theorem witness_EncodeStepResult : runEncode.cfg.legal = true ∧ pickBlock runEncode = some 0 ∧
    loadFloats runEncode.cfg runEncode.inA 0 = .ok [0x3F800000, 0xC0000000] ∧
    0 * runEncode.cfg.blkw + runEncode.cfg.blkw ≤ runEncode.out.length := ⟨by decide, by decide, rfl, by decide⟩

/-- A running DECODE on one block of two lanes; `OUT` is exactly as long as it must be. -/
def runDecode : State := running (lanes 2) 1 1 [31, 0, 1, 0xFF, 0] [] (zeros 2)

theorem witness_DecodeStepResult : runDecode.cfg.legal = true ∧ pickBlock runDecode = some 0 ∧
    loadBlock runDecode.cfg runDecode.inA 0 = .ok ⟨31, [⟨false, 0xFF⟩, ⟨true, 0⟩]⟩ ∧
    0 * runDecode.cfg.n + runDecode.cfg.n ≤ runDecode.out.length := ⟨by decide, by decide, rfl, by decide⟩

/-- The same operands for ADD, SUB, MUL and DIV: the second divisor element is a negative zero. -/
def runTwo (op : Word) : State := running (lanes 2) op 1 [16, 0, 1, 0x80, 0x81] [15, 1, 1, 0xFF, 0] (zeros 5)

theorem witness_two_operand_results : ∀ op ∈ ([2, 3, 4, 5] : List Word),
    (runTwo op).cfg.legal = true ∧ pickBlock (runTwo op) = some 0 ∧
    loadBlock (runTwo op).cfg (runTwo op).inA 0 = .ok ⟨16, [⟨false, 0x80⟩, ⟨true, 0x81⟩]⟩ ∧
    loadBlock (runTwo op).cfg (runTwo op).inB 0 = .ok ⟨15, [⟨true, 0xFF⟩, ⟨true, 0⟩]⟩ ∧
    0 * (runTwo op).cfg.blkw + (runTwo op).cfg.blkw ≤ (runTwo op).out.length := by
  intro op _
  exact ⟨(by decide : (lanes 2).legal = true), rfl, rfl, rfl,
    (by decide : 0 * (lanes 2).blkw + (lanes 2).blkw ≤ (zeros 5).length)⟩

/-- A running RECIPROCAL; `IN_A` is empty. -/
def runReciprocal : State := running (lanes 2) 6 1 [] [16, 0, 0, 0xC0, 0] (zeros 5)

theorem witness_ReciprocalStepResult : runReciprocal.cfg.legal = true ∧ pickBlock runReciprocal = some 0 ∧
    loadBlock runReciprocal.cfg runReciprocal.inB 0 = .ok ⟨16, [⟨false, 0xC0⟩, ⟨false, 0⟩]⟩ ∧
    0 * runReciprocal.cfg.blkw + runReciprocal.cfg.blkw ≤ runReciprocal.out.length :=
  ⟨by decide, by decide, rfl, by decide⟩

theorem witness_LaunchedOperationCompletes : ∀ p ∈ [(Instr.encode, runEncode), (Instr.decode, runDecode),
      (Instr.add, runTwo 2), (Instr.sub, runTwo 3), (Instr.mul, runTwo 4), (Instr.div, runTwo 5),
      (Instr.reciprocal, runReciprocal)],
    Launched p.1 p.2 ∧ ∃ b, b < nblkNat p.2 ∧ b ∉ p.2.done := by
  simp only [List.forall_mem_cons, List.not_mem_nil, false_imp_iff, implies_true, and_true]
  refine ⟨⟨⟨by decide, rfl, by decide, by decide +kernel⟩, 0, by decide, by decide⟩,
    ⟨⟨by decide, rfl, by decide, by decide +kernel⟩, 0, by decide, by decide⟩,
    ⟨⟨by decide, rfl, by decide, by decide +kernel⟩, 0, by decide, by decide⟩,
    ⟨⟨by decide, rfl, by decide, by decide +kernel⟩, 0, by decide, by decide⟩,
    ⟨⟨by decide, rfl, by decide, by decide +kernel⟩, 0, by decide, by decide⟩,
    ⟨⟨by decide, rfl, by decide, by decide +kernel⟩, 0, by decide, by decide⟩,
    ⟨⟨by decide, rfl, by decide, by decide +kernel⟩, 0, by decide, by decide⟩⟩

/-- A block taken in the middle of `OUT`: words 2 and 6 are the ones just outside its run. -/
def runMiddle : State := { running (lanes 1) 4 3 (zeros 9) (zeros 9) (zeros 9) with done := [0, 2] }

theorem witness_OperationFrame : (∃ t, exec .mul runMiddle = .next t) ∧ pickBlock runMiddle = some 1 ∧
    ¬(1 * outWords runMiddle.cfg .mul ≤ 2 ∧ 2 < 1 * outWords runMiddle.cfg .mul + outWords runMiddle.cfg .mul) ∧
    ¬(1 * outWords runMiddle.cfg .mul ≤ 6 ∧ 6 < 1 * outWords runMiddle.cfg .mul + outWords runMiddle.cfg .mul) := by
  refine ⟨next_of_isNext (by decide +kernel), by decide, by decide, by decide⟩

theorem witness_IllegalConfigurationRefused :
    ({ runMul with cfg := ⟨1, 8, 7, OpcodeMap.default, false, false⟩ }).cfg.legal = false := by decide

theorem witness_UnreadableBlockRefused :
    (pickBlock { runMul with inB := zeros 2 } = some 0 ∧
      resultWords .mul runMul.cfg (laneDraw runMul) runMul.inA (zeros 2) 0 = .error .shortFeed) ∧
    (pickBlock { runDecode with inA := [32, 0, 0, 0, 0] } = some 0 ∧
      resultWords .decode runDecode.cfg (laneDraw runDecode) [32, 0, 0, 0, 0] [] 0 = .error .malformedBlockWord) ∧
    pickBlock { runDecode with out := zeros 1 } = some 0 ∧
      resultWords .decode runDecode.cfg (laneDraw runDecode) runDecode.inA [] 0 = .ok [0x47FF0000, 0x80000000] ∧
      (zeros 1).length < 0 * outWords runDecode.cfg .decode + outWords runDecode.cfg .decode :=
  ⟨⟨by decide, rfl⟩, ⟨by decide, rfl⟩, by decide, rfl, by decide⟩

/-! ### The feeds -/

/-- Block 1 stored in a feed of three blocks; words 4 and 10 are the ones just outside its run. -/
def storeAt1 : Feed := [9, 9, 9, 9, 9, 31, 0, 1, 0xFF, 0, 9, 9, 9, 9, 9]

theorem witness_StoredBlockLayout : (lanes 2).legal = true ∧
    Block.legal (lanes 2) ⟨31, [⟨false, 0xFF⟩, ⟨true, 0⟩]⟩ = true ∧
    storeBlock (lanes 2) (List.replicate 15 9) 1 ⟨31, [⟨false, 0xFF⟩, ⟨true, 0⟩]⟩ = .ok storeAt1 ∧
    ¬(1 * (lanes 2).blkw ≤ 4 ∧ 4 < 1 * (lanes 2).blkw + (lanes 2).blkw) ∧
    ¬(1 * (lanes 2).blkw ≤ 10 ∧ 10 < 1 * (lanes 2).blkw + (lanes 2).blkw) :=
  ⟨by decide, by decide, rfl, by decide, by decide⟩

theorem witness_StoreThenLoadBlock : storeBlock (lanes 1) [7, 7, 7] 0 ⟨0, [⟨true, 0xFF⟩]⟩ = .ok [0, 1, 0xFF] := rfl

theorem witness_LoadsGiveTheWordsOrRefuse_short_or_malformed :
    (zeros 5).length < 1 * (lanes 1).blkw + (lanes 1).blkw ∧
      (∃ w, memRead [32, 1, 0xFF] (0 * (lanes 1).blkw) = some w ∧ (lanes 1).emax < w.toNat) ∧
      (∃ i < (lanes 1).n, ∃ w, memRead [31, 2, 0xFF] (0 * (lanes 1).blkw + 1 + i) = some w ∧ 1 < w.toNat) ∧
      (∃ i < (lanes 1).n, ∃ w,
        memRead [31, 1, 0x100] (0 * (lanes 1).blkw + 1 + (lanes 1).n + i) = some w ∧ (lanes 1).mmax < w.toNat) ∧
      loadBlock (lanes 1) [31, 1, 0xFF] 0 = .ok ⟨31, [⟨true, 0xFF⟩]⟩ :=
  ⟨by decide, ⟨32, rfl, by decide⟩, ⟨0, by decide, 2, rfl, by decide⟩, ⟨0, by decide, 0x100, rfl, by decide⟩, rfl⟩

/-- A block with every field at its largest value, in a feed that ends with it; and floats likewise. -/
theorem witness_LoadsGiveTheWordsOrRefuse_loaded : 0 * (lanes 1).blkw + (lanes 1).blkw ≤ ([31, 1, 0xFF] : Feed).length ∧
    (∀ w, memRead [31, 1, 0xFF] (0 * (lanes 1).blkw) = some w → w.toNat ≤ (lanes 1).emax) ∧
    (∀ i < (lanes 1).n, ∀ w, memRead [31, 1, 0xFF] (0 * (lanes 1).blkw + 1 + i) = some w → w.toNat ≤ 1) ∧
    (∀ i < (lanes 1).n, ∀ w,
      memRead [31, 1, 0xFF] (0 * (lanes 1).blkw + 1 + (lanes 1).n + i) = some w → w.toNat ≤ (lanes 1).mmax) ∧
    (zeros 3).length < 1 * (lanes 2).n + (lanes 2).n ∧ 1 * (lanes 2).n + (lanes 2).n ≤ (zeros 4).length := by
  refine ⟨by decide, fun w h => ?_, fun i hi w h => ?_, fun i hi w h => ?_, by decide, by decide⟩
  · cases h; decide
  all_goals
    obtain rfl : i = 0 := Nat.lt_one_iff.1 hi
    cases h; decide

/-! ### The utilities and the float primitives -/

/-- The edges of the rule's clauses: shift 16 at and just below the overflowing value, shifts 24 and 25. -/
theorem witness_RoundShiftRightIsNearestEven :
    (0xFF8000 < 2 ^ 24 ∧ roundShiftRight 0xFF8000 16 = 256) ∧ roundShiftRight 0xFF7FFF 16 = 255 ∧
      (0xFFFFFF < 2 ^ 24 ∧ roundShiftRight 0xFFFFFF 24 = 1) ∧ roundShiftRight 0xFFFFFF 25 = 0 ∧
      Config.normative.legal = true ∧ Config.normative.baseShift ≤ ((16 : Nat) : Int) ∧
      roundShiftRight 0xFF8000 16 = 2 ^ Config.normative.mw := by decide

theorem witness_RoundShiftRightFormula :
    4294967295 < 2 ^ 32 ∧ roundShiftRight 4294967295 1 = 2147483648 ∧ roundShiftRight 4294967295 31 = 2 ∧
      roundShiftRight 4294967295 32 = 0 ∧ roundShiftRight 4294967295 (-1) = 4294967294 ∧
      roundShiftRight 4294967295 0 = 4294967295 := by decide

theorem witness_SaturateAndClampStayInRange : (3 : Int) ≤ 3 ∧ clamp 4 3 3 = 3 := by decide

/-- One word for each class: normal at both ends, both zeros, subnormal at both ends, infinity and NaN. -/
theorem witness_DecomposeGivesFieldsAndValue :
    Word.normal 0x00800000 = true ∧ Word.normal 0x7F7FFFFF = true ∧ Word.isZero 0 = true ∧
      Word.isZero 0x80000000 = true ∧ (Word.expField 0x00000001 = 0 ∧ Word.fracField 0x00000001 ≠ 0) ∧
      (Word.expField 0x807FFFFF = 0 ∧ Word.fracField 0x807FFFFF ≠ 0) ∧ Word.finite 0x7F800000 = false ∧
      Word.finite 0xFFC00000 = false ∧
      (Word.finite 0x00000001 = true ∧ (decompose 0 0x00000001).exp = some (-126)) := by decide

/-- Below the overflow bound: the smallest tie, just below the normal range and its lower end, one third, and just below
the bound; and the bound itself, with both signs. -/
theorem witness_RoundToBinary32IsNearest :
    (∀ q ∈ [pow2 (-150), pow2 (-126) - pow2 (-200), pow2 (-126), mkRat (-1) 3, pow2 128 - pow2 103 - 1],
      q ≠ 0 ∧ |q| < pow2 128 - pow2 103) ∧ pow2 (-126) ≤ |pow2 (-126)| ∧ Word.finite 0x7F7FFFFF = true ∧
    ∀ q ∈ [pow2 128 - pow2 103, pow2 103 - pow2 128], q ≠ 0 ∧ pow2 128 - pow2 103 ≤ |q| := by
  have h0 : Word.finite 0x7F7FFFFF = true := by decide
  simp only [List.forall_mem_cons, List.not_mem_nil, false_imp_iff, implies_true, and_true, pow2_eq_zpow,
    Rat.mkRat_eq_div, h0]
  norm_num [abs_of_pos, abs_of_neg, abs_div]

theorem witness_RoundingFixesFloats :
    (Word.finite 0x00000001 = true ∧ Word.isZero 0x00000001 = false) ∧
      Word.finite 0xFF7FFFFF = true ∧ Word.isZero 0xFF7FFFFF = false := by decide

theorem witness_FloatExactDenotesItsValue :
    (1 ≤ 1 ∧ 1 < 2 ^ 24 ∧ -126 ≤ (-126 : Int) + Nat.log2 1 ∧ (-126 : Int) + Nat.log2 1 ≤ 127) ∧
      0xFFFFFF < 2 ^ 24 ∧ -126 ≤ (104 : Int) + Nat.log2 0xFFFFFF ∧ (104 : Int) + Nat.log2 0xFFFFFF ≤ 127 := by decide

/-- A legal Block with an element of each kind: zero, negative zero, smallest and largest mantissa. -/
def sample : Block := ⟨0, [⟨false, 0⟩, ⟨true, 0⟩, ⟨false, 1⟩, ⟨true, 0xFF⟩]⟩

theorem sample_legal : (lanes 4).legal = true ∧ sample.legal (lanes 4) = true := by decide

theorem witness_NearZeroIsMantissaZero : ⟨false, 0⟩ ∈ sample.elems ∧ ⟨false, 1⟩ ∈ sample.elems ∧
    nearZero (decodeElem (lanes 4) sample.exp ⟨true, 0⟩) = true ∧
    nearZero (decodeElem (lanes 4) sample.exp ⟨false, 1⟩) = false := by decide +kernel

/-! ### The codec -/

theorem witness_EncodeOfZerosIsZeroBlock :
    ([0, 0x80000000] : List Word).length = (lanes 2).n ∧ ∀ w ∈ ([0, 0x80000000] : List Word), w.isZero = true :=
  ⟨rfl, forall_of_all (by decide)⟩

/-- A word with unbiased exponent `mx`, and a zero: the maximum exponent is `mx`. -/
theorem isMaxExp_pair {w : Word} {mx : Int} (h : (decomposeInput Config.normative 0 w).exp = some mx) :
    isMaxExp Config.normative [w, 0x80000000] mx := by
  refine ⟨⟨w, by simp, h⟩, ?_⟩
  intro v hv e he
  simp only [List.mem_cons, List.not_mem_nil, or_false] at hv
  rcases hv with rfl | rfl
  · rw [h] at he; cases he; exact le_rfl
  · rw [show (decomposeInput Config.normative 0 0x80000000).exp = none from rfl] at he; cases he

/-- Exponents -16, -15, 16 and 17: the four edges of the three cases. -/
theorem witness_EncodeSharedExponent :
    isMaxExp Config.normative [0x37800000, 0x80000000] (-16) ∧ isMaxExp Config.normative [0x38000000, 0x80000000] (-15) ∧
      isMaxExp Config.normative [0x47800000, 0x80000000] 16 ∧ isMaxExp Config.normative [0x48000000, 0x80000000] 17 ∧
      (∀ w ∈ ([0x37800000, 0x38000000, 0x47800000, 0x48000000, 0x80000000] : List Word), w.finite = true) := by
  refine ⟨isMaxExp_pair rfl, isMaxExp_pair rfl, isMaxExp_pair rfl, isMaxExp_pair rfl,
    forall_of_all (by decide)⟩

theorem witness_EncodeStoredElement : Config.normative.legal = true ∧
    isMaxExp Config.normative [0x3FFF8000, 0x80000000] 0 ∧
    (∀ v ∈ ([0x3FFF8000, 0x80000000] : List Word), v.finite = true) ∧
    (decomposeInput Config.normative 0 0x80000000).exp = none ∧
    (decomposeInput Config.normative 0 0x3FFF8000).exp ≠ none :=
  ⟨by decide, isMaxExp_pair rfl, forall_of_all (by decide), by decide, by decide⟩

/-- A subnormal and a zero under `FLUSH_SUBNORMAL_INPUT`. -/
theorem witness_EncodeStoredElement_flushed :
    ([0x807FFFFF, 0x80000000] : List Word).length = ({ lanes 2 with flushSubnormalInput := true }).n ∧
    ∀ w ∈ ([0x807FFFFF, 0x80000000] : List Word), w.isZero = true ∨
      (({ lanes 2 with flushSubnormalInput := true }).flushSubnormalInput = true ∧ w.expField = 0) := by
  refine ⟨rfl, ?_⟩
  simp only [List.forall_mem_cons, List.not_mem_nil, false_imp_iff, implies_true, and_true]
  exact ⟨Or.inr (by decide), Or.inl (by decide)⟩

theorem witness_EncodeOfNonFinite : (lanes 3).legal = true ∧
    ([0x7F800000, 0x4B000000, 0x80000000] : List Word).length = (lanes 3).n ∧
    Word.finite 0x7F800000 = false ∧ Word.finite 0x4B000000 = true ∧ Word.finite 0x80000000 = true ∧
    (decomposeInput (lanes 3) 0 0x4B000000).exp ≠ none ∧ (decomposeInput (lanes 3) 0 0x80000000).exp = none := by
  decide

theorem witness_ProducedBlocksAreLegal : (zeros 4).length = (lanes 4).n ∧ sample.legal (lanes 4) = true := by decide

theorem witness_EncodedBlockIsNormalised :
    (∀ w ∈ ([0x00800000, 0x80000000] : List Word), Word.zeroOrNormal w) ∧ Word.normal 0x00800000 = true := by
  refine ⟨?_, by decide⟩
  simp only [List.forall_mem_cons, List.not_mem_nil, false_imp_iff, implies_true, and_true]
  exact ⟨Or.inr (by decide), Or.inl (by decide)⟩

/-- The lowest and the highest unclamped exponent; an element at `MMAX + 1/2` quanta, and one within half a quantum. -/
theorem witness_QuantisationErrorBound :
    (isMaxExp Config.normative [0x38000000, 0x80000000] (-15) ∧ 0 ≤ (-15 : Int) + Config.normative.bias) ∧
      (isMaxExp Config.normative [0x47800000, 0x80000000] 16 ∧
        (16 : Int) + Config.normative.bias ≤ Config.normative.emax) ∧
      (isMaxExp Config.normative [0x3FFF8000, 0x80000000] 0 ∧
        ((Config.normative.mmax : Rat) + 1 / 2) * pow2 (0 - Config.normative.wm) = f32val 0x3FFF8000) ∧
      f32val 0x3FFF7FFF < ((Config.normative.mmax : Rat) + 1 / 2) * pow2 (0 - Config.normative.wm) :=
  ⟨⟨isMaxExp_pair rfl, by decide⟩, ⟨isMaxExp_pair rfl, by decide⟩, ⟨isMaxExp_pair rfl, by decide +kernel⟩,
    by decide +kernel⟩

theorem witness_DecodeIsExactAndInRange : (lanes 4).legal = true ∧ sample.legal (lanes 4) = true ∧
    ⟨false, 1⟩ ∈ sample.elems ∧ ⟨true, 0xFF⟩ ∈ sample.elems ∧ ⟨true, 0⟩ ∈ sample.elems := by decide

theorem witness_ReencodeIsCanonical : Config.normative.legal = true ∧
    (0x00800000 :: 0x00400000 :: zeros 14).length = Config.normative.n ∧
    (∀ w ∈ 0x00800000 :: 0x00400000 :: zeros 14, w.finite = true) ∧ Word.normal 0x00800000 = true ∧
    ∀ w ∈ 0x80000000 :: zeros 15, w.isZero = true :=
  ⟨by decide, rfl, forall_of_all (by decide), by decide, forall_of_all (by decide)⟩

/-- Unclamped at the edge (exponent 7, leading bit 0, shift 7) and clamped just below it (exponent 6). -/
theorem witness_DecodeThenEncodeNormalises :
    Block.legal (lanes 2) ⟨7, [⟨false, 1⟩, ⟨true, 0⟩]⟩ = true ∧ Block.legal (lanes 2) ⟨6, [⟨false, 1⟩, ⟨true, 0⟩]⟩ = true ∧
      0 ≤ ((7 : Nat) : Int) - (((lanes 2).wm : Int) - Nat.log2 1) ∧
      ((6 : Nat) : Int) - (((lanes 2).wm : Int) - Nat.log2 1) < 0 ∧
      ∀ el ∈ [(⟨false, 1⟩ : Elem), ⟨true, 0⟩], el.mant ≤ 1 := by decide

/-! ### The arithmetic engine -/

theorem witness_arithmetic_on_blocks : (lanes 4).legal = true ∧ (lanes 4).we ≤ 6 ∧ (lanes 4).wm ≤ 11 ∧
    sample.legal (lanes 4) = true ∧ negateBlock sample = ⟨0, [⟨true, 0⟩, ⟨false, 0⟩, ⟨true, 1⟩, ⟨false, 0xFF⟩]⟩ := by
  decide +kernel

/-- The widest exponent, where only the clauses for every legal configuration apply. -/
theorem witness_arithmetic_at_we_7 : ({ lanes 4 with we := 7 }).legal = true ∧
    sample.legal { lanes 4 with we := 7 } = true ∧ ⟨false, 1⟩ ∈ sample.elems := by decide

/-- A sum that is exactly zero and one that is not; a zero factor, a zero dividend, and two nonzero elements. -/
theorem witness_intermediates : ⟨false, 1⟩ ∈ sample.elems ∧ ⟨true, 0xFF⟩ ∈ sample.elems ∧ ⟨true, 0⟩ ∈ sample.elems ∧
    elemValue (lanes 4) 0 ⟨false, 1⟩ - elemValue (lanes 4) 0 ⟨false, 1⟩ = 0 ∧
    elemValue (lanes 4) 0 ⟨false, 1⟩ + elemValue (lanes 4) 0 ⟨true, 0xFF⟩ ≠ 0 := by decide +kernel

theorem witness_NearZeroDivisorGivesZeroElement : sample.elems[1]? = some ⟨true, 0⟩ ∧
    |f32val (decodeElem (lanes 4) sample.exp ⟨true, 0⟩)| ≤ 1 / 10 ^ 30 := by
  refine ⟨rfl, ?_⟩
  rw [f32val_zero (decodeElem_zero rfl).1]; norm_num

theorem witness_NoDrawReachesFiniteResults : ∀ w ∈ ([0x7F7FFFFF, 0x80000001] : List Word), w.finite = true :=
  forall_of_all (by decide)

/-! ### The whole machine -/

theorem witness_reset_inv : State.reset.Inv := ⟨rfl, List.Pairwise.nil, fun h => by cases h⟩

/-- A launched invocation with one block processed and one left meets the invariant. -/
def runSecond : State :=
  { running (lanes 1) 4 2 [15, 0, 0xC0, 15, 0, 0x80] [15, 0, 0xC0, 15, 1, 0x80] (zeros 6) with done := [0] }

theorem runSecond_inv : runSecond.Inv := by
  refine ⟨rfl, by decide, fun _ => ⟨⟨.mul, by decide, rfl, by decide, by decide +kernel⟩, by decide, 1, by decide, by decide⟩⟩

/-- The same invocation with both blocks left. -/
def runFirst : State := { runSecond with done := [] }

theorem witness_RunningStepProcessesOneBlock :
    (runSecond.Inv ∧ runSecond.status = .busy ∧ runSecond.startReq = false ∧
      ∀ c < nblkNat runSecond, c ≠ 1 → c ∈ runSecond.done) ∧
    runFirst.Inv ∧ runFirst.status = .busy ∧ runFirst.startReq = false ∧
      ∃ c < nblkNat runFirst, c ≠ 0 ∧ c ∉ runFirst.done := by
  refine ⟨⟨runSecond_inv, rfl, rfl, by decide⟩, ⟨rfl, by decide, fun _ => ⟨⟨.mul, by decide, rfl, by decide, by decide +kernel⟩,
    by decide, 1, by decide, by decide⟩⟩, rfl, rfl, 1, by decide, by decide, by decide⟩

theorem witness_InvariantKeptByStep : runSecond.Inv ∧ ∃ t, step runSecond = .next t :=
  ⟨runSecond_inv, next_of_isNext (by decide +kernel)⟩

theorem witness_InvariantKeptByCaller : runSecond.Inv ∧ ∃ t, callerMove .reset runSecond = .next t :=
  ⟨runSecond_inv, _, rfl⟩

theorem witness_CallerDutiesAndLiberties :
    engaged runMul = true ∧ engaged startGood = true ∧ engaged State.reset = false := by decide

theorem witness_RunningInvocationCompletes : runSecond.Inv ∧ runSecond.status = .busy ∧ runSecond.startReq = false ∧
    (remaining runSecond).length = 1 := ⟨runSecond_inv, rfl, rfl, by decide⟩

theorem witness_InvocationComputesEveryBlock :
    Launched .reciprocal startGood ∧ startGood.startReq = true ∧ startGood.status ≠ .busy :=
  ⟨witness_StartChecksPremises_launched.1.1, rfl, by decide⟩

/-- Two histories: the second machine ends another invocation and holds other words in `OUT`. -/
def startGood' : State := { startGood with status := .done, done := [0], out := [9, 9, 9, 9], tick := 5 }

theorem witness_ScheduleAndHistoryDoNotMatter : Launched .reciprocal startGood ∧ Launched .reciprocal startGood' ∧
    startGood'.startReq = true ∧ startGood'.status ≠ .busy ∧ startGood'.cfg = startGood.cfg ∧
    startGood'.nblk = startGood.nblk ∧ startGood'.inA = startGood.inA ∧ startGood'.inB = startGood.inB ∧
    (Instr.reciprocal = .mul ∨ Instr.reciprocal = .div ∨ Instr.reciprocal = .reciprocal → startGood.cfg.we ≤ 6) ∧
    (Instr.reciprocal = .encode → ∀ w ∈ startGood.inA, w.finite = true) :=
  ⟨witness_StartChecksPremises_launched.1.1, ⟨by decide, rfl, by decide, by decide +kernel⟩, rfl, by decide, rfl, rfl, rfl,
    rfl, fun _ => by decide, fun h => by cases h⟩

/-- A launched ADD at `WE = 7`, where no premise on `WE` is left. -/
theorem witness_ScheduleAndHistoryDoNotMatter_add :
    Launched .add { runTwo 2 with cfg := { lanes 2 with we := 7 }, status := .idle, startReq := true } ∧
      ¬(Instr.add = .mul ∨ Instr.add = .div ∨ Instr.add = .reciprocal) :=
  ⟨⟨by decide, rfl, by decide, by decide +kernel⟩, by decide⟩

/-- The same for ENCODE, whose hypothesis asks for finite inputs. -/
theorem witness_ScheduleAndHistoryDoNotMatter_encode :
    Launched .encode { runEncode with status := .idle, startReq := true } ∧
      ∀ w ∈ runEncode.inA, w.finite = true :=
  ⟨⟨by decide, rfl, by decide, by decide +kernel⟩, forall_of_all (by decide)⟩

end Sys2Proof.Tests
end

section
/-!
Proofs about whole operations and whole invocations: what one step leaves alone, what an invocation leaves in `OUT`, and
that neither the draws nor the order of the blocks shows in a result of finite words (10_state.md R29 to R35).
-/

namespace Sys2Proof.Machine

open Sys2Proof

/-! ### Rounding gives a finite word below the overflow bound -/

/-- The pack is an infinity only at an exponent above 126 (40_bit_utilities.md R90). -/
theorem rnd32Pack_finite (s : Bool) {e : Int} (m : Nat) (h1 : -126 ≤ e) (h2 : e ≤ 126) :
    (rnd32Pack s e m).finite = true := by
  have he : -126 ≤ (if m = 2 ^ 24 then e + 1 else e) ∧ (if m = 2 ^ 24 then e + 1 else e) ≤ 127 := by split <;> omega
  unfold rnd32Pack
  dsimp only
  generalize (if m = 2 ^ 24 then e + 1 else e) = e' at he ⊢
  generalize (if m = 2 ^ 24 then 2 ^ 23 else m) = m'
  have hfield : (BitVec.ofInt 8 (e' + 127)).toNat ≠ 255 := by
    rw [BitVec.toNat_ofInt, Int.emod_eq_of_lt (by omega) (by norm_num; omega)]
    omega
  rw [if_neg (by omega), Word.finite, bne_iff_ne]
  split
  · simp [packFloat_expField]
  · rwa [packFloat_expField]

/-- A rational below `2^127` in magnitude is rounded to a finite word, zero and the subnormal range included
(40_bit_utilities.md R90). -/
theorem rnd32_finite {q : ℚ} (h : |q| < pow2 127) : (rnd32 q).finite = true := by
  by_cases hq : q = 0
  · rw [hq, rnd32_zero]; decide
  · have habs : (if q < 0 then -q else q) = |q| := by
      split
      · rename_i hneg; rw [abs_of_neg hneg]
      · rename_i hneg; rw [abs_of_nonneg (not_lt.1 hneg)]
    have hlog : floorLog2 |q| < 127 := pow2_lt_pow2.1 (lt_of_le_of_lt (floorLog2_spec (abs_pos.2 hq)).1 h)
    unfold rnd32
    rw [if_neg hq, habs]
    exact rnd32Pack_finite _ _ (le_max_right _ _) (by omega)

/-! ### The float operations on decoded words stay finite -/

/-- A decoded word is below `2^(BIAS+2)` in magnitude and, unless it is zero, at least `2^(-BIAS-WM)` (41_codec.md
R116). -/
theorem decodeBlock_value_bounds {cfg : Config} (hl : cfg.legal = true) {b : Block} (hb : b.legal cfg = true) {w : Word}
    (hw : w ∈ decodeBlock cfg b) :
    |f32val w| < pow2 ((cfg.bias : Int) + 2) ∧ (f32val w ≠ 0 → pow2 (-(cfg.bias : Int) - cfg.wm) ≤ |f32val w|) := by
  obtain ⟨he, -, hm⟩ := block_legal_iff.1 hb
  obtain ⟨el, hel, rfl⟩ := List.mem_map.1 hw
  obtain ⟨hhi, hlo⟩ := elemValue_bounds hl he (hm el hel)
  rw [f32val_decodeElem hl he (hm el hel)]
  refine ⟨lt_of_le_of_lt hhi (largest_value_lt hl), fun h0 => hlo fun hz => h0 ?_⟩
  simp [elemValue, hz, signed_zero]

/-- Two values below `2^(BIAS+2)` have a sum and a difference below the overflow bound, under every legal
configuration. -/
theorem add_sub_value_lt {cfg : Config} (hl : cfg.legal = true) {x y : ℚ} (hx : |x| < pow2 ((cfg.bias : Int) + 2))
    (hy : |y| < pow2 ((cfg.bias : Int) + 2)) : |x + y| < pow2 127 ∧ |x - y| < pow2 127 := by
  have hle : pow2 ((cfg.bias : Int) + 2) ≤ pow2 126 := pow2_le_pow2.2 (by have := bias_range hl; omega)
  have h127 : pow2 127 = pow2 126 + pow2 126 := by
    rw [show (127 : Int) = 126 + 1 by norm_num, pow2_add, pow2_one]; ring
  have hadd := abs_add_le x y
  have hsub := abs_sub x y
  constructor <;> linarith

/-- For `WE ≤ 6` a value below `2^(BIAS+2)` is below `2^33`. -/
theorem pow2_bias_le {cfg : Config} (h6 : cfg.we ≤ 6) : pow2 ((cfg.bias : Int) + 2) ≤ pow2 33 :=
  pow2_le_pow2.2 (by have := bias_le_of_we_le_six h6; omega)

theorem fmul32_finite {x y : Word} (hx : |f32val x| < pow2 33) (hy : |f32val y| < pow2 33) :
    (fmul32 x y).finite = true := by
  refine rnd32_finite ?_
  calc |f32val x * f32val y| = |f32val x| * |f32val y| := abs_mul _ _
    _ ≤ pow2 33 * pow2 33 := mul_le_mul hx.le hy.le (abs_nonneg _) (pow2_pos _).le
    _ = pow2 66 := by rw [← pow2_add]; norm_num
    _ < pow2 127 := pow2_lt_pow2.2 (by norm_num)

/-- The forced `+0.0` and every quotient by a divisor of at least `2^-54` are finite (43_arith_muldivrecip.md R153,
R156). -/
theorem divLane_finite {x y : Word} (hx : |f32val x| < pow2 33) (hy : f32val y ≠ 0 → pow2 (-54) ≤ |f32val y|) :
    (divLane x y).finite = true := by
  unfold divLane
  split
  · decide
  · rename_i hnz
    have hy0 : f32val y ≠ 0 := by
      intro h0
      exact hnz (by rw [nearZero, h0]; decide +kernel)
    unfold fdiv32
    rw [if_neg hy0]
    refine rnd32_finite ?_
    calc |f32val x / f32val y| = |f32val x| / |f32val y| := abs_div _ _
      _ ≤ pow2 33 / pow2 (-54) := div_le_div₀ (pow2_pos _).le hx.le (pow2_pos _) (hy hy0)
      _ = pow2 87 := by rw [← pow2_sub]; norm_num
      _ < pow2 127 := pow2_lt_pow2.2 (by norm_num)

theorem abs_f32val_oneWord_lt : |f32val oneWord| < pow2 33 := by decide +kernel

/-! ### No draw reaches a result of finite words -/

theorem encodeBlock_draw_irrelevant (cfg : Config) (draw draw' : Nat → BitVec 24) {ws : List Word}
    (h : ∀ w ∈ ws, w.finite = true) : encodeBlock cfg draw ws = encodeBlock cfg draw' ws := by
  rw [encodeBlock_of_finite cfg draw h, encodeBlock_of_finite cfg draw' h]

/-- A two-operand operation whose float primitive is finite on decoded words draws no free value. -/
theorem referenceOp_draw_irrelevant {cfg : Config} (draw draw' : Nat → BitVec 24) {fop : Word → Word → Word}
    {A B : Block} (h : ∀ x ∈ decodeBlock cfg A, ∀ y ∈ decodeBlock cfg B, (fop x y).finite = true) :
    referenceOp cfg draw fop A B = referenceOp cfg draw' fop A B := by
  refine encodeBlock_draw_irrelevant cfg draw draw' fun w hw => ?_
  rw [← List.map_uncurry_zip_eq_zipWith] at hw
  obtain ⟨⟨x, y⟩, hxy, rfl⟩ := List.mem_map.1 hw
  exact h x (List.of_mem_zip hxy).1 y (List.of_mem_zip hxy).2

/-- Settles O50: the float results are below the overflow bound of `rnd32`, so `encode` sees finite words alone. -/
theorem noDrawReachesFiniteResults : Obligations.NoDrawReachesFiniteResults := by
  intro cfg draw draw' hl
  refine ⟨fun ws => encodeBlock_draw_irrelevant cfg draw draw', fun A B hA hB => ?_⟩
  have hi : ∀ {D : Block} {w : Word}, D.legal cfg = true → w ∈ decodeBlock cfg D →
      |f32val w| < pow2 ((cfg.bias : Int) + 2) := fun hD hw => (decodeBlock_value_bounds hl hD hw).1
  refine ⟨?_, ?_, fun h6 => ?_⟩
  · exact referenceOp_draw_irrelevant draw draw' fun x hx y hy =>
      rnd32_finite (add_sub_value_lt hl (hi hA hx) (hi hB hy)).1
  · exact referenceOp_draw_irrelevant draw draw' fun x hx y hy =>
      rnd32_finite (add_sub_value_lt hl (hi hA hx) (hi hB hy)).2
  · have hi33 : ∀ {D : Block} {w : Word}, D.legal cfg = true → w ∈ decodeBlock cfg D → |f32val w| < pow2 33 :=
      fun hD hw => lt_of_lt_of_le (hi hD hw) (pow2_bias_le h6)
    have lo : ∀ y ∈ decodeBlock cfg B, f32val y ≠ 0 → pow2 (-54) ≤ |f32val y| := by
      intro y hy h0
      refine le_trans (pow2_le_pow2.2 ?_) ((decodeBlock_value_bounds hl hB hy).2 h0)
      have := bias_le_of_we_le_six h6
      have := legal_ranges hl
      omega
    refine ⟨?_, ?_, ?_⟩
    · exact referenceOp_draw_irrelevant draw draw' fun x hx y hy => fmul32_finite (hi33 hA hx) (hi33 hB hy)
    · exact referenceOp_draw_irrelevant draw draw' fun x hx y hy => divLane_finite (hi33 hA hx) (lo y hy)
    · refine encodeBlock_draw_irrelevant cfg draw draw' fun w hw => ?_
      obtain ⟨y, hy, rfl⟩ := List.mem_map.1 hw
      exact divLane_finite abs_f32val_oneWord_lt (lo y hy)

/-- The words loaded as floats are words of the feed (20_memory.md R41). -/
theorem mem_of_mem_loadFloats {cfg : Config} {f : Feed} {b : Nat} {ws : List Word} (h : loadFloats cfg f b = .ok ws)
    {w : Word} (hw : w ∈ ws) : w ∈ f := by
  unfold loadFloats at h
  split at h
  · rename_i ws' hws
    cases h
    rw [readWords_eq] at hws
    split at hws <;> cases hws
    exact List.mem_of_mem_drop (List.mem_of_mem_take hw)
  · cases h

/-- The words of a two-operand result do not depend on the draws where the operation itself does not. -/
theorem twoOperandWords_congr {cfg : Config} {inA inB : Feed} {b : Nat} {g g' : Block → Block → Block}
    (h : ∀ x y, x.legal cfg = true → y.legal cfg = true → g x y = g' x y) :
    ((loadBlock cfg inA b).bind fun x => (loadBlock cfg inB b).map fun y => blockWords (g x y)) =
      (loadBlock cfg inA b).bind fun x => (loadBlock cfg inB b).map fun y => blockWords (g' x y) := by
  cases hA : loadBlock cfg inA b with
  | error r => rfl
  | ok x =>
    cases hB : loadBlock cfg inB b with
    | error r => rfl
    | ok y => simp only [Except.bind, Except.map, h x y (loadBlock_legal hA) (loadBlock_legal hB)]

/-- The result words of a block are a function of the inputs where no free value is drawn (41_codec.md R112,
42_arith_addsub.md R135, 43_arith_muldivrecip.md R156). -/
theorem resultWords_draw_irrelevant {i : Instr} {cfg : Config} (hl : cfg.legal = true) {inA inB : Feed}
    (h6 : i = .mul ∨ i = .div ∨ i = .reciprocal → cfg.we ≤ 6)
    (hfin : i = .encode → ∀ w ∈ inA, w.finite = true) (draw draw' : Nat → BitVec 24) (b : Nat) :
    resultWords i cfg draw inA inB b = resultWords i cfg draw' inA inB b := by
  obtain ⟨enc, arith⟩ := noDrawReachesFiniteResults cfg draw draw' hl
  cases i with
  | encode =>
    simp only [resultWords]
    cases hA : loadFloats cfg inA b with
    | error r => rfl
    | ok ws => simp only [Except.map, enc ws fun w hw => hfin rfl w (mem_of_mem_loadFloats hA hw)]
  | decode => rfl
  | add => exact twoOperandWords_congr fun x y hx hy => (arith x y hx hy).1
  | sub => exact twoOperandWords_congr fun x y hx hy => (arith x y hx hy).2.1
  | mul => exact twoOperandWords_congr fun x y hx hy => ((arith x y hx hy).2.2 (h6 (by simp))).1
  | div => exact twoOperandWords_congr fun x y hx hy => ((arith x y hx hy).2.2 (h6 (by simp))).2.1
  | reciprocal =>
    simp only [resultWords]
    cases hB : loadBlock cfg inB b with
    | error r => rfl
    | ok y =>
      have hy := loadBlock_legal hB
      simp only [Except.map, ((arith y y hy hy).2.2 (h6 (by simp))).2.2]

/-! ### One step -/

/-- Settles O18, by the two cases of the inversion of `exec`: no block was left, or one was stored and retired. -/
theorem operationFrame : Obligations.OperationFrame := by
  intro i s t h
  obtain ⟨-, ⟨-, rfl⟩ | ⟨b, ws, f, hp, hr, hf, rfl⟩⟩ := exec_next h
  · simp
  · obtain ⟨hlen, hread⟩ := writeWords_spec hf
    refine ⟨by simp, by simp, by simp, by simp, by simp, by simp, by simpa using hlen, fun a ha => ?_⟩
    rw [retireBlock_out, hread, resultWords_length hr, if_neg (ha b hp)]

/-- A step of a launched invocation with a block left: it takes one, stores its result words and retires it. -/
theorem exec_of_launched {i : Instr} {s : State} (h : Launched i s) (hleft : remaining s ≠ []) :
    ∃ b t ws, pickBlock s = some b ∧ exec i s = .next t ∧ Retired b s t ∧
      resultWords i s.cfg (laneDraw s) s.inA s.inB b = .ok ws ∧ Wrote s.out t.out (b * outWords s.cfg i) ws := by
  obtain ⟨b, hp⟩ := Option.ne_none_iff_exists'.1 (mt pickBlock_eq_none.1 hleft)
  obtain ⟨⟨ws, hws⟩, hfits⟩ := launched_result h (pickBlock_mem hp).1 (laneDraw s)
  obtain ⟨f, hexec, hwrote⟩ := exec_of_resultWords h.1 hp hws (by rw [resultWords_length hws]; exact hfits)
  exact ⟨b, _, ws, hp, hexec, retired_of_retireBlock b s f, hws, by simpa using hwrote⟩

/-- The start of a launched invocation (60_exceptions.md R181, 10_state.md R31). -/
theorem startInvocation_of_launched {i : Instr} {s : State} (h : Launched i s) :
    startInvocation s = .next (settleStatus { s with status := .busy, done := [], startReq := false }) := by
  obtain ⟨hl, hsel, hfits, hread⟩ := h
  simp [startInvocation, hl, hsel, hfits, hread]

/-! ### A whole invocation -/

/-- Word `a` of `OUT` belongs to the run of block `b` (20_memory.md R42, R44). -/
def InRun (i : Instr) (cfg : Config) (b a : Nat) : Prop :=
  b * outWords cfg i ≤ a ∧ a < b * outWords cfg i + outWords cfg i

/-- The runs of two blocks share no word (20_memory.md R51). -/
theorem InRun.unique {i : Instr} {cfg : Config} {a b c : Nat} (hb : InRun i cfg b a) (hc : InRun i cfg c a) : b = c := by
  obtain ⟨b1, b2⟩ := hb
  obtain ⟨c1, c2⟩ := hc
  rw [← Nat.succ_mul] at b2 c2
  have h1 := Nat.lt_of_mul_lt_mul_right (lt_of_le_of_lt b1 c2)
  have h2 := Nat.lt_of_mul_lt_mul_right (lt_of_le_of_lt c1 b2)
  omega

/-- `out` holds, in the run of block `b`, that block's result words for the inputs of `s`, under some draws. -/
def HoldsResult (i : Instr) (s : State) (out : Feed) (b : Nat) : Prop :=
  ∃ (draw : Nat → BitVec 24) (ws : List Word), resultWords i s.cfg draw s.inA s.inB b = .ok ws ∧
    ∀ k < outWords s.cfg i, memRead out (b * outWords s.cfg i + k) = ws[k]?

/-- What holds of an invocation of operation `i` that was started in `s` and has come to `t`, whatever the order of its
blocks: the processed blocks hold their results, every other word of `OUT` and the inputs are those of `s`, and `STATUS`
is `DONE` exactly when no block is left (10_state.md R29 to R31). -/
structure Progress (i : Instr) (s t : State) : Prop where
  cfg : t.cfg = s.cfg
  op : t.op = s.op
  nblk : t.nblk = s.nblk
  inA : t.inA = s.inA
  inB : t.inB = s.inB
  startReq : t.startReq = false
  outLength : t.out.length = s.out.length
  status : t.status = if remaining t = [] then .done else .busy
  doneLt : ∀ b ∈ t.done, b < nblkNat s
  results : ∀ b ∈ t.done, HoldsResult i s t.out b
  others : ∀ a, (∀ b ∈ t.done, ¬InRun i s.cfg b a) → memRead t.out a = memRead s.out a

/-- The step that takes up the start. -/
theorem Progress.of_start {i : Instr} {s : State} (h : Launched i s) (h1 : s.startReq = true) (h2 : s.status ≠ .busy) :
    ∃ t, step s = .next t ∧ Progress i s t ∧ (remaining t).length = nblkNat s := by
  refine ⟨_, by rw [step_of_start h1 h2, startInvocation_of_launched h], ?_, ?_⟩
  · have hrem : ∀ u : State, remaining (settleStatus u) = remaining u := fun u => by simp [remaining, nblkNat]
    constructor <;> simp [settleStatus_status, hrem]
  · simp [remaining, nblkNat]

/-- The step of one block keeps the progress and leaves one block fewer. -/
theorem Progress.blockStep_keeps {i : Instr} {s t : State} (h : Launched i s) (p : Progress i s t)
    (hleft : remaining t ≠ []) :
    ∃ u, step t = .next u ∧ Progress i s u ∧ (remaining t).length = (remaining u).length + 1 := by
  have ht : Launched i t := launched_congr h p.cfg p.op p.nblk p.inA p.inB p.outLength
  obtain ⟨b, u, ws, hp, hexec, ⟨-, -, -, -, -, -, -, hdone, hstatus⟩, hws, -, hread⟩ := exec_of_launched ht hleft
  obtain ⟨fcfg, fop, fnblk, fA, fB, freq, flen, fout⟩ := operationFrame i t u hexec
  have hbusy : t.status = .busy := by rw [p.status, if_neg hleft]
  have hb := mem_remaining.2 (pickBlock_mem hp)
  have hn : nblkNat u = nblkNat t := by unfold nblkNat; rw [fnblk]
  have keeps : ∀ a, ¬InRun i s.cfg b a → memRead u.out a = memRead t.out a := by
    intro a ha
    refine fout a fun c hc => ?_
    rw [hp, Option.some.injEq] at hc
    rw [← hc, p.cfg]; exact ha
  refine ⟨u, by rw [step_of_busy p.startReq hbusy ht.2.1, hexec], ?_, remaining_length_of_retired fnblk hb hdone⟩
  refine
    { cfg := fcfg.trans p.cfg
      op := fop.trans p.op
      nblk := fnblk.trans p.nblk
      inA := fA.trans p.inA
      inB := fB.trans p.inB
      startReq := freq.trans p.startReq
      outLength := flen.trans p.outLength
      status := ?status
      doneLt := ?doneLt
      results := ?results
      others := ?others }
  case status =>
    rw [hstatus, hbusy]
    simp only [remaining_eq_nil, hn, hdone]
  case doneLt =>
    intro c hc
    rcases (hdone c).1 hc with rfl | hc
    · have := (mem_remaining.1 hb).1
      rwa [nblkNat, p.nblk] at this
    · exact p.doneLt c hc
  case results =>
    intro c hc
    rcases (hdone c).1 hc with rfl | hc
    · rw [p.cfg, p.inA, p.inB] at hws
      refine ⟨_, ws, hws, fun k hk => ?_⟩
      rw [hread, p.cfg, if_pos (by rw [resultWords_length hws]; omega), Nat.add_sub_cancel_left]
    · obtain ⟨draw, ws', hws', hheld⟩ := p.results c hc
      refine ⟨draw, ws', hws', fun k hk => ?_⟩
      have hrun : InRun i s.cfg c (c * outWords s.cfg i + k) := ⟨by omega, by omega⟩
      rw [keeps _ fun hb' => ?_, hheld k hk]
      exact (mem_remaining.1 hb).2 (InRun.unique hb' hrun ▸ hc)
  case others =>
    intro a ha
    rw [keeps a (ha b ((hdone b).2 (Or.inl rfl))), p.others a fun c hc => ha c ((hdone c).2 (Or.inr hc))]

/-- The blocks that are left are processed in as many steps, in whatever order. -/
theorem Progress.runSteps_remaining {i : Instr} {s : State} (h : Launched i s) (n : Nat) {t : State} (p : Progress i s t)
    (hn : (remaining t).length = n) : ∃ u, runSteps n t = .next u ∧ Progress i s u ∧ remaining u = [] := by
  induction n generalizing t with
  | zero => exact ⟨t, runSteps_zero t, p, List.length_eq_zero_iff.1 hn⟩
  | succ n ih =>
    obtain ⟨u, hu, pu, hlen⟩ := p.blockStep_keeps h (List.ne_nil_of_length_eq_add_one hn)
    rw [runSteps_succ, hu]
    exact ih pu (by omega)

/-- A launched invocation runs to its end: `DONE`, every block processed. -/
theorem launched_invocation_ends {i : Instr} {s : State} (h : Launched i s) (h1 : s.startReq = true)
    (h2 : s.status ≠ .busy) :
    ∃ t, runSteps (nblkNat s + 1) s = .next t ∧ t.status = .done ∧ Progress i s t ∧ ∀ b < nblkNat s, b ∈ t.done := by
  obtain ⟨u, hu, pu, hlen⟩ := Progress.of_start h h1 h2
  obtain ⟨t, ht, pt, hend⟩ := pu.runSteps_remaining h _ hlen
  refine ⟨t, by rw [runSteps_succ, hu]; exact ht, by rw [pt.status, if_pos hend], pt, ?_⟩
  have hall := remaining_eq_nil.1 hend
  rwa [nblkNat, pt.nblk] at hall

/-- Settles O59, from the progress at the end of the run. -/
theorem invocationComputesEveryBlock : Obligations.InvocationComputesEveryBlock := by
  intro i s h h1 h2
  obtain ⟨t, ht, hdone, p, hall⟩ := launched_invocation_ends h h1 h2
  refine ⟨t, ht, hdone, p.startReq, p.cfg, p.op, p.nblk, p.inA, p.inB, p.outLength, fun b hb => ?_, fun a ha => ?_⟩
  · obtain ⟨draw, ws, hws, hheld⟩ := p.results b (hall b hb)
    exact ⟨draw, ws, hws, resultWords_length hws, hheld⟩
  · refine p.others a fun b hb hrun => ?_
    have := block_fits ha (p.doneLt b hb)
    exact absurd hrun.2 (by omega)

/-- Settles O60: each block of either invocation holds result words of the same inputs, and these draw no free value. -/
theorem scheduleAndHistoryDoNotMatter : Obligations.ScheduleAndHistoryDoNotMatter := by
  intro i s s' h h' hr hr' hs hs' hcfg hnblk hA hB h6 hfin
  obtain ⟨t, ht, hdone, p, hall⟩ := launched_invocation_ends h hr hs
  obtain ⟨t', ht', hdone', p', hall'⟩ := launched_invocation_ends h' hr' hs'
  refine ⟨t, t', ht, ht', hdone, hdone', fun a ha => ?_⟩
  have hpos : 0 < outWords s.cfg i := Nat.pos_of_ne_zero fun h0 => by simp [h0] at ha
  have hb : a / outWords s.cfg i < nblkNat s := Nat.div_lt_of_lt_mul (by rwa [Nat.mul_comm] at ha)
  have hk := Nat.mod_lt a hpos
  obtain ⟨draw, ws, hws, hheld⟩ := p.results _ (hall _ hb)
  obtain ⟨draw', ws', hws', hheld'⟩ := p'.results _ (hall' _ (by rwa [nblkNat, hnblk]))
  rw [hcfg] at hheld'
  rw [hcfg, hA, hB, resultWords_draw_irrelevant h.1 h6 hfin draw' draw, hws] at hws'
  cases hws'
  have e := (hheld _ hk).trans (hheld' _ hk).symm
  rwa [Nat.div_add_mod'] at e

end Sys2Proof.Machine
end

section
/-!
Proofs about the codec on legal Blocks: what every operation produces is legal, `decode` is exact and in range, and
`decode` then `encode` normalises (10_state.md R20 to R24, 41_codec.md R116, R119).
-/

namespace Sys2Proof.Machine

open Sys2Proof

/-! ### Produced Blocks -/

/-- Settles O38: each operation ends in `encode` of `N` words, which stores a legal Block whatever it draws. -/
theorem producedBlocksAreLegal : Obligations.ProducedBlocksAreLegal := by
  intro cfg draw _
  refine ⟨fun ws hws => encodeBlock_isLegal draw hws, fun A B hA hB => ?_⟩
  have two (fop : Word → Word → Word) : (referenceOp cfg draw fop A B).legal cfg = true := referenceOp_legal hA hB
  exact ⟨two fadd32, two fsub32, two fmul32, two divLane, reciprocalBlock_isLegal hB⟩

/-! ### The range of `decode` -/

/-- The exponents of decoded values lie in `-86 .. 64` under every legal configuration (41_codec.md R116). -/
theorem decoded_exponent_limits {cfg : Config} (hl : cfg.legal = true) :
    -86 ≤ -(cfg.bias : Int) - cfg.wm ∧ (cfg.emax : Int) - cfg.bias ≤ 64 := by
  have hbias := bias_range hl
  have hemax := emax_eq hl
  have hranges := legal_ranges hl
  omega

/-- The limits of decoded values at the defaults (41_codec.md R116). -/
theorem normative_decoded_limits :
    -(Config.normative.bias : Int) - Config.normative.wm = -22 ∧
      (Config.normative.emax : Int) - Config.normative.bias = 16 ∧
      (Config.normative.mmax : ℚ) *
        pow2 ((Config.normative.emax : Int) - Config.normative.bias - Config.normative.wm) = 130560 :=
  ⟨rfl, rfl, by decide +kernel⟩

/-- Settles O41, from the value and the fields of a decoded element and the bounds on the value an element denotes. -/
theorem decodeIsExactAndInRange : Obligations.DecodeIsExactAndInRange := by
  intro cfg B el hl hB hel
  obtain ⟨he, -, hm⟩ := block_legal_iff.1 hB
  have hval := f32val_decodeElem hl he (hm el hel)
  refine ⟨hval, decodeElem_zeroOrNormal hl he (hm el hel), fun h0 => ?_⟩
  obtain ⟨hnormal, -⟩ := decodeElem_normal hl he h0 (hm el hel)
  obtain ⟨hlo, hhi, -⟩ := decode_exponent_range hl he h0 (hm el hel)
  obtain ⟨hlargest, hsmallest⟩ := elemValue_bounds hl he (hm el hel)
  rw [hval]
  exact ⟨hnormal, ⟨hlo, hhi⟩, decoded_exponent_limits hl, fun hc => hc ▸ normative_decoded_limits, hsmallest h0, hlargest⟩

/-! ### `decode` then `encode` -/

/-- An element normalised by `k` places: its mantissa shifted left under its sign, a zero made canonical (41_codec.md
R119). -/
def normalisedElem (k : Nat) (el : Elem) : Elem :=
  if el.mant = 0 then ⟨false, 0⟩ else ⟨el.sign, el.mant <<< k⟩

theorem elemValue_normalisedElem (cfg : Config) (e k : Nat) (el : Elem) :
    elemValue cfg e (normalisedElem k el) = elemValue cfg (e + k) el := by
  unfold normalisedElem elemValue
  split
  · rename_i h0
    simp [h0, signed_zero]
  · rw [show ((e + k : Nat) : Int) - cfg.bias - cfg.wm = k + ((e : Int) - cfg.bias - cfg.wm) by push_cast; ring,
      pow2_add, pow2_natCast, Nat.shiftLeft_eq, Nat.cast_mul, mul_assoc]

/-- Under two different exponents a nonzero element denotes two different values. -/
theorem elemValue_ne_of_exp_ne (cfg : Config) {e e' : Nat} {el : Elem} (h0 : el.mant ≠ 0) (h : e' ≠ e) :
    elemValue cfg e' el ≠ elemValue cfg e el := by
  intro heq
  have habs := congrArg abs heq
  rw [abs_elemValue, abs_elemValue, mul_right_inj' (Nat.cast_ne_zero.2 h0)] at habs
  have hle := pow2_le_pow2.1 habs.le
  have hge := pow2_le_pow2.1 habs.ge
  omega

/-- The exponent `encode` takes from a decoded Block is the one of its largest mantissa (41_codec.md R101). -/
theorem isMaxExp_decodeBlock {cfg : Config} (hl : cfg.legal = true) {B : Block} (hB : B.legal cfg = true) {top : Elem}
    (htop : top ∈ B.elems) (hmax : ∀ el ∈ B.elems, el.mant ≤ top.mant) (h1 : 1 ≤ top.mant) :
    isMaxExp cfg (decodeBlock cfg B) ((B.exp : Int) - cfg.bias - cfg.wm + Nat.log2 top.mant) := by
  obtain ⟨he, -, hm⟩ := block_legal_iff.1 hB
  refine ⟨⟨_, List.mem_map_of_mem htop, ?_⟩, fun w hw x hx => ?_⟩
  · rw [decomposeInput_decodeElem_exp hl he (hm top htop), if_neg (by omega)]
  · obtain ⟨el, hel, rfl⟩ := List.mem_map.1 hw
    rw [decomposeInput_decodeElem_exp hl he (hm el hel)] at hx
    split at hx
    · cases hx
    · rename_i h0
      cases hx
      have hlog : Nat.log2 el.mant ≤ Nat.log2 top.mant := by
        rw [Nat.le_log2 (by omega)]
        exact (Nat.log2_self_le h0).trans (hmax el hel)
      omega

/-- Decode then encode: every element is normalised by the distance of the largest mantissa's leading bit from bit `WM`,
and the exponent is lowered by as much, clamped (41_codec.md R119). -/
theorem encodeBlock_decodeBlock {cfg : Config} (hl : cfg.legal = true) (draw : Nat → BitVec 24) {B : Block}
    (hB : B.legal cfg = true) {top : Elem} (htop : top ∈ B.elems) (hmax : ∀ el ∈ B.elems, el.mant ≤ top.mant)
    (h1 : 1 ≤ top.mant) :
    encodeBlock cfg draw (decodeBlock cfg B) =
      ⟨B.exp - (cfg.wm - Nat.log2 top.mant), B.elems.map (normalisedElem (cfg.wm - Nat.log2 top.mant))⟩ := by
  obtain ⟨he, -, hm⟩ := block_legal_iff.1 hB
  have hp : Nat.log2 top.mant ≤ cfg.wm := log2_le_wm (by omega) (hm top htop)
  have hfinite : ∀ w ∈ decodeBlock cfg B, w.finite = true := fun w hw =>
    finite_of_zeroOrNormal (decodeBlock_zeroOrNormal hl hB w hw)
  rw [encodeBlock_of_isMaxExp hfinite (isMaxExp_decodeBlock hl hB htop hmax h1), decodeBlock, List.map_map]
  congr 1
  · rw [sharedExp, clamp_eq _ _ _ (by omega)]
    omega
  · refine List.map_congr_left fun el hel => ?_
    exact encodeElem_decodeElem hl he (hm el hel) hp (lt_of_le_of_lt (hmax el hel) Nat.lt_log2_self)

/-- Settles O44: with `k = WM - p` the result holds `max (E - k) 0` and the mantissas shifted by `k`, so its elements
denote what the old ones do under the exponent `max (E - k) 0 + k`, which is `E` exactly when nothing is clamped. -/
theorem decodeThenEncodeNormalises : Obligations.DecodeThenEncodeNormalises := by
  refine ⟨fun cfg draw B top hl hB htop hmax h1 => ?_, fun draw => ?_⟩
  · obtain ⟨he, -, hm⟩ := block_legal_iff.1 hB
    have hp : Nat.log2 top.mant ≤ cfg.wm := log2_le_wm (by omega) (hm top htop)
    rw [encodeBlock_decodeBlock hl draw hB htop hmax h1]
    refine ⟨?_, rfl, fun i el el' hel hel' => ?_⟩
    · rw [clamp_eq _ _ _ (by omega)]
      push_cast
      omega
    · rw [List.getElem?_map, hel, Option.map_some, Option.some.injEq] at hel'
      rw [← hel', elemValue_normalisedElem]
      refine ⟨fun hfits => ?_, fun hclamped h0 => elemValue_ne_of_exp_ne cfg h0 (by omega)⟩
      rw [Nat.sub_add_cancel (by omega)]
  · have hdecode : decodeBlock Config.normative ⟨20, ⟨false, 1⟩ :: ⟨false, 1⟩ :: List.replicate 14 ⟨false, 0⟩⟩ =
        0x3E800000 :: 0x3E800000 :: List.replicate 14 0 := by decide
    refine ⟨hdecode, ?_⟩
    rw [← hdecode, encodeBlock_decodeBlock (by decide) draw (by decide) (top := ⟨false, 1⟩) (by decide) (by decide) le_rfl]
    decide

end Sys2Proof.Machine
end

section
/-!
Proofs about the selector and the steps it selects: the decoder accepts codes alone, a running step is the selected
operation, an illegal start takes the exception, and each operation completes and stores its block's result
(30_encoding.md R60 to R63, 60_exceptions.md R181).
-/

namespace Sys2Proof.Machine

open Sys2Proof

/-! ### The selector -/

/-- The two outcomes of the decoder: an operation for its own code, or the refusal of the word by name (30_encoding.md
R60, R62). -/
theorem decodeSelector_cases (m : OpcodeMap) (w : Word) :
    (∃ i, decodeSelector m w = .ok i ∧ w = encodeSelector m i) ∨
      decodeSelector m w = .error (.illegalSelector w) := by
  unfold decodeSelector
  split_ifs with h1 h2 h3 h4 h5 h6 h7
  exacts [.inl ⟨.encode, rfl, h1⟩, .inl ⟨.decode, rfl, h2⟩, .inl ⟨.add, rfl, h3⟩, .inl ⟨.sub, rfl, h4⟩,
    .inl ⟨.mul, rfl, h5⟩, .inl ⟨.div, rfl, h6⟩, .inl ⟨.reciprocal, rfl, h7⟩, .inr rfl]

/-- Settles O2: each half of the statement rules out one of the decoder's two outcomes. -/
theorem selectorAcceptsOnlyCodes : Obligations.SelectorAcceptsOnlyCodes := by
  intro m w
  rcases decodeSelector_cases m w with ⟨j, hdecode, hcode⟩ | hillegal
  · refine ⟨fun i hi => ?_, fun hnone => absurd hcode (hnone j)⟩
    cases hdecode.symm.trans hi
    exact hcode
  · refine ⟨fun i hi => ?_, fun _ => hillegal⟩
    cases hillegal.symm.trans hi

/-! ### The step of a running invocation and the exception -/

theorem selectedInstr_of_decode {s : State} {i : Instr} (h : decodeSelector s.cfg.opcode s.op = .ok i) :
    selectedInstr s = some i := by
  rw [selectedInstr, h]; rfl

/-- A start whose selector names no operation takes InvalidOperation, before any premise is looked at (60_exceptions.md
R181, R185). -/
theorem startInvocation_of_illegal {s : State} (h : selectedInstr s = none) :
    startInvocation s = .next (raiseInvalidOperation s) := by
  rw [startInvocation, h]

/-- Settles O4, from the rule of a running step. -/
theorem stepRunsSelectedOperation : Obligations.StepRunsSelectedOperation :=
  fun _ _ hreq hbusy hdecode => step_of_busy hreq hbusy (selectedInstr_of_decode hdecode)

/-- Settles O7: the requested start is taken up, and its selector names no operation. -/
theorem invalidSelectorTakesException : Obligations.InvalidSelectorTakesException := by
  intro s hreq hidle hillegal
  rw [step_of_start hreq hidle, startInvocation_of_illegal (selectedInstr_eq_none hillegal), raiseInvalidOperation]

/-! ### The step of one block -/

/-- The step of a block whose result words are known and whose run lies in `OUT` completes: the words stand in the run
and the block is retired (30_encoding.md R63). -/
theorem exec_stores_resultWords {i : Instr} {s : State} {b : Nat} {ws : List Word} (hl : s.cfg.legal = true)
    (hp : pickBlock s = some b) (hr : resultWords i s.cfg (laneDraw s) s.inA s.inB b = .ok ws)
    (hfits : b * outWords s.cfg i + outWords s.cfg i ≤ s.out.length) :
    ∃ t, exec i s = .next t ∧ Retired b s t ∧ Wrote s.out t.out (b * outWords s.cfg i) ws := by
  obtain ⟨f, hexec, hwrote⟩ := exec_of_resultWords hl hp hr (by rwa [resultWords_length hr])
  exact ⟨_, hexec, retired_of_retireBlock b s f, by rwa [retireBlock_out]⟩

/-- The result words of ENCODE on a block of floats that was loaded (41_codec.md R100). -/
theorem resultWords_encode {cfg : Config} {inA : Feed} {b : Nat} {ws : List Word} (hA : loadFloats cfg inA b = .ok ws)
    (draw : Nat → BitVec 24) (inB : Feed) :
    resultWords .encode cfg draw inA inB b = .ok (blockWords (encodeBlock cfg draw ws)) := by
  rw [resultWords, hA]; rfl

/-- The result words of DECODE on a Block that was loaded (41_codec.md R113). -/
theorem resultWords_decode {cfg : Config} {inA : Feed} {b : Nat} {A : Block} (hA : loadBlock cfg inA b = .ok A)
    (draw : Nat → BitVec 24) (inB : Feed) :
    resultWords .decode cfg draw inA inB b = .ok (decodeBlock cfg A) := by
  rw [resultWords, hA]; rfl

/-- The result words of RECIPROCAL on a Block that was loaded (43_arith_muldivrecip.md R152). -/
theorem resultWords_reciprocal {cfg : Config} {inB : Feed} {b : Nat} {B : Block} (hB : loadBlock cfg inB b = .ok B)
    (draw : Nat → BitVec 24) (inA : Feed) :
    resultWords .reciprocal cfg draw inA inB b = .ok (blockWords (reciprocalBlock cfg draw B)) := by
  rw [resultWords, hB]; rfl

/-- What is computed from two Blocks that were loaded. -/
theorem loadBlocks_bind {cfg : Config} {inA inB : Feed} {b : Nat} {A B : Block} (hA : loadBlock cfg inA b = .ok A)
    (hB : loadBlock cfg inB b = .ok B) (g : Block → Block → List Word) :
    ((loadBlock cfg inA b).bind fun x => (loadBlock cfg inB b).map fun y => g x y) = .ok (g A B) := by
  rw [hA, hB]; rfl

/-- The operation that is the reference contract of the float primitive `fop` on its two Block operands: ADD, SUB, MUL
and DIV, each with its own primitive (42_arith_addsub.md R130). -/
def IsReferenceOp (i : Instr) (fop : Word → Word → Word) : Prop :=
  (∀ (cfg : Config) (draw : Nat → BitVec 24) (inA inB : Feed) (b : Nat),
    resultWords i cfg draw inA inB b = (loadBlock cfg inA b).bind fun x =>
      (loadBlock cfg inB b).map fun y => blockWords (referenceOp cfg draw fop x y)) ∧
  useOut i = .blocks

theorem add_isReferenceOp : IsReferenceOp .add fadd32 := ⟨fun _ _ _ _ _ => rfl, rfl⟩
theorem sub_isReferenceOp : IsReferenceOp .sub fsub32 := ⟨fun _ _ _ _ _ => rfl, rfl⟩
theorem mul_isReferenceOp : IsReferenceOp .mul fmul32 := ⟨fun _ _ _ _ _ => rfl, rfl⟩
/-- The primitive of DIV carries the near-zero rule (43_arith_muldivrecip.md R151, R153). -/
theorem div_isReferenceOp : IsReferenceOp .div divLane := ⟨fun _ _ _ _ _ => rfl, rfl⟩

/-- A two-operand operation on two Blocks that were loaded stores the encoded element-wise results (42_arith_addsub.md
R130). -/
theorem IsReferenceOp.exec_stores {i : Instr} {fop : Word → Word → Word} (h : IsReferenceOp i fop) {s : State} {b : Nat}
    {A B : Block} (hl : s.cfg.legal = true) (hp : pickBlock s = some b) (hA : loadBlock s.cfg s.inA b = .ok A)
    (hB : loadBlock s.cfg s.inB b = .ok B) (hfits : b * s.cfg.blkw + s.cfg.blkw ≤ s.out.length) :
    ∃ t, exec i s = .next t ∧ Retired b s t ∧
      Wrote s.out t.out (b * s.cfg.blkw)
        (blockWords (encodeBlock s.cfg (laneDraw s) (List.zipWith fop (decodeBlock s.cfg A) (decodeBlock s.cfg B)))) := by
  obtain ⟨hresult, huse⟩ := h
  have hwidth : outWords s.cfg i = s.cfg.blkw := by rw [outWords, huse]; rfl
  rw [← hwidth] at hfits ⊢
  exact exec_stores_resultWords hl hp ((hresult ..).trans (loadBlocks_bind hA hB _)) hfits

/-- Settles O10: the result words of ENCODE are stored. -/
theorem encodeStepResult : Obligations.EncodeStepResult :=
  fun _ _ _ hl hp hA hfits => exec_stores_resultWords (i := .encode) hl hp (resultWords_encode hA _ _) hfits

/-- Settles O11: the result words of DECODE are stored. -/
theorem decodeStepResult : Obligations.DecodeStepResult :=
  fun _ _ _ hl hp hA hfits => exec_stores_resultWords (i := .decode) hl hp (resultWords_decode hA _ _) hfits

/-- Settles O12, from the rule of the two-operand operations. -/
theorem addStepResult : Obligations.AddStepResult :=
  fun _ _ _ _ hl hp hA hB hfits => add_isReferenceOp.exec_stores hl hp hA hB hfits

/-- Settles O13, from the rule of the two-operand operations. -/
theorem subStepResult : Obligations.SubStepResult :=
  fun _ _ _ _ hl hp hA hB hfits => sub_isReferenceOp.exec_stores hl hp hA hB hfits

/-- Settles O14, from the rule of the two-operand operations. -/
theorem mulStepResult : Obligations.MulStepResult :=
  fun _ _ _ _ hl hp hA hB hfits => mul_isReferenceOp.exec_stores hl hp hA hB hfits

/-- Settles O15, from the rule of the two-operand operations: the quotient written out in the statement is `divLane`. -/
theorem divStepResult : Obligations.DivStepResult :=
  fun _ _ _ _ hl hp hA hB hfits => div_isReferenceOp.exec_stores hl hp hA hB hfits

/-- Settles O16: the result words of RECIPROCAL are stored, and the reciprocal written out in the statement is `divLane` with
the numerator `oneWord`. -/
theorem reciprocalStepResult : Obligations.ReciprocalStepResult :=
  fun _ _ _ hl hp hB hfits => exec_stores_resultWords (i := .reciprocal) hl hp (resultWords_reciprocal hB _ _) hfits

end Sys2Proof.Machine
end

section
/-!
Proofs about the bit-layout utilities: the rounding shift and its bounds, saturate and clamp, and what `decompose` gives for
each class of word (40_bit_utilities.md R80 to R89, R92).
-/

namespace Sys2Proof.Machine

open Sys2Proof

/-! ### The rounding shift -/

/-- A divisor that is a power of two has half of it as the tie (40_bit_utilities.md R84). -/
theorem rneDiv_two_pow (value : Nat) {s : Nat} (h1 : 1 ≤ s) :
    rneDiv value (2 ^ s) =
      if value % 2 ^ s > 2 ^ (s - 1) ∨ (value % 2 ^ s = 2 ^ (s - 1) ∧ value / 2 ^ s % 2 = 1) then value / 2 ^ s + 1
      else value / 2 ^ s := by
  have hhalf : 2 ^ s = 2 * 2 ^ (s - 1) := by rw [← pow_succ', Nat.sub_add_cancel h1]
  have htie : 2 ^ s < 2 * (value % 2 ^ s) ∨ (2 * (value % 2 ^ s) = 2 ^ s ∧ value / 2 ^ s % 2 = 1) ↔
      value % 2 ^ s > 2 ^ (s - 1) ∨ (value % 2 ^ s = 2 ^ (s - 1) ∧ value / 2 ^ s % 2 = 1) := by omega
  simp only [rneDiv, htie]

/-- Settles O26, from the rounded quotient by a power of two. -/
theorem roundShiftRightFormula : Obligations.RoundShiftRightFormula := by
  refine ⟨fun value shift _ h1 h32 => ?_, by decide⟩
  rw [roundShiftRight_eq_rneDiv value shift h1 h32, rneDiv_two_pow value h1]

/-- A negative shift is a left shift in the 32-bit container (40_bit_utilities.md R85). -/
theorem roundShiftRight_neg (value s : Nat) : roundShiftRight value (-(s : Int)) = value * 2 ^ s % 2 ^ 32 := by
  rw [roundShiftRight, if_pos (by omega), neg_neg, Int.toNat_natCast, Nat.shiftLeft_eq, wRs]

theorem nearestEven_roundShiftRight {value : Nat} (hv : value < 2 ^ 24) (s : Nat) :
    nearestEven ((value : ℚ) / 2 ^ s) (roundShiftRight value s) := by
  have hrne : rne ((value : ℚ) / 2 ^ s) = roundShiftRight value s := by
    rw [roundShiftRight_mant value hv, ← rne_natCast_div _ _ (by positivity), Nat.cast_pow, Nat.cast_ofNat]
  exact hrne ▸ nearestEven_rne (by positivity)

/-- `value < 2^24 ≤ 2^t * 2^s`, and rounding is monotone. -/
theorem roundShiftRight_le_two_pow {value s t : Nat} (hv : value < 2 ^ 24) (h : 24 ≤ s + t) :
    roundShiftRight value s ≤ 2 ^ t := by
  have hle : value ≤ 2 ^ t * 2 ^ s := by
    rw [← pow_add, add_comm]
    exact hv.le.trans (Nat.pow_le_pow_right (by norm_num) h)
  calc roundShiftRight value s = rneDiv value (2 ^ s) := roundShiftRight_mant value hv s
    _ ≤ rneDiv (2 ^ t * 2 ^ s) (2 ^ s) := rneDiv_mono (by positivity) hle
    _ = 2 ^ t := rneDiv_mul_self (by positivity)

/-- The bound is reached only from half a unit below `2^24` on. -/
theorem le_of_roundShiftRight_eq_two_pow {value s t : Nat} (hv : value < 2 ^ 24) (h : s + t = 24)
    (htop : roundShiftRight value s = 2 ^ t) : 2 * 2 ^ 24 ≤ 2 * value + 2 ^ s := by
  rw [roundShiftRight_mant value hv, rneDiv_eq_iff (by positivity)] at htop
  have hprod : 2 * 2 ^ t * 2 ^ s = 2 * 2 ^ 24 := by rw [mul_assoc, ← pow_add, add_comm t, h]
  exact hprod ▸ htop.1

theorem roundShiftRight_eq_zero {value s : Nat} (hv : value < 2 ^ 24) (h : 25 ≤ s) : roundShiftRight value s = 0 := by
  have hpow : 2 ^ 25 ≤ 2 ^ s := Nat.pow_le_pow_right (by norm_num) h
  rw [roundShiftRight_mant value hv, rneDiv_eq_iff (by positivity)]
  omega

/-- A shift by 17 or more stays below 256, and a shift by 16 rounds up to 256 from the tie at `0xFF8000` on, 256 being
even. -/
theorem roundShiftRight_eq_256_iff {value s : Nat} (hv : value < 2 ^ 24) (h16 : 16 ≤ s) :
    roundShiftRight value s = 256 ↔ s = 16 ∧ 0xFF8000 ≤ value := by
  rcases h16.eq_or_lt with rfl | h17
  · rw [roundShiftRight_mant value hv, rneDiv_eq_iff (by positivity)]
    omega
  · have hle : roundShiftRight value s ≤ 2 ^ 7 := roundShiftRight_le_two_pow hv (by omega)
    omega

/-- Above `BASE_SHIFT` the bound is half of `2^MW`, so only `BASE_SHIFT` reaches it (40_bit_utilities.md R87). -/
theorem eq_baseShift_of_roundShiftRight_eq {cfg : Config} {value s : Nat} (hv : value < 2 ^ 24)
    (hs : cfg.baseShift ≤ s) (htop : roundShiftRight value s = 2 ^ cfg.mw) : (s : Int) = cfg.baseShift := by
  unfold Config.baseShift Config.mw at *
  by_contra hne
  have hle : roundShiftRight value s ≤ 2 ^ cfg.wm := roundShiftRight_le_two_pow hv (by omega)
  rw [htop] at hle
  exact absurd hle (Nat.pow_lt_pow_succ (by norm_num)).not_ge

/-- The end of the range that reaches the bound, as the spec writes it. -/
theorem two_pow_sub_pow2_le {value s : Nat} (h1 : 1 ≤ s) (h : 2 * 2 ^ 24 ≤ 2 * value + 2 ^ s) :
    (2 : ℚ) ^ 24 - pow2 ((s : Int) - 1) ≤ value := by
  obtain ⟨t, rfl⟩ : ∃ t, s = t + 1 := ⟨s - 1, by omega⟩
  have hq : (2 : ℚ) * 2 ^ 24 ≤ 2 * value + 2 ^ t * 2 := by rw [← pow_succ]; exact_mod_cast h
  rw [Nat.cast_add_one, add_sub_cancel_right, pow2_nat]
  linarith

/-- Settles O27: the nearest integer by `rne`, the bounds by monotonicity, the end clauses by the rules of the two ends. -/
theorem roundShiftRightIsNearestEven : Obligations.RoundShiftRightIsNearestEven := by
  refine ⟨fun value s hv _ => ⟨nearestEven_roundShiftRight hv s, roundShiftRight_eq_zero hv, ?_, fun h16 => ⟨?_, ?_⟩⟩,
    fun cfg value s _ hv h1 hs => ⟨?_, fun htop => ?_⟩,
    fun value _ => ⟨roundShiftRight_neg value, fun s => roundShiftRight_of_le value s⟩⟩
  · rintro rfl
    exact Nat.le_one_iff_eq_zero_or_eq_one.1 (roundShiftRight_le_two_pow (t := 0) hv le_rfl)
  · exact roundShiftRight_le_two_pow (t := 8) hv (by omega)
  · exact roundShiftRight_eq_256_iff hv h16
  · unfold Config.baseShift at hs
    exact roundShiftRight_le_two_pow hv (by unfold Config.mw; omega)
  · have hbase := eq_baseShift_of_roundShiftRight_eq hv hs htop
    have hsum : s + cfg.mw = 24 := by unfold Config.baseShift at hbase; unfold Config.mw; omega
    refine ⟨hbase, ?_⟩
    rw [← hbase]
    exact two_pow_sub_pow2_le h1 (le_of_roundShiftRight_eq_two_pow hv hsum htop)

/-! ### Saturate and clamp -/

/-- Settles O28: `saturate` is a minimum, and `clamp` the middle of three. -/
theorem saturateAndClampStayInRange : Obligations.SaturateAndClampStayInRange := by
  refine ⟨fun value max => ⟨rfl, ?_⟩, by decide, by decide, fun v lo hi hle => ⟨rfl, ?_⟩, by decide⟩
  · rw [saturate_eq_min]
    exact Nat.min_le_right _ _
  · rw [clamp_eq v lo hi hle]
    omega

/-! ### `decompose` -/

/-- The normative deployment takes subnormals by their value, so its scan of an input is `decompose` (40_bit_utilities.md
R82). -/
theorem decomposeInput_normative (d : BitVec 24) (w : Word) : decomposeInput Config.normative d w = decompose d w :=
  if_neg fun h => Bool.noConfusion h.1

theorem decompose_sign (d : BitVec 24) (w : Word) : (decompose d w).sign = w.sign := by
  unfold decompose
  split_ifs <;> rfl

theorem decompose_normal (d : BitVec 24) {w : Word} (h : w.normal = true) :
    decompose d w = ⟨w.sign, some ((w.expField : Int) - 127), 2 ^ 23 + w.fracField⟩ := by
  rw [← decomposeInput_normative, decomposeInput_normal _ d h]

theorem decompose_zero (d : BitVec 24) {w : Word} (h : w.isZero = true) : decompose d w = ⟨w.sign, none, 0⟩ := by
  simp only [Word.isZero, Bool.and_eq_true, beq_iff_eq] at h
  simp [decompose, h.1, h.2]

theorem decompose_subnormal (d : BitVec 24) {w : Word} (he : w.expField = 0) (hf : w.fracField ≠ 0) :
    decompose d w = ⟨w.sign, some (-126), w.fracField⟩ := by
  simp [decompose, he, hf]

theorem decompose_nonFinite (d : BitVec 24) {w : Word} (h : w.finite = false) :
    decompose d w = ⟨w.sign, some 127, d.toNat⟩ := by
  simp only [Word.finite, bne_eq_false_iff_eq] at h
  simp [decompose, h]

theorem decompose_of_finite (d : BitVec 24) {w : Word} (h : w.finite = true) : decompose d w = decompose 0 w := by
  rw [← decomposeInput_normative, decomposeInput_of_finite _ d h, decomposeInput_normative]

/-- The exact value of a word with an exponent (40_bit_utilities.md R92). -/
theorem decompose_value {w : Word} {e : Int} (hf : w.finite = true) (he : (decompose 0 w).exp = some e) :
    f32val w = signed w.sign (((decompose 0 w).mant : ℚ) * pow2 (e - 23)) ∧
      0 < (decompose 0 w).mant ∧ (decompose 0 w).mant < 2 ^ 24 := by
  rw [← decomposeInput_normative] at he ⊢
  obtain ⟨hval, -, hpos, hlt, -⟩ := decomposeInput_value hf he
  exact ⟨hval, hpos, hlt⟩

/-- Settles O29: a rule of `decompose` for each class of word; only a non-finite word looks at its draw. -/
theorem decomposeGivesFieldsAndValue : Obligations.DecomposeGivesFieldsAndValue := by
  refine fun d w => ⟨decompose_sign d w, fun h => ?_, fun h => ?_, fun he hf => ?_, fun h => ?_, fun e hf he => ?_⟩
  · rw [decompose_normal d h]
    exact ⟨rfl, rfl⟩
  · rw [decompose_zero d h]
    exact ⟨rfl, rfl, f32val_zero h⟩
  · rw [decompose_subnormal d he hf]
    exact ⟨rfl, rfl⟩
  · rw [decompose_nonFinite d h]
    exact ⟨rfl, rfl⟩
  · rw [decompose_of_finite d hf] at he ⊢
    exact decompose_value hf he

end Sys2Proof.Machine
end

section
/-!
Proofs about `encode`: the zero Block, the shared exponent, the stored elements of finite and of non-finite words, the
quantisation error, and the round trip through `decode` (10_state.md R26, 41_codec.md R101 to R120).
-/

namespace Sys2Proof.Machine

open Sys2Proof

/-! ### The zero Block -/

theorem finite_of_expField_eq_zero {w : Word} (h : w.expField = 0) : w.finite = true := by
  simp [Word.finite, h]

/-- A finite word counts as zero when it is one or, where the deployment flushes subnormals, when it has no normal
exponent (41_codec.md R101, D11). -/
theorem decomposeInput_exp_eq_none_iff {cfg : Config} {w : Word} (hf : w.finite = true) :
    (decomposeInput cfg 0 w).exp = none ↔ w.isZero = true ∨ (cfg.flushSubnormalInput = true ∧ w.expField = 0) := by
  by_cases hflush : cfg.flushSubnormalInput = true ∧ w.expField = 0
  · simp [decomposeInput, hflush]
  · rw [decomposeInput, if_neg hflush, or_iff_left hflush]
    rcases finite_cases hf with hz | ⟨he, hfr⟩ | hn
    · rw [decompose_zero 0 hz]
      simp [hz]
    · rw [decompose_subnormal 0 he hfr]
      simp [Word.isZero, hfr]
    · rw [decompose_normal 0 hn, ← f32val_eq_zero_iff hf]
      simp [f32val_ne_zero_of_normal hn]

/-- Words that all count as zero are encoded as the canonical zero Block (41_codec.md R102). -/
theorem encodeBlock_of_all_zero {cfg : Config} (draw : Nat → BitVec 24) {ws : List Word}
    (h : ∀ w ∈ ws, w.isZero = true ∨ (cfg.flushSubnormalInput = true ∧ w.expField = 0)) :
    encodeBlock cfg draw ws = Block.zero cfg.n := by
  have hf : ∀ w ∈ ws, w.finite = true := fun w hw => (h w hw).elim
    (fun hz => finite_of_zeroOrNormal (Or.inl hz)) (fun hs => finite_of_expField_eq_zero hs.2)
  exact encodeBlock_of_no_exp hf fun w hw => (decomposeInput_exp_eq_none_iff (hf w hw)).2 (h w hw)

/-- Settles O34: no element has an exponent, so the scan ends in the zero Block. -/
theorem encodeOfZerosIsZeroBlock : Obligations.EncodeOfZerosIsZeroBlock :=
  fun _ draw _ _ h => encodeBlock_of_all_zero draw fun w hw => Or.inl (h w hw)

/-- A word subtracted from itself is `+0.0`, which is all `encode` is given (42_arith_addsub.md R133). -/
theorem fsub32_self (x : Word) : fsub32 x x = 0 := by rw [fsub32, sub_self, rnd32_zero]

/-- Settles O52: every lane of the difference is `+0.0`. -/
theorem subOfItselfIsZeroBlock : Obligations.SubOfItselfIsZeroBlock := by
  intro cfg draw A _ _
  refine encodeBlock_of_all_zero draw fun w hw => Or.inl ?_
  rw [List.zipWith_self] at hw
  obtain ⟨x, -, rfl⟩ := List.mem_map.1 hw
  rw [fsub32_self]
  decide

/-! ### The shared exponent -/

theorem cast_two_pow_sub_one (k : Nat) : ((2 ^ k - 1 : Nat) : Int) = 2 ^ k - 1 := by
  rw [Nat.cast_sub Nat.one_le_two_pow]
  norm_cast

theorem cast_sharedExp (cfg : Config) (mx : Int) : (sharedExp cfg mx : Int) = clamp (mx + cfg.bias) 0 cfg.emax := by
  rw [sharedExp, clamp_eq _ _ _ (by omega)]
  omega

/-- Settles O35, from the value of `encode` at a known maximum exponent; the three cases are those of the clamp. -/
theorem encodeSharedExponent : Obligations.EncodeSharedExponent := by
  intro cfg draw ws mx _ hf hmx
  have hexp : ((encodeBlock cfg draw ws).exp : Int) = clamp (mx + cfg.bias) 0 cfg.emax := by
    rw [encodeBlock_of_isMaxExp hf hmx, cast_sharedExp]
  refine ⟨?_, ?_⟩
  · rw [hexp, Config.bias, Config.emax, cast_two_pow_sub_one, cast_two_pow_sub_one]
  · rintro rfl
    have hbias : Config.normative.bias = 15 := rfl
    have hemax : Config.normative.emax = 31 := rfl
    rw [hbias, hemax, clamp_eq _ _ _ (by norm_num)] at hexp
    omega

/-! ### Stored elements -/

/-- The scan of finite words (41_codec.md R101). -/
theorem isMaxExp_iff {cfg : Config} {ws : List Word} {mx : Int} :
    isMaxExp cfg ws mx ↔ maxExp (ws.map (decomposeInput cfg 0)) = some mx := by
  simp [maxExp_eq_some, isMaxExp]

theorem encodeElem_of_no_exp (cfg : Config) (mx : Int) {d : Decomposed} (h : d.exp = none) :
    encodeElem cfg mx d = ⟨false, 0⟩ := by rw [encodeElem, h]; rfl

/-- `el` is what a finite word is stored as, against the maximum exponent `mx`: the zero element where the word counts
as zero, else the nearest multiple of the quantum, saturated, under the word's sign (41_codec.md R104 to R108). -/
def StoredAs (cfg : Config) (mx : Int) (w : Word) (el : Elem) : Prop :=
  ((decomposeInput cfg 0 w).exp = none → el = ⟨false, 0⟩) ∧
    ((decomposeInput cfg 0 w).exp ≠ none →
      ∃ r m, nearestEven (|f32val w| / pow2 (mx - cfg.wm)) r ∧ m = min r cfg.mmax ∧ el = ⟨storedSign cfg w.sign m, m⟩)

theorem encodeElem_storedAs {cfg : Config} (hl : cfg.legal = true) {mx : Int} {w : Word} (hf : w.finite = true)
    (hle : ∀ e, (decomposeInput cfg 0 w).exp = some e → e ≤ mx) :
    StoredAs cfg mx w (encodeElem cfg mx (decomposeInput cfg 0 w)) := by
  refine ⟨encodeElem_of_no_exp cfg mx, fun hne => ?_⟩
  obtain ⟨e, he⟩ := Option.ne_none_iff_exists'.1 hne
  exact ⟨_, _, nearestEven_rne (div_nonneg (abs_nonneg _) (pow2_pos _).le), rfl, encodeElem_eq_rne hl hf he (hle e he)⟩

/-- Each lane of a Block encoded from finite words. -/
theorem encodeBlock_getElem?_of_isMaxExp {cfg : Config} (hl : cfg.legal = true) {draw : Nat → BitVec 24}
    {ws : List Word} {mx : Int} {i : Nat} {w : Word} (hf : ∀ v ∈ ws, v.finite = true) (hmx : isMaxExp cfg ws mx)
    (hw : ws[i]? = some w) : ∃ el, (encodeBlock cfg draw ws).elems[i]? = some el ∧ StoredAs cfg mx w el := by
  have hmem : w ∈ ws := List.mem_of_getElem? hw
  refine ⟨_, ?_, encodeElem_storedAs hl (hf w hmem) (hmx.2 w hmem)⟩
  rw [encodeBlock_of_isMaxExp hf hmx, List.getElem?_map, hw, Option.map_some]

/-- Settles O36: the lanes at a known maximum exponent, what counts as zero, and the zero Block. -/
theorem encodeStoredElement : Obligations.EncodeStoredElement := by
  refine ⟨fun cfg draw ws mx i w hl hf hmx hw => ?_, fun cfg w hf => decomposeInput_exp_eq_none_iff hf,
    fun cfg draw ws _ h => encodeBlock_of_all_zero draw h⟩
  obtain ⟨el, hel, hzero, hnonzero⟩ := encodeBlock_getElem?_of_isMaxExp (draw := draw) hl hf hmx hw
  simp only [hel, Option.some.injEq]
  exact ⟨hzero, hnonzero⟩

/-! ### Non-finite words -/

theorem decomposeInput_nonFinite (cfg : Config) (d : BitVec 24) {w : Word} (h : w.finite = false) :
    decomposeInput cfg d w = ⟨w.sign, some 127, d.toNat⟩ := by
  have hexp : w.expField = 255 := by simpa [Word.finite] using h
  rw [decomposeInput, if_neg (by omega), decompose_nonFinite d h]

theorem decomposeInput_exp_le (cfg : Config) {d : BitVec 24} {w : Word} {e : Int}
    (h : (decomposeInput cfg d w).exp = some e) : e ≤ 127 := by
  cases hf : w.finite with
  | false =>
    rw [decomposeInput_nonFinite cfg d hf] at h
    cases h
    exact le_rfl
  | true =>
    rw [decomposeInput_of_finite cfg d hf] at h
    obtain ⟨-, -, -, -, -, hle⟩ := decomposeInput_value hf h
    exact hle

/-- A non-finite word puts the maximum exponent at 127, whose shared exponent is clamped to `EMAX` (41_codec.md
R110). -/
theorem encodeBlock_of_nonFinite {cfg : Config} (hl : cfg.legal = true) (draw : Nat → BitVec 24) {ws : List Word}
    (h : ∃ w ∈ ws, w.finite = false) :
    encodeBlock cfg draw ws =
      ⟨cfg.emax, ws.mapIdx fun i w => encodeElem cfg 127 (decomposeInput cfg (draw i) w)⟩ := by
  have hmax : maxExp (ws.mapIdx fun i w => decomposeInput cfg (draw i) w) = some 127 := by
    obtain ⟨w, hw, hnf⟩ := h
    obtain ⟨i, hi, rfl⟩ := List.getElem_of_mem hw
    refine maxExp_eq_some.2 ⟨⟨_, List.mem_mapIdx.2 ⟨i, hi, rfl⟩, by rw [decomposeInput_nonFinite cfg _ hnf]⟩, ?_⟩
    intro d hd e he
    obtain ⟨j, hj, rfl⟩ := List.mem_mapIdx.1 hd
    exact decomposeInput_exp_le cfg he
  have hshared : sharedExp cfg 127 = cfg.emax := by
    have hbias := bias_range hl
    have hemax := emax_eq hl
    rw [sharedExp, clamp_eq _ _ _ (by omega)]
    omega
  have hmap : (ws.mapIdx fun i w => decomposeInput cfg (draw i) w).map (encodeElem cfg 127) =
      ws.mapIdx fun i w => encodeElem cfg 127 (decomposeInput cfg (draw i) w) :=
    List.ext_getElem? fun i => by simp [Function.comp_def]
  rw [encodeBlock, encodeDecomposed, hmax]
  simp only [hshared, hmap]

/-- A non-finite word is stored under its own sign with a mantissa made from its draw (41_codec.md R110). -/
theorem encodeElem_nonFinite {cfg : Config} (hl : cfg.legal = true) (d : BitVec 24) {w : Word} (h : w.finite = false) :
    encodeElem cfg 127 (decomposeInput cfg d w) =
      ⟨storedSign cfg w.sign (min (rneDiv d.toNat (2 ^ (23 - cfg.wm))) cfg.mmax),
        min (rneDiv d.toNat (2 ^ (23 - cfg.wm))) cfg.mmax⟩ := by
  rw [decomposeInput_nonFinite cfg d h]
  have hmant := encodeElem_mant (d := ⟨w.sign, some 127, d.toNat⟩) hl rfl d.isLt le_rfl
  rw [sub_self, Int.toNat_zero, add_zero] at hmant
  rw [← hmant]
  rfl

/-- Every mantissa of the field comes from some draw. -/
theorem exists_draw_of_mant {cfg : Config} (hl : cfg.legal = true) {m : Nat} (hm : m ≤ cfg.mmax) :
    ∃ d : BitVec 24, min (rneDiv d.toNat (2 ^ (23 - cfg.wm))) cfg.mmax = m := by
  obtain ⟨-, -, -, -, hw⟩ := legal_ranges hl
  have hlt : m * 2 ^ (23 - cfg.wm) < 2 ^ 24 := by
    calc m * 2 ^ (23 - cfg.wm) < 2 ^ (cfg.wm + 1) * 2 ^ (23 - cfg.wm) :=
          Nat.mul_lt_mul_of_pos_right (by have := mmax_succ cfg; omega) (by positivity)
      _ = 2 ^ 24 := by rw [← pow_add]; congr 1; omega
  refine ⟨BitVec.ofNat 24 (m * 2 ^ (23 - cfg.wm)), ?_⟩
  rw [BitVec.toNat_ofNat, Nat.mod_eq_of_lt hlt, rneDiv_mul_self (by positivity), min_eq_left hm]

/-- Settles O37: the maximum exponent is 127, so finite lanes are stored against it, and a non-finite lane from its
draw. -/
theorem encodeOfNonFinite : Obligations.EncodeOfNonFinite := by
  intro cfg draw ws hl hlen hnf
  have hlane : ∀ (draw : Nat → BitVec 24) {i : Nat} {w : Word}, ws[i]? = some w →
      (encodeBlock cfg draw ws).elems[i]? = some (encodeElem cfg 127 (decomposeInput cfg (draw i) w)) := by
    intro draw i w hw
    rw [encodeBlock_of_nonFinite hl draw hnf, List.getElem?_mapIdx, hw, Option.map_some]
  refine ⟨encodeBlock_isLegal draw hlen, by rw [encodeBlock_of_nonFinite hl draw hnf], fun i w hw => ?_⟩
  have hfinite : w.finite = true → StoredAs cfg 127 w (encodeElem cfg 127 (decomposeInput cfg (draw i) w)) := by
    intro hf
    rw [decomposeInput_of_finite cfg _ hf]
    exact encodeElem_storedAs hl hf fun e => decomposeInput_exp_le cfg
  simp only [hlane _ hw, Option.some.injEq]
  refine ⟨fun hf => (hfinite hf).1, fun hf => (hfinite hf).2, fun hf => ⟨?_, fun m hm => ?_⟩⟩
  · exact ⟨_, min_le_right _ _, encodeElem_nonFinite hl (draw i) hf⟩
  · obtain ⟨d, hd⟩ := exists_draw_of_mant hl hm
    refine ⟨fun _ => d, ?_⟩
    rw [encodeElem_nonFinite hl d hf, hd]
    rfl

/-! ### Normalised Blocks -/

theorem exists_isMaxExp {cfg : Config} {ws : List Word} (h : ∃ w ∈ ws, (decomposeInput cfg 0 w).exp ≠ none) :
    ∃ mx, isMaxExp cfg ws mx := by
  obtain ⟨w, hw, hne⟩ := h
  obtain ⟨mx, hmx⟩ := Option.ne_none_iff_exists'.1 fun hnone =>
    hne (maxExp_eq_none.1 hnone _ (List.mem_map_of_mem hw))
  exact ⟨mx, isMaxExp_iff.2 hmx⟩

theorem decomposeInput_exp_of_not_normal {cfg : Config} {w : Word} {e : Int} (hf : w.finite = true)
    (hn : ¬ w.normal = true) (he : (decomposeInput cfg 0 w).exp = some e) : e = -126 := by
  rcases finite_cases hf with hz | ⟨h0, hfr⟩ | hn'
  · rw [decomposeInput_isZero cfg 0 hz] at he
    cases he
  · rw [decomposeInput] at he
    split at he
    · cases he
    · rw [decompose_subnormal 0 h0 hfr] at he
      exact (Option.some.inj he).symm
  · exact absurd hn' hn

/-- The maximum exponent is that of a normal word where there is one: a subnormal's exponent is the least of all. -/
theorem exists_normal_at_maxExp {cfg : Config} {ws : List Word} {mx : Int} (hf : ∀ w ∈ ws, w.finite = true)
    (hn : ∃ w ∈ ws, w.normal = true) (hmx : isMaxExp cfg ws mx) :
    ∃ w ∈ ws, w.normal = true ∧ (w.expField : Int) - 127 = mx := by
  obtain ⟨⟨top, htop, hexp⟩, hmax⟩ := hmx
  obtain ⟨w, hw, hwn⟩ := hn
  have hwmx : (w.expField : Int) - 127 ≤ mx := hmax w hw _ (by rw [decomposeInput_normal cfg 0 hwn])
  by_cases htn : top.normal = true
  · rw [decomposeInput_normal cfg 0 htn] at hexp
    exact ⟨top, htop, htn, Option.some.inj hexp⟩
  · have hmx : mx = -126 := decomposeInput_exp_of_not_normal (hf top htop) htn hexp
    have hw1 : w.expField ≠ 0 := by
      simp only [Word.normal, Bool.and_eq_true, bne_iff_ne, ne_eq] at hwn
      exact hwn.1
    exact ⟨w, hw, hwn, by omega⟩

/-- A normal word at the maximum exponent keeps its leading one (41_codec.md R104). -/
theorem two_pow_wm_le_encodeElem_mant {cfg : Config} (hl : cfg.legal = true) {w : Word} (hn : w.normal = true) :
    2 ^ cfg.wm ≤ (encodeElem cfg ((w.expField : Int) - 127) (decomposeInput cfg 0 w)).mant := by
  obtain ⟨-, -, -, -, hw⟩ := legal_ranges hl
  have hexp : (decomposeInput cfg 0 w).exp = some ((w.expField : Int) - 127) := by rw [decomposeInput_normal cfg 0 hn]
  rw [encodeElem_mant hl hexp (decomposeInput_mant_lt cfg 0 w) le_rfl, sub_self, Int.toNat_zero, add_zero]
  refine le_min ?_ (by have := mmax_succ cfg; omega)
  calc 2 ^ cfg.wm = rneDiv (2 ^ cfg.wm * 2 ^ (23 - cfg.wm)) (2 ^ (23 - cfg.wm)) :=
        (rneDiv_mul_self (by positivity)).symm
    _ ≤ rneDiv (decomposeInput cfg 0 w).mant (2 ^ (23 - cfg.wm)) := rneDiv_mono (by positivity) ?_
  rw [decomposeInput_normal cfg 0 hn, ← pow_add, Nat.add_sub_cancel' hw]
  exact Nat.le_add_right _ _

/-- A Block encoded from finite words, one of them normal, is normalised (10_state.md R26). -/
theorem encodeBlock_normalised {cfg : Config} (hl : cfg.legal = true) (draw : Nat → BitVec 24) {ws : List Word}
    (hf : ∀ w ∈ ws, w.finite = true) (hn : ∃ w ∈ ws, w.normal = true) :
    ∃ el ∈ (encodeBlock cfg draw ws).elems, 2 ^ cfg.wm ≤ el.mant ∧ el.mant ≤ cfg.mmax := by
  obtain ⟨mx, hmx⟩ : ∃ mx, isMaxExp cfg ws mx := by
    obtain ⟨w, hw, hwn⟩ := hn
    exact exists_isMaxExp ⟨w, hw, by rw [decomposeInput_normal cfg 0 hwn]; exact Option.some_ne_none _⟩
  obtain ⟨w, hw, hwn, rfl⟩ := exists_normal_at_maxExp hf hn hmx
  rw [encodeBlock_of_isMaxExp hf hmx]
  exact ⟨_, List.mem_map_of_mem hw, two_pow_wm_le_encodeElem_mant hl hwn, encodeElem_mant_le _ _ _⟩

/-- Settles O39: zeros and normal numbers are finite. -/
theorem encodedBlockIsNormalised : Obligations.EncodedBlockIsNormalised :=
  fun _ draw _ hl h hn => encodeBlock_normalised hl draw (fun w hw => finite_of_zeroOrNormal (h w hw)) hn

/-! ### The quantisation error -/

/-- A nearest integer saturated at `M`: below `M + 1/2` saturation changes nothing, from there on it gives `M`. -/
theorem nearestEven_saturated {x : ℚ} {r M : Nat} (h : nearestEven x r) :
    (x < M + 1 / 2 → |((min r M : Nat) : ℚ) - x| ≤ 1 / 2) ∧
      ((M : ℚ) + 1 / 2 ≤ x → x < M + 1 → min r M = M ∧ |((min r M : Nat) : ℚ) - x| < 1) := by
  obtain ⟨hlo, hhi⟩ := abs_le.1 h.1
  refine ⟨fun hx => ?_, fun hx hx1 => ?_⟩
  · have hr : (r : ℚ) < (M + 1 : Nat) := by push_cast; linarith
    rw [min_eq_left (Nat.lt_succ_iff.1 (Nat.cast_lt.1 hr))]
    exact h.1
  · have hr : (M : ℚ) ≤ r := by linarith
    rw [min_eq_right (Nat.cast_le.1 hr)]
    exact ⟨rfl, abs_lt.2 ⟨by linarith, by linarith⟩⟩

/-- A finite word that is not normal is below the smallest normal number. -/
theorem abs_f32val_lt_of_not_normal {w : Word} (hf : w.finite = true) (hn : ¬ w.normal = true) :
    |f32val w| < pow2 (-126) := by
  rcases finite_cases hf with hz | ⟨he, hfr⟩ | hn'
  · rw [f32val_zero hz, abs_zero]
    exact pow2_pos _
  · have hfrac : (w.fracField : ℚ) < pow2 (23 : Nat) := by
      rw [pow2_natCast]
      exact_mod_cast fracField_lt w
    rw [f32val_subnormal he hfr, abs_signed, abs_of_nonneg (mul_nonneg (Nat.cast_nonneg _) (pow2_pos _).le)]
    calc (w.fracField : ℚ) * pow2 (-149) < pow2 (23 : Nat) * pow2 (-149) := mul_lt_mul_of_pos_right hfrac (pow2_pos _)
      _ = pow2 (-126) := by rw [← pow2_add]; rfl
  · exact absurd hn' hn

/-- A word that counts as zero is below half a quantum where the exponent is not clamped at 0. -/
theorem abs_f32val_div_quantum_lt_of_no_exp {cfg : Config} (hl : cfg.legal = true) {mx : Int}
    (hmx : 0 ≤ mx + cfg.bias) {w : Word} (hf : w.finite = true) (hnone : (decomposeInput cfg 0 w).exp = none) :
    |f32val w| / pow2 (mx - cfg.wm) < 1 / 2 := by
  have hn : ¬ w.normal = true := by
    intro hn
    rw [decomposeInput_normal cfg 0 hn] at hnone
    cases hnone
  have hle : pow2 (-126) ≤ pow2 (mx - cfg.wm - 1) := pow2_le_pow2.2 (by
    have hbias := bias_range hl
    have hranges := legal_ranges hl
    omega)
  rw [pow2_sub _ 1, pow2_one] at hle
  rw [div_lt_iff₀ (pow2_pos _)]
  linarith [abs_f32val_lt_of_not_normal hf hn]

/-- A word that counts as nonzero is below two to its exponent and one, so at most one quantum above `MMAX`. -/
theorem abs_f32val_div_quantum_lt_of_exp_le {cfg : Config} {mx e : Int} {w : Word} (hf : w.finite = true)
    (he : (decomposeInput cfg 0 w).exp = some e) (hle : e ≤ mx) :
    |f32val w| / pow2 (mx - cfg.wm) < (cfg.mmax : ℚ) + 1 := by
  have hmant : ((decomposeInput cfg 0 w).mant : ℚ) < pow2 (24 : Nat) := by
    rw [pow2_natCast]
    exact_mod_cast decomposeInput_mant_lt cfg 0 w
  rw [div_lt_iff₀ (pow2_pos _)]
  calc |f32val w| = ((decomposeInput cfg 0 w).mant : ℚ) * pow2 (e - 23) := abs_f32val_of_exp hf he
    _ < pow2 (24 : Nat) * pow2 (e - 23) := mul_lt_mul_of_pos_right hmant (pow2_pos _)
    _ ≤ pow2 (mx + 1) := by rw [← pow2_add]; exact pow2_le_pow2.2 (by push_cast; omega)
    _ = pow2 (cfg.wm + 1 : Nat) * pow2 (mx - cfg.wm) := by rw [← pow2_add]; congr 1; push_cast; ring
    _ = ((cfg.mmax : ℚ) + 1) * pow2 (mx - cfg.wm) := by rw [pow2_natCast, ← mmax_succ]; push_cast; rfl

/-- Where the exponent is not clamped at 0, every finite word, one that counts as zero included, is stored as its
nearest multiple of the quantum, saturated at `MMAX`, and is itself below `MMAX + 1` quanta. -/
theorem StoredAs.mant_eq_nearest {cfg : Config} (hl : cfg.legal = true) {mx : Int} (hmx : 0 ≤ mx + cfg.bias) {w : Word}
    {el : Elem} (hf : w.finite = true) (hle : ∀ e, (decomposeInput cfg 0 w).exp = some e → e ≤ mx)
    (h : StoredAs cfg mx w el) :
    ∃ r, nearestEven (|f32val w| / pow2 (mx - cfg.wm)) r ∧ el.mant = min r cfg.mmax ∧
      |f32val w| / pow2 (mx - cfg.wm) < (cfg.mmax : ℚ) + 1 := by
  obtain ⟨hzero, hnonzero⟩ := h
  cases hexp : (decomposeInput cfg 0 w).exp with
  | none =>
    have hsmall := abs_f32val_div_quantum_lt_of_no_exp hl hmx hf hexp
    have hnonneg : 0 ≤ |f32val w| / pow2 (mx - cfg.wm) := div_nonneg (abs_nonneg _) (pow2_pos _).le
    have hmmax : (0 : ℚ) ≤ cfg.mmax := Nat.cast_nonneg _
    have habs : |((0 : Nat) : ℚ) - |f32val w| / pow2 (mx - cfg.wm)| = |f32val w| / pow2 (mx - cfg.wm) := by
      rw [Nat.cast_zero, zero_sub, abs_neg, abs_of_nonneg hnonneg]
    refine ⟨0, ⟨habs.trans_le hsmall.le, fun _ => rfl⟩, ?_, by linarith⟩
    rw [hzero hexp, Nat.zero_min]
  | some e =>
    obtain ⟨r, m, hr, rfl, rfl⟩ := hnonzero (by rw [hexp]; exact Option.some_ne_none _)
    exact ⟨r, hr, rfl, abs_f32val_div_quantum_lt_of_exp_le hf hexp (hle e hexp)⟩

/-- Settles O40: in units of the quantum, the error is that of a nearest integer, saturated. -/
theorem quantisationErrorBound : Obligations.QuantisationErrorBound := by
  intro cfg draw ws mx i w el hl hf hmx hlo _ hw hel
  have hmem : w ∈ ws := List.mem_of_getElem? hw
  obtain ⟨el', hel', hstored⟩ := encodeBlock_getElem?_of_isMaxExp (draw := draw) hl hf hmx hw
  obtain rfl : el' = el := Option.some.inj (hel'.symm.trans hel)
  obtain ⟨r, hr, hmant, hlt⟩ := hstored.mant_eq_nearest hl hlo (hf w hmem) (hmx.2 w hmem)
  obtain ⟨hnear, hsaturated⟩ := nearestEven_saturated (M := cfg.mmax) hr
  have hQ : 0 < pow2 (mx - cfg.wm) := pow2_pos _
  have herror : abs ((el'.mant : ℚ) * pow2 (mx - cfg.wm) - |f32val w|) =
      |((min r cfg.mmax : Nat) : ℚ) - |f32val w| / pow2 (mx - cfg.wm)| * pow2 (mx - cfg.wm) := by
    rw [hmant, ← abs_of_pos hQ, ← abs_mul, abs_of_pos hQ, sub_mul, div_mul_cancel₀ _ hQ.ne']
  rw [herror, hmant]
  refine ⟨fun hx => ?_, fun hx => ?_⟩
  · linarith [mul_le_mul_of_nonneg_right (hnear ((div_lt_iff₀ hQ).2 hx)) hQ.le]
  · obtain ⟨hmax, hone⟩ := hsaturated ((le_div_iff₀ hQ).2 hx) hlt
    exact ⟨hmax, by linarith [mul_lt_mul_of_pos_right hone hQ]⟩

/-! ### `encode` after `decode` -/

/-- The canonical form differs from the Block exactly in the elements `(1, 0)` (41_codec.md R118). -/
theorem canonBlock_eq_self_iff {B : Block} : canonBlock B = B ↔ ∀ el ∈ B.elems, el ≠ ⟨true, 0⟩ := by
  have helem : ∀ el : Elem, (if el.mant = 0 then Elem.zero else el) = el ↔ el ≠ ⟨true, 0⟩ := by
    rintro ⟨_ | _, m⟩ <;> simp [Elem.zero, eq_comm]
  obtain ⟨e, els⟩ := B
  simp only [canonBlock, Block.mk.injEq, true_and, ← helem]
  exact ⟨fun h el hel => List.map_inj_left.1 (h.trans (List.map_id els).symm) el hel,
    fun h => (List.map_congr_left h).trans (List.map_id els)⟩

theorem canonBlock_zero (n : Nat) : canonBlock (Block.zero n) = Block.zero n :=
  canonBlock_eq_self_iff.2 fun el hel => by
    rw [List.eq_of_mem_replicate hel]
    decide

/-- The zero Block decodes to zeros, which are encoded as the zero Block (41_codec.md R102, R115). -/
theorem encodeBlock_decodeBlock_zero (cfg : Config) (draw : Nat → BitVec 24) (n : Nat) :
    encodeBlock cfg draw (decodeBlock cfg (Block.zero n)) = Block.zero cfg.n := by
  refine encodeBlock_of_all_zero draw fun w hw => Or.inl ?_
  obtain ⟨el, hel, rfl⟩ := List.mem_map.1 hw
  exact (decodeElem_zero (by rw [List.eq_of_mem_replicate hel]; rfl)).1

/-- A normalised Block is only made canonical (10_state.md R26, 41_codec.md R118). -/
theorem encodeBlock_decodeBlock_of_normalised {cfg : Config} (hl : cfg.legal = true) (draw : Nat → BitVec 24)
    {B : Block} (hB : B.legal cfg = true) (hn : ∃ el ∈ B.elems, 2 ^ cfg.wm ≤ el.mant) :
    encodeBlock cfg draw (decodeBlock cfg B) = canonBlock B := by
  obtain ⟨-, -, hm⟩ := block_legal_iff.1 hB
  obtain ⟨el, hel, hle⟩ := hn
  obtain ⟨top, htop, hmax⟩ := B.elems.toFinset.exists_max_image Elem.mant ⟨el, List.mem_toFinset.2 hel⟩
  simp only [List.mem_toFinset] at htop hmax
  have hwm : 2 ^ cfg.wm ≤ top.mant := hle.trans (hmax el hel)
  have hpos : 1 ≤ top.mant := Nat.one_le_two_pow.trans hwm
  have hlog : cfg.wm ≤ Nat.log2 top.mant := (Nat.le_log2 (by omega)).2 hwm
  rw [encodeBlock_decodeBlock hl draw hB htop hmax hpos, Nat.sub_eq_zero_of_le hlog]
  rfl

/-- The rule's example of a failure at `(1, 0)`: `-2^-8` beside 1.0 (41_codec.md R118). -/
theorem reencode_example_negative_zero (draw : Nat → BitVec 24) :
    encodeBlock Config.normative draw (0x3F800000 :: 0xBB800000 :: List.replicate 14 0) =
        ⟨15, ⟨false, 0x80⟩ :: ⟨true, 0⟩ :: List.replicate 14 ⟨false, 0⟩⟩ ∧
      encodeBlock Config.normative draw
          (decodeBlock Config.normative ⟨15, ⟨false, 0x80⟩ :: ⟨true, 0⟩ :: List.replicate 14 ⟨false, 0⟩⟩) =
        ⟨15, ⟨false, 0x80⟩ :: ⟨false, 0⟩ :: List.replicate 14 ⟨false, 0⟩⟩ := by
  refine ⟨?_, ?_⟩
  · rw [encodeBlock_of_finite _ draw (List.all_eq_true.1 (by decide))]
    decide
  · rw [encodeBlock_decodeBlock_of_normalised (by decide) draw (by decide) (by decide)]
    decide

/-- The rule's example of a Block of a subnormal, which renormalises (41_codec.md R118). -/
theorem reencode_example_subnormal (draw : Nat → BitVec 24) :
    encodeBlock Config.normative draw (0x00400000 :: List.replicate 15 0) =
        ⟨0, ⟨false, 0x40⟩ :: List.replicate 15 ⟨false, 0⟩⟩ ∧
      encodeBlock Config.normative draw
          (decodeBlock Config.normative ⟨0, ⟨false, 0x40⟩ :: List.replicate 15 ⟨false, 0⟩⟩) =
        ⟨0, ⟨false, 0x80⟩ :: List.replicate 15 ⟨false, 0⟩⟩ := by
  refine ⟨?_, ?_⟩
  · rw [encodeBlock_of_finite _ draw (List.all_eq_true.1 (by decide))]
    decide
  · rw [encodeBlock_decodeBlock (by decide) draw (by decide) (top := ⟨false, 0x40⟩) (by decide) (by decide) (by decide)]
    decide

/-- Settles O43: the result of `encode` is the zero Block or normalised, and re-encoding makes either canonical. -/
theorem reencodeIsCanonical : Obligations.ReencodeIsCanonical := by
  refine ⟨fun cfg draw draw' v hl hlen hf hcase => ?_,
    fun draw => ⟨reencode_example_negative_zero draw, reencode_example_subnormal draw⟩⟩
  have hcanon : encodeBlock cfg draw' (decodeBlock cfg (encodeBlock cfg draw v)) =
      canonBlock (encodeBlock cfg draw v) := by
    rcases hcase with hzero | hnormal
    · rw [encodeBlock_of_all_zero draw fun w hw => Or.inl (hzero w hw), encodeBlock_decodeBlock_zero, canonBlock_zero]
    · obtain ⟨el, hel, hle, -⟩ := encodeBlock_normalised hl draw hf hnormal
      exact encodeBlock_decodeBlock_of_normalised hl draw' (encodeBlock_isLegal draw hlen) ⟨el, hel, hle⟩
  exact ⟨hcanon, hcanon ▸ canonBlock_eq_self_iff⟩

end Sys2Proof.Machine
end

section
/-!
Proofs about the arithmetic engine's float intermediates: ADD commutes but does not associate, SUB is ADD of the negated
Block, and sums, differences, products, quotients and reciprocals of decoded elements are rounded exact values in the
normal range (42_arith_addsub.md R135 to R137, 43_arith_muldivrecip.md R156).
-/

namespace Sys2Proof.Machine

open Sys2Proof

/-! ### ADD commutes and does not associate -/

theorem fadd32_comm (x y : Word) : fadd32 x y = fadd32 y x := by rw [fadd32, fadd32, add_comm]

/-- A commutative float primitive makes a commutative operation on Blocks. -/
theorem referenceOp_comm (cfg : Config) (draw : Nat → BitVec 24) {fop : Word → Word → Word}
    (h : ∀ x y, fop x y = fop y x) (A B : Block) : referenceOp cfg draw fop A B = referenceOp cfg draw fop B A := by
  rw [referenceOp, List.zipWith_comm, funext₂ fun y x => h x y, referenceOp]

theorem addBlock_isLegal {cfg : Config} {draw : Nat → BitVec 24} {A B : Block} (hA : A.legal cfg = true)
    (hB : B.legal cfg = true) : (addBlock cfg draw A B).legal cfg = true := referenceOp_legal hA hB

/-- The Block of sixteen elements of mantissa 128, which at the defaults are all `2^(e - 15)`. -/
def powerBlock (e : Nat) : Block := ⟨e, List.replicate 16 ⟨false, 128⟩⟩

theorem powerBlock_isLegal {e : Nat} (h : e ≤ 31) : (powerBlock e).legal Config.normative = true :=
  block_legal_iff.2 ⟨h, rfl, fun x hx => by rw [List.eq_of_mem_replicate hx]; decide⟩

/-- Two halves are lost to 128, whose quantum is 1, one after the other, but not their sum (42_arith_addsub.md R136). -/
theorem addBlock_not_assoc (draw : Nat → BitVec 24) :
    addBlock Config.normative draw (addBlock Config.normative draw (powerBlock 22) (powerBlock 14)) (powerBlock 14) ≠
      addBlock Config.normative draw (powerBlock 22)
        (addBlock Config.normative draw (powerBlock 14) (powerBlock 14)) := by
  have hfixed : ∀ {A B : Block}, A.legal Config.normative = true → B.legal Config.normative = true →
      addBlock Config.normative draw A B = addBlock Config.normative (fun _ => 0) A B := fun hA hB =>
    ((noDrawReachesFiniteResults Config.normative draw (fun _ => 0) (by decide)).2 _ _ hA hB).1
  have hlarge : (powerBlock 22).legal Config.normative = true := powerBlock_isLegal (by norm_num)
  have hhalf : (powerBlock 14).legal Config.normative = true := powerBlock_isLegal (by norm_num)
  rw [hfixed hlarge hhalf, hfixed hhalf hhalf, hfixed (addBlock_isLegal hlarge hhalf) hhalf,
    hfixed hlarge (addBlock_isLegal hhalf hhalf)]
  decide +kernel

/-! ### Adding the zero Block -/

/-- A normal word is the rounding of its own value. -/
theorem rnd32_f32val_of_normal {w : Word} (h : w.normal = true) : rnd32 (f32val w) = w := by
  have hfrac := fracField_lt w
  have hexp := expField_lt w
  have hlog : Nat.log2 (2 ^ 23 + w.fracField) = 23 := by rw [Nat.log2_eq_iff (by omega)]; omega
  have hfields := h
  simp only [Word.normal, Bool.and_eq_true, bne_iff_ne, ne_eq] at hfields
  rw [f32val_normal h, rnd32_dyadic _ (by omega) (by omega) (by omega) (by omega), f32exact_of_normal h]

/-- Adding a zero leaves a normal word alone and makes a zero `+0.0`. -/
theorem fadd32_zero {w z : Word} (hw : Word.zeroOrNormal w) (hz : z.isZero = true) :
    fadd32 w z = if w.isZero then 0 else w := by
  rw [fadd32, f32val_zero hz, add_zero]
  split
  · rename_i h0
    rw [f32val_zero h0, rnd32_zero]
  · rename_i h0
    exact rnd32_f32val_of_normal (hw.resolve_left h0)

/-- `encode` sees no more of finite words than the exponents of the scan and the stored elements. -/
theorem encodeBlock_map_congr {cfg : Config} (draw : Nat → BitVec 24) {ws : List Word} {g : Word → Word}
    (hf : ∀ w ∈ ws, w.finite = true ∧ (g w).finite = true)
    (hexp : ∀ w ∈ ws, (decomposeInput cfg 0 (g w)).exp = (decomposeInput cfg 0 w).exp)
    (helem : ∀ w ∈ ws, ∀ mx,
      encodeElem cfg mx (decomposeInput cfg 0 (g w)) = encodeElem cfg mx (decomposeInput cfg 0 w)) :
    encodeBlock cfg draw (ws.map g) = encodeBlock cfg draw ws := by
  have hfg : ∀ w ∈ ws.map g, w.finite = true := List.forall_mem_map.2 fun w hw => (hf w hw).2
  have hscan : maxExp ((ws.map g).map (decomposeInput cfg 0)) = maxExp (ws.map (decomposeInput cfg 0)) := by
    simp only [maxExp, List.map_map, List.filterMap_map]
    exact congrArg _ (List.filterMap_congr hexp)
  have hstored (mx : Int) : ((ws.map g).map (decomposeInput cfg 0)).map (encodeElem cfg mx) =
      (ws.map (decomposeInput cfg 0)).map (encodeElem cfg mx) := by
    simp only [List.map_map]
    exact List.map_congr_left fun w hw => helem w hw mx
  rw [encodeBlock_of_finite cfg draw hfg, encodeBlock_of_finite cfg draw fun w hw => (hf w hw).1]
  simp only [encodeDecomposed, hscan, hstored]

/-- A zero of either sign is stored as the zero element, so `encode` may be given `+0.0` for it (41_codec.md R102). -/
theorem encodeBlock_map_positive_zero (cfg : Config) (draw : Nat → BitVec 24) {ws : List Word}
    (hf : ∀ w ∈ ws, w.finite = true) :
    encodeBlock cfg draw (ws.map fun w => if w.isZero then 0 else w) = encodeBlock cfg draw ws := by
  have hpos : (decomposeInput cfg 0 0).exp = none := decomposeInput_isZero cfg 0 (by decide)
  refine encodeBlock_map_congr draw (fun w hw => ⟨hf w hw, ?_⟩) (fun w _ => ?_) (fun w _ mx => ?_) <;> split
  · decide
  · exact hf w hw
  · rename_i hz
    rw [hpos, decomposeInput_isZero cfg 0 hz]
  · rfl
  · rename_i hz
    rw [encodeElem_of_no_exp cfg mx hpos, encodeElem_of_no_exp cfg mx (decomposeInput_isZero cfg 0 hz)]
  · rfl

theorem decodeBlock_replicate (cfg : Config) (e n : Nat) (el : Elem) :
    decodeBlock cfg ⟨e, List.replicate n el⟩ = List.replicate n (decodeElem cfg e el) := List.map_replicate

/-- ADD of the zero Block makes the zeros of the decoded words positive and leaves the others alone (42_arith_addsub.md
R136). -/
theorem addBlock_zero {cfg : Config} (hl : cfg.legal = true) (draw : Nat → BitVec 24) {A : Block}
    (hA : A.legal cfg = true) :
    addBlock cfg draw A (Block.zero cfg.n) = encodeBlock cfg draw (decodeBlock cfg A) := by
  have hlanes := decodeBlock_zeroOrNormal hl hA
  have hadd : List.zipWith fadd32 (decodeBlock cfg A) (decodeBlock cfg (Block.zero cfg.n)) =
      (decodeBlock cfg A).map fun w => if w.isZero then 0 else w := by
    rw [Block.zero, decodeBlock_replicate, ← decodeBlock_length hA, ← List.map_const', List.zipWith_map_right,
      List.zipWith_self]
    exact List.map_congr_left fun w hw => fadd32_zero (hlanes w hw) (decodeElem_zero rfl).1
  rw [addBlock, referenceOp, hadd,
    encodeBlock_map_positive_zero cfg draw fun w hw => finite_of_zeroOrNormal (hlanes w hw)]

/-- Settles O45, by the commuting primitive, the rule of the zero Block and an absorbed sum. -/
theorem addCommutesAndZeroReencodes : Obligations.AddCommutesAndZeroReencodes :=
  ⟨fun cfg draw => referenceOp_comm cfg draw fadd32_comm, fun _ draw _ hl hA => addBlock_zero hl draw hA,
    powerBlock 22, powerBlock 14, powerBlock 14, powerBlock_isLegal (by norm_num), powerBlock_isLegal (by norm_num),
    powerBlock_isLegal (by norm_num), addBlock_not_assoc⟩

/-! ### SUB is ADD of the negated Block -/

theorem elemValue_negated (cfg : Config) (e : Nat) (el : Elem) :
    elemValue cfg e ⟨!el.sign, el.mant⟩ = -elemValue cfg e el := signed_neg _ _

/-- Subtracting an element is adding it with its sign flipped (42_arith_addsub.md R137). -/
theorem fsub32_decodeElem {cfg : Config} (hl : cfg.legal = true) {e : Nat} {el : Elem} (he : e ≤ cfg.emax)
    (hm : el.mant ≤ cfg.mmax) (x : Word) :
    fsub32 x (decodeElem cfg e el) = fadd32 x (decodeElem cfg e ⟨!el.sign, el.mant⟩) := by
  rw [fsub32, fadd32, f32val_decodeElem hl he hm, f32val_decodeElem (el := ⟨!el.sign, el.mant⟩) hl he hm,
    elemValue_negated, sub_eq_add_neg]

theorem decodeBlock_negateBlock (cfg : Config) (B : Block) :
    decodeBlock cfg (negateBlock B) = B.elems.map fun el => decodeElem cfg B.exp ⟨!el.sign, el.mant⟩ := List.map_map

/-- Settles O46, lane by lane. -/
theorem subIsAddOfNegated : Obligations.SubIsAddOfNegated := by
  intro cfg draw A B hl _ hB
  obtain ⟨he, -, hm⟩ := block_legal_iff.1 hB
  have hlanes (ws : List Word) : List.zipWith fsub32 ws (decodeBlock cfg B) =
      List.zipWith fadd32 ws (decodeBlock cfg (negateBlock B)) := by
    rw [decodeBlock_negateBlock, decodeBlock, List.zipWith_map_right, List.zipWith_map_right,
      ← List.map_uncurry_zip_eq_zipWith, ← List.map_uncurry_zip_eq_zipWith]
    exact List.map_congr_left fun p hp => fsub32_decodeElem hl he (hm p.2 (List.of_mem_zip hp).2) p.1
  exact congrArg (encodeBlock cfg draw) (hlanes _)

/-! ### Sums and differences -/

/-- What R135 says of an exact intermediate `v` of ADD or SUB and of its rounding. -/
def IsSumIntermediate (cfg : Config) (v : ℚ) : Prop :=
  (∃ k : Int, v = k * pow2 (-(cfg.bias : Int) - cfg.wm)) ∧
    (v ≠ 0 → pow2 (-(cfg.bias : Int) - cfg.wm) ≤ |v|) ∧
    |v| ≤ 2 * cfg.mmax * pow2 ((cfg.emax : Int) - cfg.bias - cfg.wm) ∧
    (v = 0 → (rnd32 v).isZero = true) ∧ (v ≠ 0 → (rnd32 v).normal = true)

/-- A nonzero multiple of a positive quantum is at least that quantum in magnitude. -/
theorem le_abs_of_multiple {u v : ℚ} {k : Int} (hu : 0 < u) (hv : v = k * u) (h0 : v ≠ 0) : u ≤ |v| := by
  have hk : k ≠ 0 := by rintro rfl; exact h0 (by rw [hv, Int.cast_zero, zero_mul])
  have hk1 : (1 : ℚ) ≤ |(k : ℚ)| := by exact_mod_cast Int.one_le_abs hk
  rw [hv, abs_mul, abs_of_pos hu]
  exact le_mul_of_one_le_left hu.le hk1

theorem rnd32_isZero_of_eq_zero {v : ℚ} (h : v = 0) : (rnd32 v).isZero = true := by
  rw [h, rnd32_zero]; decide

/-- The smallest decoded magnitude is a normal number under every legal configuration (00_scope.md R7). -/
theorem pow2_neg_le_quantum {cfg : Config} (hl : cfg.legal = true) :
    pow2 (-126) ≤ pow2 (-(cfg.bias : Int) - cfg.wm) := by
  have hbias := bias_range hl
  have hranges := legal_ranges hl
  exact pow2_le_pow2.2 (by omega)

theorem elemValue_add_isSumIntermediate {cfg : Config} (hl : cfg.legal = true) {e e' : Nat} {x y : Elem}
    (he : e ≤ cfg.emax) (he' : e' ≤ cfg.emax) (hx : x.mant ≤ cfg.mmax) (hy : y.mant ≤ cfg.mmax) :
    IsSumIntermediate cfg (elemValue cfg e x + elemValue cfg e' y) := by
  obtain ⟨hxV, -⟩ := elemValue_bounds hl he hx
  obtain ⟨hyV, -⟩ := elemValue_bounds hl he' hy
  obtain ⟨j, hj⟩ := elemValue_multiple cfg e x
  obtain ⟨k, hk⟩ := elemValue_multiple cfg e' y
  have hV := largest_value_lt hl
  have hmultiple : elemValue cfg e x + elemValue cfg e' y = (j + k : Int) * pow2 (-(cfg.bias : Int) - cfg.wm) := by
    rw [hj, hk]; push_cast; ring
  have hlo := le_abs_of_multiple (pow2_pos _) hmultiple
  refine ⟨⟨_, hmultiple⟩, hlo, ?_, rnd32_isZero_of_eq_zero, fun h0 => ?_⟩
  · linarith [abs_add_le (elemValue cfg e x) (elemValue cfg e' y)]
  · exact rnd32_isNormal ((pow2_neg_le_quantum hl).trans (hlo h0))
      (add_sub_value_lt hl (hxV.trans_lt hV) (hyV.trans_lt hV)).1

/-- Settles O48: the exact sum of two elements, the difference being the sum with the second one negated. -/
theorem addSubIntermediatesStayNormal : Obligations.AddSubIntermediatesStayNormal := by
  refine ⟨fun cfg A B x y v r hl hA hB hx hy hcase => ?_, by decide +kernel⟩
  obtain ⟨heA, -, hmA⟩ := block_legal_iff.1 hA
  obtain ⟨heB, -, hmB⟩ := block_legal_iff.1 hB
  have hxval := f32val_decodeElem hl heA (hmA x hx)
  have hyval := f32val_decodeElem hl heB (hmB y hy)
  obtain ⟨hr, hv⟩ : r = rnd32 v ∧ IsSumIntermediate cfg v := by
    rcases hcase with ⟨rfl, rfl⟩ | ⟨rfl, rfl⟩
    · exact ⟨by rw [fadd32, hxval, hyval], elemValue_add_isSumIntermediate hl heA heB (hmA x hx) (hmB y hy)⟩
    · refine ⟨by rw [fsub32, hxval, hyval], ?_⟩
      rw [sub_eq_add_neg, ← elemValue_negated]
      exact elemValue_add_isSumIntermediate hl heA heB (hmA x hx) (hmB y hy)
  rw [hr]
  exact ⟨rfl, hv⟩

/-! ### Products, quotients and reciprocals -/

/-- Magnitudes between positive bounds have products between the products of the bounds. -/
theorem abs_mul_bounds {a b u V : ℚ} (hu : 0 < u) (ha : u ≤ |a| ∧ |a| ≤ V) (hb : u ≤ |b| ∧ |b| ≤ V) :
    u * u ≤ |a * b| ∧ |a * b| ≤ V * V := by
  rw [abs_mul]
  exact ⟨mul_le_mul ha.1 hb.1 hu.le (abs_nonneg a), mul_le_mul ha.2 hb.2 (abs_nonneg b) ((abs_nonneg a).trans ha.2)⟩

/-- Magnitudes between positive bounds have quotients between the outer quotients of the bounds. -/
theorem abs_div_bounds {a b l h u V : ℚ} (hu : 0 < u) (ha : l ≤ |a| ∧ |a| ≤ h) (hb : u ≤ |b| ∧ |b| ≤ V) :
    l / V ≤ |a / b| ∧ |a / b| ≤ h / u := by
  rw [abs_div]
  exact ⟨div_le_div₀ (abs_nonneg a) ha.1 (hu.trans_le hb.1) hb.2, div_le_div₀ ((abs_nonneg a).trans ha.2) ha.2 hu hb.1⟩

/-- The range of decoded magnitudes where the operations of R156 cannot leave the normal range. -/
theorem quantum_largest_of_we_le_six {cfg : Config} (hl : cfg.legal = true) (h6 : cfg.we ≤ 6) :
    pow2 (-54) ≤ pow2 (-(cfg.bias : Int) - cfg.wm) ∧
      (cfg.mmax : ℚ) * pow2 ((cfg.emax : Int) - cfg.bias - cfg.wm) < pow2 33 := by
  have hbias := bias_le_of_we_le_six h6
  have hranges := legal_ranges hl
  exact ⟨pow2_le_pow2.2 (by omega), (largest_value_lt hl).trans_le (pow2_bias_le h6)⟩

theorem rnd32_mul_isNormal {a b : ℚ} (ha : pow2 (-54) ≤ |a| ∧ |a| ≤ pow2 33) (hb : pow2 (-54) ≤ |b| ∧ |b| ≤ pow2 33) :
    (rnd32 (a * b)).normal = true := by
  obtain ⟨hlo, hhi⟩ := abs_mul_bounds (pow2_pos _) ha hb
  rw [← pow2_add] at hlo hhi
  exact rnd32_isNormal ((pow2_le_pow2.2 (by norm_num)).trans hlo) (hhi.trans_lt (pow2_lt_pow2.2 (by norm_num)))

theorem rnd32_div_isNormal {a b : ℚ} (ha : pow2 (-54) ≤ |a| ∧ |a| ≤ pow2 33) (hb : pow2 (-54) ≤ |b| ∧ |b| ≤ pow2 33) :
    (rnd32 (a / b)).normal = true := by
  obtain ⟨hlo, hhi⟩ := abs_div_bounds (pow2_pos _) ha hb
  rw [← pow2_sub] at hlo hhi
  exact rnd32_isNormal ((pow2_le_pow2.2 (by norm_num)).trans hlo) (hhi.trans_lt (pow2_lt_pow2.2 (by norm_num)))

theorem f32val_one : f32val 0x3F800000 = 1 := by decide +kernel

theorem elemValue_eq_zero {cfg : Config} {e : Nat} {el : Elem} (h : el.mant = 0) : elemValue cfg e el = 0 := by
  rw [elemValue, h, Nat.cast_zero, zero_mul, signed_zero]

theorem elemValue_ne_zero {cfg : Config} {e : Nat} {el : Elem} (h : el.mant ≠ 0) : elemValue cfg e el ≠ 0 := by
  rw [← abs_ne_zero, abs_elemValue]
  exact mul_ne_zero (Nat.cast_ne_zero.2 h) (pow2_pos _).ne'

/-- Division by an element that is not zero is the rounded exact quotient (40_bit_utilities.md R91). -/
theorem fdiv32_decodeElem {cfg : Config} (hl : cfg.legal = true) {e : Nat} {y : Elem} (he : e ≤ cfg.emax)
    (hm : y.mant ≤ cfg.mmax) (h0 : y.mant ≠ 0) (w : Word) :
    fdiv32 w (decodeElem cfg e y) = rnd32 (f32val w / elemValue cfg e y) := by
  rw [fdiv32, f32val_decodeElem hl he hm, if_neg (elemValue_ne_zero h0)]

/-- Settles O49: exact values of the operands, and bounds on the results from bounds on the operands. -/
theorem mulDivIntermediatesStayNormal : Obligations.MulDivIntermediatesStayNormal := by
  intro cfg A B x y hl hA hB hx hy
  obtain ⟨heA, -, hmA⟩ := block_legal_iff.1 hA
  obtain ⟨heB, -, hmB⟩ := block_legal_iff.1 hB
  have hmul : fmul32 (decodeElem cfg A.exp x) (decodeElem cfg B.exp y) =
      rnd32 (elemValue cfg A.exp x * elemValue cfg B.exp y) := by
    rw [fmul32, f32val_decodeElem hl heA (hmA x hx), f32val_decodeElem hl heB (hmB y hy)]
  have hdiv (h0 : y.mant ≠ 0) : fdiv32 (decodeElem cfg A.exp x) (decodeElem cfg B.exp y) =
      rnd32 (elemValue cfg A.exp x / elemValue cfg B.exp y) := by
    rw [fdiv32_decodeElem hl heB (hmB y hy) h0, f32val_decodeElem hl heA (hmA x hx)]
  have hrecip (h0 : y.mant ≠ 0) :
      fdiv32 0x3F800000 (decodeElem cfg B.exp y) = rnd32 (1 / elemValue cfg B.exp y) := by
    rw [fdiv32_decodeElem hl heB (hmB y hy) h0, f32val_one]
  refine ⟨hmul, fun h0 => ⟨hdiv h0, hrecip h0⟩, ?_⟩
  rintro u V h6 rfl rfl
  obtain ⟨hu, hV⟩ := quantum_largest_of_we_le_six hl h6
  obtain ⟨hxV, hxu⟩ := elemValue_bounds hl heA (hmA x hx)
  obtain ⟨hyV, hyu⟩ := elemValue_bounds hl heB (hmB y hy)
  have hxRange (hx0 : x.mant ≠ 0) := And.intro (hu.trans (hxu hx0)) (hxV.trans hV.le)
  have hyRange (hy0 : y.mant ≠ 0) := And.intro (hu.trans (hyu hy0)) (hyV.trans hV.le)
  refine ⟨fun hx0 hy0 => ?_, fun h0 => ?_, fun hx0 hy0 => ?_, fun hy0 => ?_⟩
  · obtain ⟨hmulLo, hmulHi⟩ := abs_mul_bounds (pow2_pos _) ⟨hxu hx0, hxV⟩ ⟨hyu hy0, hyV⟩
    obtain ⟨hdivLo, hdivHi⟩ := abs_div_bounds (pow2_pos _) ⟨hxu hx0, hxV⟩ ⟨hyu hy0, hyV⟩
    rw [hmul, hdiv hy0]
    exact ⟨hmulLo, hmulHi, rnd32_mul_isNormal (hxRange hx0) (hyRange hy0), hdivLo, hdivHi,
      rnd32_div_isNormal (hxRange hx0) (hyRange hy0)⟩
  · rw [hmul]
    exact rnd32_isZero_of_eq_zero (mul_eq_zero.2 (h0.imp elemValue_eq_zero elemValue_eq_zero))
  · rw [hdiv hy0, elemValue_eq_zero hx0]
    exact rnd32_isZero_of_eq_zero (zero_div _)
  · obtain ⟨hlo, hhi⟩ := abs_div_bounds (a := 1) (pow2_pos _) ⟨abs_one.ge, abs_one.le⟩ ⟨hyu hy0, hyV⟩
    rw [hrecip hy0]
    exact ⟨hlo, hhi, rnd32_div_isNormal (by rw [abs_one]; decide +kernel) (hyRange hy0)⟩

end Sys2Proof.Machine
end

section
/-!
Proofs about MUL, DIV and RECIPROCAL: RECIPROCAL is DIV of the Block of ones, a near-zero divisor element gives the zero
element, and products of short mantissas are exact (43_arith_muldivrecip.md R150, R153, R157).
-/

namespace Sys2Proof.Machine

open Sys2Proof

/-! ### RECIPROCAL is DIV of ONE -/

theorem two_pow_wm_le_mmax (cfg : Config) : 2 ^ cfg.wm ≤ cfg.mmax := by
  have hmmax := mmax_succ cfg
  have hpos := Nat.one_le_two_pow (n := cfg.wm)
  rw [pow_succ] at hmmax
  omega

theorem bias_le_emax {cfg : Config} (hl : cfg.legal = true) : cfg.bias ≤ cfg.emax := by
  have hemax := emax_eq hl
  omega

theorem oneBlock_isLegal {cfg : Config} (hl : cfg.legal = true) : (oneBlock cfg).legal cfg = true := by
  refine block_legal_iff.2 ⟨bias_le_emax hl, List.length_replicate, fun x hx => ?_⟩
  rw [List.eq_of_mem_replicate hx]
  exact two_pow_wm_le_mmax cfg

theorem elemValue_one (cfg : Config) : elemValue cfg cfg.bias ⟨false, 2 ^ cfg.wm⟩ = 1 := by
  change ((2 ^ cfg.wm : Nat) : ℚ) * pow2 ((cfg.bias : Int) - cfg.bias - cfg.wm) = 1
  rw [← pow2_natCast, ← pow2_add, show (cfg.wm : Int) + (cfg.bias - cfg.bias - cfg.wm) = 0 by ring]
  rfl

/-- Normal words of one value are one word, each being the rounding of that value. -/
theorem eq_of_f32val_eq_of_normal {v w : Word} (hv : v.normal = true) (hw : w.normal = true)
    (h : f32val v = f32val w) : v = w := by
  rw [← rnd32_f32val_of_normal hv, h, rnd32_f32val_of_normal hw]

theorem decodeElem_one {cfg : Config} (hl : cfg.legal = true) :
    decodeElem cfg cfg.bias ⟨false, 2 ^ cfg.wm⟩ = oneWord := by
  have he := bias_le_emax hl
  have hm := two_pow_wm_le_mmax cfg
  refine eq_of_f32val_eq_of_normal (decodeElem_normal hl he (by positivity) hm).1 (by decide) ?_
  rw [f32val_decodeElem hl he hm, elemValue_one, oneWord, f32val_one]

theorem decodeBlock_oneBlock {cfg : Config} (hl : cfg.legal = true) :
    decodeBlock cfg (oneBlock cfg) = List.replicate cfg.n oneWord := by
  rw [oneBlock, decodeBlock_replicate, decodeElem_one hl]

/-- Settles O47: both operations encode the quotients of 1.0 by the decoded lanes. -/
theorem reciprocalIsDivisionOfOne : Obligations.ReciprocalIsDivisionOfOne := by
  intro cfg draw B hl hB
  refine ⟨oneBlock_isLegal hl, decodeBlock_oneBlock hl, ?_⟩
  rw [divBlock, referenceOp, decodeBlock_oneBlock hl, ← decodeBlock_length hB, ← List.map_const',
    List.zipWith_map_left, List.zipWith_self, reciprocalBlock]

/-! ### Near-zero divisors -/

/-- The near-zero test is the comparison of the magnitude with `10^-30` (40_bit_utilities.md R94). -/
theorem nearZero_iff {w : Word} : nearZero w = true ↔ |f32val w| ≤ 1 / 10 ^ 30 := by
  have hthresh : nzThresh = 1 / 10 ^ 30 := by decide +kernel
  rw [nearZero, Bool.and_eq_true, decide_eq_true_iff, decide_eq_true_iff, hthresh, abs_le, and_comm]

/-- The dividend is not examined (43_arith_muldivrecip.md R153). -/
theorem divLane_of_nearZero {y : Word} (h : nearZero y = true) (x : Word) : divLane x y = 0 := if_pos h

/-- A lane that holds a zero is stored as the zero element whatever the other lanes hold, non-finite words included
(41_codec.md R102, R105). -/
theorem encodeBlock_getElem?_of_isZero {cfg : Config} (draw : Nat → BitVec 24) {ws : List Word} {i : Nat} {w : Word}
    (hlen : ws.length = cfg.n) (hw : ws[i]? = some w) (hz : w.isZero = true) :
    (encodeBlock cfg draw ws).elems[i]? = some ⟨false, 0⟩ := by
  obtain ⟨hi, -⟩ := List.getElem?_eq_some_iff.1 hw
  rw [encodeBlock, encodeDecomposed]
  split
  · exact List.getElem?_replicate_of_lt (hlen ▸ hi)
  · rw [List.getElem?_map, List.getElem?_mapIdx, hw, Option.map_some, Option.map_some,
      encodeElem_of_no_exp _ _ (decomposeInput_isZero cfg _ hz)]

theorem decodeBlock_getElem? {cfg : Config} {B : Block} {i : Nat} {el : Elem} (h : B.elems[i]? = some el) :
    (decodeBlock cfg B)[i]? = some (decodeElem cfg B.exp el) := by
  rw [decodeBlock, List.getElem?_map, h, Option.map_some]

/-- A near-zero divisor lane of RECIPROCAL (43_arith_muldivrecip.md R153). -/
theorem reciprocalBlock_getElem?_of_nearZero {cfg : Config} (draw : Nat → BitVec 24) {B : Block} {i : Nat} {y : Elem}
    (hB : B.legal cfg = true) (hy : B.elems[i]? = some y) (hnear : nearZero (decodeElem cfg B.exp y) = true) :
    (reciprocalBlock cfg draw B).elems[i]? = some ⟨false, 0⟩ := by
  refine encodeBlock_getElem?_of_isZero (w := 0) draw ?_ ?_ (by decide)
  · rw [List.length_map, decodeBlock_length hB]
  · rw [List.getElem?_map, decodeBlock_getElem? hy, Option.map_some, divLane_of_nearZero hnear]

/-- A near-zero divisor lane of DIV (43_arith_muldivrecip.md R153). -/
theorem divBlock_getElem?_of_nearZero {cfg : Config} (draw : Nat → BitVec 24) {A B : Block} {i : Nat} {y : Elem}
    (hA : A.legal cfg = true) (hB : B.legal cfg = true) (hy : B.elems[i]? = some y)
    (hnear : nearZero (decodeElem cfg B.exp y) = true) : (divBlock cfg draw A B).elems[i]? = some ⟨false, 0⟩ := by
  obtain ⟨hi, -⟩ := List.getElem?_eq_some_iff.1 hy
  rw [legal_elems_length hB, ← decodeBlock_length hA] at hi
  refine encodeBlock_getElem?_of_isZero (w := 0) draw ?_ ?_ (by decide)
  · rw [List.length_zipWith, decodeBlock_length hA, decodeBlock_length hB, Nat.min_self]
  · exact List.getElem?_zipWith_eq_some.2
      ⟨_, _, List.getElem?_eq_getElem hi, decodeBlock_getElem? hy, divLane_of_nearZero hnear _⟩

/-- Settles O51: the quotient forced is `+0.0`, which every `encode` stores as the zero element. -/
theorem nearZeroDivisorGivesZeroElement : Obligations.NearZeroDivisorGivesZeroElement := by
  intro cfg draw A B i y _ hA hB hy hbound
  have hnear := nearZero_iff.2 hbound
  exact ⟨divLane_of_nearZero hnear, divBlock_getElem?_of_nearZero draw hA hB hy hnear,
    reciprocalBlock_getElem?_of_nearZero draw hB hy hnear⟩

/-! ### Exact products -/

/-- Rounding is exact on a nonzero dyadic value in the normal range whose mantissa fits 24 bits (40_bit_utilities.md
R90). -/
theorem f32val_rnd32_dyadic (s : Bool) {m : Nat} {k : Int} (h0 : m ≠ 0) (h24 : m < 2 ^ 24)
    (hlo : pow2 (-126) ≤ (m : ℚ) * pow2 k) (hhi : (m : ℚ) * pow2 k < pow2 128) :
    f32val (rnd32 (signed s ((m : ℚ) * pow2 k))) = signed s ((m : ℚ) * pow2 k) := by
  have hbelow := pow2_lt_pow2.1 (hlo.trans_lt (lt_pow2_log2 m k))
  have habove := pow2_lt_pow2.1 ((pow2_log2_le h0 k).trans_lt hhi)
  rw [rnd32_dyadic s h0 h24 (by omega) (by omega), f32val_f32exact_of_mem h0 h24 (by omega) (by omega)]

theorem elemValue_mul (cfg : Config) (e e' : Nat) (x y : Elem) :
    elemValue cfg e x * elemValue cfg e' y = signed (xor x.sign y.sign)
      (((x.mant * y.mant : Nat) : ℚ) * pow2 (((e : Int) - cfg.bias - cfg.wm) + ((e' : Int) - cfg.bias - cfg.wm))) := by
  rw [elemValue, elemValue, signed_mul, pow2_add, Nat.cast_mul, mul_mul_mul_comm]

/-- Two mantissas of at most 12 bits have a product of at most 24. -/
theorem mant_mul_lt {cfg : Config} (h11 : cfg.wm ≤ 11) {x y : Elem} (hx : x.mant ≤ cfg.mmax) (hy : y.mant ≤ cfg.mmax) :
    x.mant * y.mant < 2 ^ 24 := by
  have hmmax := mmax_succ cfg
  have h12 : 2 ^ (cfg.wm + 1) ≤ 2 ^ 12 := Nat.pow_le_pow_right (by norm_num) (by omega)
  calc x.mant * y.mant < 2 ^ 12 * 2 ^ 12 := Nat.mul_lt_mul'' (by omega) (by omega)
    _ = 2 ^ 24 := by norm_num

/-- The product of two nonzero elements lies in the normal range for `WE ≤ 6` (43_arith_muldivrecip.md R156). -/
theorem abs_elemValue_mul_bounds {cfg : Config} (hl : cfg.legal = true) (h6 : cfg.we ≤ 6) {e e' : Nat} {x y : Elem}
    (he : e ≤ cfg.emax) (he' : e' ≤ cfg.emax) (hx : x.mant ≤ cfg.mmax) (hy : y.mant ≤ cfg.mmax) (hx0 : x.mant ≠ 0)
    (hy0 : y.mant ≠ 0) :
    pow2 (-126) ≤ |elemValue cfg e x * elemValue cfg e' y| ∧
      |elemValue cfg e x * elemValue cfg e' y| < pow2 128 := by
  obtain ⟨hu, hV⟩ := quantum_largest_of_we_le_six hl h6
  obtain ⟨hxV, hxu⟩ := elemValue_bounds hl he hx
  obtain ⟨hyV, hyu⟩ := elemValue_bounds hl he' hy
  obtain ⟨hlo, hhi⟩ := abs_mul_bounds (pow2_pos _) ⟨hu.trans (hxu hx0), hxV.trans hV.le⟩
    ⟨hu.trans (hyu hy0), hyV.trans hV.le⟩
  rw [← pow2_add] at hlo hhi
  exact ⟨(pow2_le_pow2.2 (by norm_num)).trans hlo, hhi.trans_lt (pow2_lt_pow2.2 (by norm_num))⟩

/-- Settles O53: a zero factor, or a dyadic product in the normal range whose mantissa fits 24 bits. -/
theorem productsOfDecodedValuesAreExact : Obligations.ProductsOfDecodedValuesAreExact := by
  intro cfg A B x y hl h6 h11 hA hB hx hy
  obtain ⟨heA, -, hmA⟩ := block_legal_iff.1 hA
  obtain ⟨heB, -, hmB⟩ := block_legal_iff.1 hB
  rw [fmul32, f32val_decodeElem hl heA (hmA x hx), f32val_decodeElem hl heB (hmB y hy)]
  by_cases h0 : x.mant = 0 ∨ y.mant = 0
  · rw [mul_eq_zero.2 (h0.imp elemValue_eq_zero elemValue_eq_zero), rnd32_zero, f32val_zero (by decide)]
  · obtain ⟨hx0, hy0⟩ := not_or.1 h0
    obtain ⟨hlo, hhi⟩ := abs_elemValue_mul_bounds hl h6 heA heB (hmA x hx) (hmB y hy) hx0 hy0
    rw [elemValue_mul, abs_signed, abs_of_nonneg (mul_nonneg (Nat.cast_nonneg _) (pow2_pos _).le)] at hlo hhi
    rw [elemValue_mul]
    exact f32val_rnd32_dyadic _ (mul_ne_zero hx0 hy0) (mant_mul_lt h11 (hmA x hx) (hmB y hy)) hlo hhi

end Sys2Proof.Machine
end

section
/-!
Proofs about completion and faults: a launched operation completes on the block it takes, a running invocation comes to
its end, and no step faults (60_exceptions.md R183, R192, 70_reset_and_hazards.md R204).
-/

namespace Sys2Proof.Machine

open Sys2Proof

/-! ### Completion -/

/-- Settles O17: with a block left, the step of a launched invocation stores and retires the one it takes. -/
theorem launchedOperationCompletes : Obligations.LaunchedOperationCompletes := by
  intro i s h ⟨c, hc⟩
  obtain ⟨b, t, -, hp, hexec, hretired, -⟩ := exec_of_launched h (List.ne_nil_of_mem (mem_remaining.2 hc))
  obtain ⟨hlt, hnew⟩ := pickBlock_mem hp
  exact ⟨b, t, hp, hlt, hnew, hexec, hretired⟩

/-- A launched invocation of operation `i` that is past its start: `STATUS` is `DONE` when no block is left and `BUSY`
until then (10_state.md R31). Unlike `Progress`, it asks nothing of the words of `OUT`. -/
structure UnderWay (i : Instr) (s : State) : Prop where
  launched : Launched i s
  startReq : s.startReq = false
  status : s.status = if remaining s = [] then .done else .busy

/-- The invariant says of a running invocation that a block of it is left. -/
theorem State.Inv.underWay {s : State} (h : s.Inv) (hbusy : s.status = .busy) (hreq : s.startReq = false) :
    ∃ i, UnderWay i s := by
  obtain ⟨-, -, hrun⟩ := h
  obtain ⟨⟨i, hl⟩, -, b, hb⟩ := hrun hbusy
  exact ⟨i, hl, hreq, by rw [hbusy, if_neg (List.ne_nil_of_mem (mem_remaining.2 hb))]⟩

/-- The step of one block keeps an invocation under way and leaves one block fewer. -/
theorem UnderWay.step_keeps {i : Instr} {s : State} (h : UnderWay i s) (hleft : remaining s ≠ []) :
    ∃ t, step s = .next t ∧ UnderWay i t ∧ (remaining s).length = (remaining t).length + 1 := by
  obtain ⟨b, t, -, hp, hexec, ⟨-, -, -, -, -, -, -, hdone, hstatus⟩, -⟩ := exec_of_launched h.launched hleft
  obtain ⟨hcfg, hop, hnblk, hA, hB, hreq, hlen, -⟩ := operationFrame i s t hexec
  obtain ⟨-, hselected, -⟩ := h.launched
  have hbusy : s.status = .busy := by rw [h.status, if_neg hleft]
  have hn : nblkNat t = nblkNat s := by rw [nblkNat, hnblk, nblkNat]
  refine ⟨t, by rw [step_of_busy h.startReq hbusy hselected, hexec], ?_,
    remaining_length_of_retired hnblk (mem_remaining.2 (pickBlock_mem hp)) hdone⟩
  exact
    { launched := launched_congr h.launched hcfg hop hnblk hA hB hlen
      startReq := hreq.trans h.startReq
      status := by simp only [hstatus, hbusy, remaining_eq_nil, hn, hdone] }

/-- While blocks are left, `k` steps process `k` of them. -/
theorem UnderWay.runSteps_of_le {i : Instr} (k : Nat) {s : State} (h : UnderWay i s) (hk : k ≤ (remaining s).length) :
    ∃ t, runSteps k s = .next t ∧ UnderWay i t ∧ (remaining s).length = (remaining t).length + k := by
  induction k generalizing s with
  | zero => exact ⟨s, runSteps_zero s, h, rfl⟩
  | succ k ih =>
    obtain ⟨u, hu, huw, hlen⟩ := h.step_keeps (List.ne_nil_of_length_pos (by omega))
    obtain ⟨t, ht, htw, hlen'⟩ := ih huw (by omega)
    exact ⟨t, by rw [runSteps_succ, hu]; exact ht, htw, by omega⟩

/-- Settles O58: after `k` steps `k` blocks fewer are left, and `STATUS` says whether any is. -/
theorem runningInvocationCompletes : Obligations.RunningInvocationCompletes := by
  intro s hinv hbusy hreq
  obtain ⟨i, h⟩ := hinv.underWay hbusy hreq
  constructor
  · obtain ⟨t, ht, htw, hlen⟩ := h.runSteps_of_le _ le_rfl
    have hend : remaining t = [] := List.length_eq_zero_iff.1 (by omega)
    exact ⟨t, ht, by rw [htw.status, if_pos hend]⟩
  · intro k hk
    obtain ⟨t, ht, htw, hlen⟩ := h.runSteps_of_le k hk.le
    have hleft : remaining t ≠ [] := List.ne_nil_of_length_pos (by omega)
    exact ⟨t, ht, by rw [htw.status, if_neg hleft]⟩

/-! ### No fault -/

theorem storeResult_ne_fault (s : State) (base b : Nat) (r : Except Refusal (List Word)) (f : Fault) :
    storeResult s base b r ≠ .fault f := by
  unfold storeResult
  split
  · nofun
  · split <;> nofun

/-- The three phases of a block amount to `storeResult`, in which no slot is read: each was written by the phase before
(10_state.md R30). -/
theorem exec_ne_fault (i : Instr) (s : State) (f : Fault) : exec i s ≠ .fault f := by
  rw [exec_eq]
  split
  · split
    · nofun
    · exact storeResult_ne_fault _ _ _ _ f
  · nofun

/-- A start takes the exception, is refused, or begins the invocation (60_exceptions.md R181, R191). -/
theorem startInvocation_ne_fault (s : State) (f : Fault) : startInvocation s ≠ .fault f := by
  unfold startInvocation
  split
  · nofun
  · split_ifs <;> nofun

/-- Settles O22, by the cases of a step: a start, a block of the running invocation, or neither. -/
theorem stepNeverFaults : Obligations.StepNeverFaults := by
  intro s f
  unfold step coreStep
  split
  · nofun
  · exact startInvocation_ne_fault s f
  · split
    · exact exec_ne_fault _ s f
    · nofun
  · nofun

end Sys2Proof.Machine
end

section
/-!
Proofs about the step of a running invocation: it adds one unprocessed block to `done`, and the last one's sets `DONE`
(10_state.md R29 to R31, 70_reset_and_hazards.md R204).
-/

namespace Sys2Proof.Machine

open Sys2Proof

theorem length_insertIndex_of_not_mem {b : Nat} {l : List Nat} (h : b ∉ l) :
    (insertIndex b l).length = l.length + 1 := by
  induction l with
  | nil => rfl
  | cons c cs ih =>
    obtain ⟨hne, hcs⟩ := not_or.1 (mt List.mem_cons.2 h)
    unfold insertIndex
    split_ifs
    · rfl
    · rw [List.length_cons, ih hcs, List.length_cons]

/-- `Retired` says which indices `done` then holds; this says in which list, and so how many there are. -/
theorem exec_done {i : Instr} {s t : State} {b : Nat} (hexec : exec i s = .next t) (hp : pickBlock s = some b) :
    t.done = insertIndex b s.done := by
  obtain ⟨-, ⟨hnone, -⟩ | ⟨c, ws, f, hc, -, -, rfl⟩⟩ := exec_next hexec
  · exact absurd (hp.symm.trans hnone) nofun
  · obtain rfl : b = c := Option.some.inj (hp.symm.trans hc)
    exact retireBlock_done b _

/-- Settles O19: the step runs the launched operation on an unprocessed block and retires it. -/
theorem runningStepProcessesOneBlock : Obligations.RunningStepProcessesOneBlock := by
  intro s hinv hbusy hreq
  obtain ⟨-, -, hrun⟩ := hinv
  obtain ⟨⟨i, hl⟩, -, c, hc⟩ := hrun hbusy
  obtain ⟨b, t, hp, hlt, hnew, hexec, -, -, -, -, -, -, -, hdone, hstatus⟩ := launchedOperationCompletes i s hl ⟨c, hc⟩
  obtain ⟨-, hselected, -⟩ := hl
  refine ⟨b, t, by rw [step_of_busy hreq hbusy hselected, hexec], hlt, hnew, hdone, ?_, fun hall => ?_, ?_⟩
  · rw [exec_done hexec hp, length_insertIndex_of_not_mem hnew]
  · rw [hstatus, if_pos fun d hd => or_iff_not_imp_left.2 (hall d hd)]
  · rintro ⟨d, hd, hne, hleft⟩
    rw [hstatus, if_neg fun hall => (hall d hd).elim hne hleft, hbusy]

end Sys2Proof.Machine
end

section
/-!
Proofs about the selector's round trip, the cases of a step, and what a step is at a start, in a running invocation and
outside one (30_encoding.md R60 to R62, 60_exceptions.md R181, R191, 10_state.md R31).
-/

namespace Sys2Proof.Machine

open Sys2Proof

/-! ### The selector -/

/-- The decoder rejects no code of an operation (30_encoding.md R62). -/
theorem not_code_of_decodeSelector_error {m : OpcodeMap} {w : Word} {e : DecodeError}
    (h : decodeSelector m w = .error e) (i : Instr) : w ≠ encodeSelector m i := by
  unfold decodeSelector at h
  split_ifs at h
  cases i <;> assumption

/-- Settles O1: the decoder accepts an operation's code, and only for an operation of that code, of which an injective
numbering has one. -/
theorem selectorRoundTrip : Obligations.SelectorRoundTrip := by
  intro m i hwf
  rcases decodeSelector_cases m (encodeSelector m i) with ⟨j, hdecode, hcode⟩ | hillegal
  · rw [hdecode, encodeSelector_inj hwf hcode]
  · exact absurd rfl (not_code_of_decodeSelector_error hillegal i)

/-- Settles O3, by evaluation of the decoder on the nine words. -/
theorem defaultSelectorWords : Obligations.DefaultSelectorWords := by
  unfold Obligations.DefaultSelectorWords
  decide

/-! ### Steps outside a block -/

/-- A second start has no outcome (93_implementation_defined.md U6). -/
theorem step_of_start_busy {s : State} (hreq : s.startReq = true) (hbusy : s.status = .busy) :
    step s = .refused .startWhileBusy := by
  rw [step, coreStep, hreq, hbusy]

/-- A running invocation whose selector names no operation has no outcome (60_exceptions.md R191). -/
theorem step_of_busy_illegal {s : State} (hreq : s.startReq = false) (hbusy : s.status = .busy)
    (hillegal : selectedInstr s = none) : step s = .refused .feedChangedDuringRun := by
  rw [step, coreStep, hreq, hbusy, hillegal]

/-- With nothing started and nothing running the core waits (10_state.md R31). -/
theorem step_of_waiting {s : State} (hreq : s.startReq = false) (hidle : s.status ≠ .busy) : step s = .next s := by
  rw [step, coreStep, hreq]
  cases hstatus : s.status
  case busy => exact absurd hstatus hidle
  all_goals rfl

/-- Settles O6. -/
theorem stepWithoutInvocationChangesNothing : Obligations.StepWithoutInvocationChangesNothing :=
  fun _ hreq hidle => step_of_waiting hreq hidle

/-- Settles O9: the two refusals of a running core. -/
theorem busyRefusesCallerBreach : Obligations.BusyRefusesCallerBreach :=
  fun _ hbusy => ⟨fun hreq => step_of_start_busy hreq hbusy,
    fun hreq hnone => step_of_busy_illegal hreq hbusy (selectedInstr_eq_none hnone)⟩

/-! ### The placed selector -/

/-- A block that is the only one left is the one taken, whatever the free choice (10_state.md R31). -/
theorem pickBlock_of_remaining_singleton {s : State} {b : Nat} (h : remaining s = [b]) : pickBlock s = some b := by
  rw [pickBlock, h]

theorem remaining_placeSelector (s : State) (w : Word) : remaining (placeSelector s w) = [0] := rfl

/-- Settles O5: the placed invocation is a running one of the single block 0. -/
theorem placedSelectorRunsNext : Obligations.PlacedSelectorRunsNext := by
  intro s nbits w i hdecode
  refine ⟨rfl, pickBlock_of_remaining_singleton (remaining_placeSelector s _), ?_⟩
  exact step_of_busy rfl rfl (selectedInstr_of_decode (s := placeSelector s (BitVec.ofNat 32 w)) hdecode)

/-! ### The refusals of a block's step -/

/-- Settles O20: the configuration is checked before a block is chosen. -/
theorem illegalConfigurationRefused : Obligations.IllegalConfigurationRefused := by
  intro i s hillegal
  rw [exec_eq, hillegal]
  rfl

/-- A block's result is at least one word (00_scope.md R7). -/
theorem outWords_pos {cfg : Config} (hl : cfg.legal = true) (i : Instr) : 0 < outWords cfg i := by
  obtain ⟨hn, -⟩ := legal_ranges hl
  cases i
  case decode => exact hn
  all_goals exact Nat.succ_pos _

theorem storeWords_short {f : Feed} {a : Nat} {ws : List Word} (h : f.length < a + ws.length) (hw : ws ≠ []) :
    storeWords f a ws = .error .shortFeed := by
  rw [storeWords, writeWords_none f a ws h hw]

/-- Settles O21: the refusal is that of the load, or of the store, and neither leaves a state. -/
theorem unreadableBlockRefused : Obligations.UnreadableBlockRefused := by
  intro i s b hl hp
  have hexec : exec i s =
      storeResult s (b * outWords s.cfg i) b (resultWords i s.cfg (laneDraw s) s.inA s.inB b) := by
    rw [exec_eq, if_pos hl, hp]
  refine ⟨fun r hr => by rw [hexec, hr, storeResult], fun ws hws hshort => ?_⟩
  have hlen := resultWords_length hws
  have hne : ws ≠ [] := List.ne_nil_of_length_pos (hlen ▸ outWords_pos hl i)
  rw [hexec, hws, storeResult, storeWords_short (hlen.symm ▸ hshort) hne]

/-! ### The start -/

/-- The lengths the launch premises ask for (20_memory.md R44). -/
theorem launchFits_iff {i : Instr} {s : State} :
    launchFits i s = true ↔ nblkNat s * useWords s.cfg (useInA i) ≤ s.inA.length ∧
      nblkNat s * useWords s.cfg (useInB i) ≤ s.inB.length ∧ nblkNat s * useWords s.cfg (useOut i) ≤ s.out.length := by
  simp only [launchFits, feedFits, Bool.and_eq_true, decide_eq_true_iff, and_assoc]

/-- One block out of range makes a feed of Blocks unreadable (20_memory.md R43). -/
theorem feedReadable_of_malformed {cfg : Config} {u : FeedUse} {nblk b : Nat} {f : Feed} {r : Refusal} (hb : b < nblk)
    (hu : u = .blocks) (hload : loadBlock cfg f b = .error r) : feedReadable cfg u nblk f = false := by
  rw [feedReadable, List.all_eq_false]
  refine ⟨b, List.mem_range.2 hb, ?_⟩
  rw [hu, blockReadable, hload]
  exact Bool.false_ne_true

theorem launchReadable_of_malformed {i : Instr} {s : State} {b : Nat} {r : Refusal} (hb : b < nblkNat s)
    (h : (useInA i = .blocks ∧ loadBlock s.cfg s.inA b = .error r) ∨
      (useInB i = .blocks ∧ loadBlock s.cfg s.inB b = .error r)) : launchReadable i s = false := by
  rw [launchReadable, Bool.and_eq_false_iff]
  exact h.imp (fun h => feedReadable_of_malformed hb h.1 h.2) (fun h => feedReadable_of_malformed hb h.1 h.2)

/-- An invocation with a block left keeps its `STATUS` (10_state.md R31). -/
theorem settleStatus_of_left {s : State} (h : remaining s ≠ []) : settleStatus s = s := if_neg h

/-- An invocation with no block left is `DONE` (10_state.md R31). -/
theorem settleStatus_of_none_left {s : State} (h : remaining s = []) : settleStatus s = { s with status := .done } :=
  if_pos h

/-- The three refusals of a start with a legal selector, in their order (60_exceptions.md R191). -/
theorem startInvocation_refused {i : Instr} {s : State} (hsel : selectedInstr s = some i) :
    (s.cfg.legal = false → startInvocation s = .refused .badConfiguration) ∧
      (s.cfg.legal = true → launchFits i s = false → startInvocation s = .refused .shortFeed) ∧
      (s.cfg.legal = true → launchFits i s = true → launchReadable i s = false →
        startInvocation s = .refused .malformedBlockWord) := by
  rw [startInvocation, hsel]
  refine ⟨fun hl => ?_, fun hl hfits => ?_, fun hl hfits hread => ?_⟩
  · simp [hl]
  · simp [hl, hfits]
  · simp [hl, hfits, hread]

/-- Settles O8: the start takes the first premise that fails, or begins the invocation, which is at its end where it has
no block. -/
theorem startChecksPremises : Obligations.StartChecksPremises := by
  intro s i hreq hidle hsel
  rw [step_of_start hreq hidle]
  obtain ⟨hbad, hshort, hmalformed⟩ := startInvocation_refused hsel
  refine ⟨hbad, fun hl h => hshort hl ?_, fun hl hfits ⟨b, hb, h⟩ =>
    hmalformed hl hfits (launchReadable_of_malformed hb h), fun h hblocks => ?_, fun h hnone => ?_⟩
  · rw [← Bool.not_eq_true, launchFits_iff]
    omega
  · rw [startInvocation_of_launched h, settleStatus_of_left]
    exact List.ne_nil_of_mem (mem_remaining.2 ⟨Nat.pos_of_ne_zero hblocks, List.not_mem_nil⟩)
  · rw [startInvocation_of_launched h, settleStatus_of_none_left]
    exact remaining_eq_nil.2 fun b hb => absurd hb (hnone ▸ Nat.not_lt_zero b)

end Sys2Proof.Machine
end

section
/-!
Proofs about the machine's invariant and the caller: every step and every move of the caller keeps the invariant, reset
meets it, and what the caller may and may not do (10_state.md R29 to R36, 70_reset_and_hazards.md R200, R206).
-/

namespace Sys2Proof.Machine

open Sys2Proof

/-! ### What a step can do -/

/-- The inversion of the start: the exception, or a launched invocation begun (60_exceptions.md R181, R191). -/
theorem startInvocation_next {s t : State} (h : startInvocation s = .next t) :
    t = raiseInvalidOperation s ∨
      ∃ i, Launched i s ∧ t = settleStatus { s with status := .busy, done := [], startReq := false } := by
  cases hsel : selectedInstr s with
  | none =>
    rw [startInvocation_of_illegal hsel] at h
    cases h
    exact .inl rfl
  | some i =>
    obtain ⟨hbad, hshort, hmalformed⟩ := startInvocation_refused hsel
    cases hl : s.cfg.legal with
    | false => rw [hbad hl] at h; cases h
    | true =>
      cases hfits : launchFits i s with
      | false => rw [hshort hl hfits] at h; cases h
      | true =>
        cases hread : launchReadable i s with
        | false => rw [hmalformed hl hfits hread] at h; cases h
        | true =>
          have hlaunched : Launched i s := ⟨hl, hsel, hfits, hread⟩
          rw [startInvocation_of_launched hlaunched] at h
          cases h
          exact .inr ⟨i, hlaunched, rfl⟩

/-- The inversion of a step: a start taken up, a block of the running invocation, or nothing (10_state.md R31). -/
theorem step_next {s t : State} (h : step s = .next t) :
    startInvocation s = .next t ∨ (s.status = .busy ∧ ∃ i, selectedInstr s = some i ∧ exec i s = .next t) ∨ t = s := by
  cases hreq : s.startReq with
  | true =>
    by_cases hbusy : s.status = .busy
    · rw [step_of_start_busy hreq hbusy] at h; cases h
    · rw [step_of_start hreq hbusy] at h; exact .inl h
  | false =>
    by_cases hbusy : s.status = .busy
    · cases hsel : selectedInstr s with
      | none => rw [step_of_busy_illegal hreq hbusy hsel] at h; cases h
      | some i => rw [step_of_busy hreq hbusy hsel] at h; exact .inr (.inl ⟨hbusy, i, rfl, h⟩)
    · rw [step_of_waiting hreq hbusy] at h
      cases h
      exact .inr (.inr rfl)

/-! ### The invariant -/

/-- Outside a running invocation the invariant asks for empty slots and a strictly rising `done` alone. -/
theorem State.Inv.of_not_busy {s : State} (hslots : s.slots = Slots.empty) (hdone : s.done.Pairwise (· < ·))
    (hidle : s.status ≠ .busy) : s.Inv := ⟨hslots, hdone, fun hbusy => absurd hbusy hidle⟩

/-- A launched invocation meets the invariant once its `STATUS` is settled: while that is still `BUSY`, a block is
left. -/
theorem settleStatus_inv {i : Instr} {s : State} (hslots : s.slots = Slots.empty) (hdone : s.done.Pairwise (· < ·))
    (hl : Launched i s) (hlt : ∀ b ∈ s.done, b < nblkNat s) : (settleStatus s).Inv := by
  by_cases hleft : remaining s = []
  · rw [settleStatus_of_none_left hleft]
    exact .of_not_busy hslots hdone nofun
  · rw [settleStatus_of_left hleft]
    obtain ⟨b, hb⟩ := List.exists_mem_of_ne_nil _ hleft
    exact ⟨hslots, hdone, fun _ => ⟨⟨i, hl⟩, hlt, b, mem_remaining.1 hb⟩⟩

/-- A start keeps the invariant. -/
theorem startInvocation_inv {s t : State} (hinv : s.Inv) (h : startInvocation s = .next t) : t.Inv := by
  obtain ⟨hslots, -, -⟩ := hinv
  rcases startInvocation_next h with rfl | ⟨i, hl, rfl⟩
  · exact .of_not_busy hslots .nil nofun
  · exact settleStatus_inv hslots .nil (launched_congr hl rfl rfl rfl rfl rfl rfl) nofun

/-- A block of a running invocation keeps the invariant: the launch premises look at nothing the block changes. -/
theorem exec_inv {i : Instr} {s t : State} (hinv : s.Inv) (hbusy : s.status = .busy) (h : exec i s = .next t) :
    t.Inv := by
  obtain ⟨hslots, hdone, hrun⟩ := hinv
  obtain ⟨⟨j, hl⟩, hlt, -⟩ := hrun hbusy
  obtain ⟨-, ⟨-, rfl⟩ | ⟨b, ws, f, hp, -, hf, rfl⟩⟩ := exec_next h
  · exact settleStatus_inv hslots hdone hl hlt
  · obtain ⟨hlen, -⟩ := writeWords_spec hf
    refine settleStatus_inv (i := j) rfl (insertIndex_pairwise hdone)
      (launched_congr hl rfl rfl rfl rfl rfl hlen) fun c hc => ?_
    rcases mem_insertIndex.1 hc with rfl | hc
    · exact (pickBlock_mem hp).1
    · exact hlt c hc

/-- Settles O55, by the three cases of a step. -/
theorem invariantKeptByStep : Obligations.InvariantKeptByStep := by
  intro s t hinv h
  rcases step_next h with hstart | ⟨hbusy, i, -, hexec⟩ | rfl
  · exact startInvocation_inv hinv hstart
  · exact exec_inv hinv hbusy hexec
  · exact hinv

/-- Settles O54. -/
theorem resetStateMeetsInvariant : Obligations.ResetStateMeetsInvariant :=
  ⟨rfl, rfl, rfl, by decide, .of_not_busy rfl .nil nofun⟩

/-! ### The caller -/

/-- An invocation is started or running (70_reset_and_hazards.md R206). -/
theorem engaged_iff {s : State} : engaged s = true ↔ s.startReq = true ∨ s.status = .busy := by
  rw [engaged, Bool.or_eq_true, beq_iff_eq]

theorem callerWrite_of_engaged {s : State} (h : engaged s = true) (s' : State) :
    callerWrite s s' = .refused .feedChangedDuringRun := if_pos h

theorem callerWrite_of_not_engaged {s : State} (h : engaged s = false) (s' : State) : callerWrite s s' = .next s' :=
  if_neg (Bool.eq_false_iff.1 h)

/-- The inversion of a caller's move: outside an invocation, slots, `done` and `STATUS` stay; or a reset. -/
theorem callerMove_next {m : CallerMove} {s t : State} (h : callerMove m s = .next t) :
    (s.status ≠ .busy ∧ t.slots = s.slots ∧ t.done = s.done ∧ t.status = s.status) ∨ t = resetMachine s := by
  cases heng : engaged s with
  | true =>
    cases m with
    | reset => cases h; exact .inr rfl
    | start => simp [callerMove, heng] at h
    | _ => simp [callerMove, callerWrite_of_engaged heng] at h
  | false =>
    have hidle : s.status ≠ .busy := fun hbusy => Bool.eq_false_iff.1 heng (engaged_iff.2 (.inr hbusy))
    cases m with
    | reset => cases h; exact .inr rfl
    | start =>
      simp only [callerMove, heng, Bool.false_eq_true, if_false] at h
      cases h
      exact .inl ⟨hidle, rfl, rfl, rfl⟩
    | _ =>
      simp only [callerMove, callerWrite_of_not_engaged heng] at h
      cases h
      exact .inl ⟨hidle, rfl, rfl, rfl⟩

/-- Settles O56: the moves allowed outside an invocation change nothing the invariant then asks of. -/
theorem invariantKeptByCaller : Obligations.InvariantKeptByCaller := by
  intro m s t ⟨hslots, hdone, _⟩ h
  rcases callerMove_next h with ⟨hidle, hs, hd, hstatus⟩ | rfl
  · exact .of_not_busy (hs.trans hslots) (hd ▸ hdone) (hstatus ▸ hidle)
  · exact .of_not_busy rfl .nil nofun

/-- Settles O57: each move but the reset asks `engaged` first. -/
theorem callerDutiesAndLiberties : Obligations.CallerDutiesAndLiberties := by
  intro s
  refine ⟨engaged_iff, fun heng => ?_, fun hfree => ?_, rfl, rfl, rfl, ?_⟩
  · have hwrite := callerWrite_of_engaged heng
    exact ⟨if_pos heng, fun w => ⟨hwrite _, hwrite _⟩, fun f => ⟨hwrite _, hwrite _, hwrite _⟩, if_pos heng⟩
  · have hwrite := callerWrite_of_not_engaged hfree
    have hneg := Bool.eq_false_iff.1 hfree
    exact ⟨if_neg hneg, if_neg hneg, fun w => ⟨hwrite _, hwrite _⟩, fun f => ⟨hwrite _, hwrite _, hwrite _⟩⟩
  · exact ⟨resetMachine s, rfl, rfl, rfl, rfl, rfl, rfl, rfl, resetMachine_out_length s⟩

end Sys2Proof.Machine
end

section
/-!
Proofs about the feeds: the layout of a stored Block, that it is loaded back unchanged, and what the two loads give or
refuse (20_memory.md R40 to R44, R56, 30_encoding.md R64).
-/

namespace Sys2Proof.Machine

open Sys2Proof

/-! ### Runs of words -/

/-- A run whose words are known is read as their list. -/
theorem readWords_of_memRead {f : Feed} {a k : Nat} {ws : List Word} (hlen : ws.length = k)
    (h : ∀ i < k, memRead f (a + i) = ws[i]?) : readWords f a k = some ws := by
  induction ws generalizing a k with
  | nil => subst hlen; rfl
  | cons w ws ih =>
    subst hlen
    have hhead : memRead f a = some w := h 0 (Nat.succ_pos _)
    have htail : readWords f (a + 1) ws.length = some ws := ih rfl fun i hi => by
      rw [Nat.add_assoc, Nat.add_comm 1]
      exact h (i + 1) (Nat.succ_lt_succ hi)
    rw [List.length_cons, readWords, hhead, htail]

/-- The words of a run that was read are the feed's words at its indices. -/
theorem mem_readWords_iff {f : Feed} {a k : Nat} {ws : List Word} (h : readWords f a k = some ws) {w : Word} :
    w ∈ ws ↔ ∃ i < k, memRead f (a + i) = some w := by
  have hlen := readWords_length h
  rw [List.mem_iff_getElem?]
  constructor
  · rintro ⟨i, hi⟩
    have hik : i < k := hlen ▸ (List.getElem?_eq_some_iff.1 hi).1
    exact ⟨i, hik, (readWords_getElem? h hik).symm.trans hi⟩
  · rintro ⟨i, hik, hi⟩
    exact ⟨i, (readWords_getElem? h hik).trans hi⟩

/-! ### The words of a stored Block -/

theorem blockWords_getElem?_sign (B : Block) {i : Nat} (h : i < B.elems.length) :
    (blockWords B)[1 + i]? = (B.elems.map signWord)[i]? := by
  rw [blockWords, Nat.add_comm, List.getElem?_cons_succ, List.getElem?_append_left (by rwa [List.length_map])]

theorem blockWords_getElem?_mant (B : Block) (i : Nat) :
    (blockWords B)[1 + B.elems.length + i]? = (B.elems.map mantWord)[i]? := by
  rw [blockWords, Nat.add_assoc, Nat.add_comm 1, List.getElem?_cons_succ,
    List.getElem?_append_right (by rw [List.length_map]; exact Nat.le_add_right _ _), List.length_map,
    Nat.add_sub_cancel_left]

theorem signWord_toNat (el : Elem) : (signWord el).toNat = if el.sign then 1 else 0 := by
  unfold signWord
  split <;> rfl

/-- A legal mantissa stands in its word unchanged (30_encoding.md R64). -/
theorem mantWord_toNat {cfg : Config} (hl : cfg.legal = true) {el : Elem} (h : el.mant ≤ cfg.mmax) :
    (mantWord el).toNat = el.mant := by
  have := mmax_lt hl
  rw [mantWord, BitVec.toNat_ofNat, Nat.mod_eq_of_lt (by omega)]

/-- A legal shared exponent stands in its word unchanged (30_encoding.md R64). -/
theorem expWord_toNat {cfg : Config} (hl : cfg.legal = true) {e : Nat} (h : e ≤ cfg.emax) :
    (BitVec.ofNat 32 e).toNat = e := by
  have := emax_eq hl
  have := bias_range hl
  rw [BitVec.toNat_ofNat, Nat.mod_eq_of_lt (by omega)]

/-- A Block that was stored stands in its run, and every other word is as it was. -/
theorem storeBlock_wrote {cfg : Config} {f g : Feed} {b : Nat} {B : Block} (h : storeBlock cfg f b B = .ok g) :
    Wrote f g (b * cfg.blkw) (blockWords B) := by
  unfold storeBlock storeWords at h
  split at h
  · rename_i g' hg
    cases h
    exact writeWords_spec hg
  · cases h

/-- The three fields of a stored Block in the feed (20_memory.md R42). -/
theorem storeBlock_reads {cfg : Config} {f g : Feed} {b : Nat} {B : Block} (hB : B.legal cfg = true)
    (h : storeBlock cfg f b B = .ok g) :
    memRead g (b * cfg.blkw) = some (BitVec.ofNat 32 B.exp) ∧
      (∀ i < cfg.n, memRead g (b * cfg.blkw + 1 + i) = (B.elems.map signWord)[i]?) ∧
      ∀ i < cfg.n, memRead g (b * cfg.blkw + 1 + cfg.n + i) = (B.elems.map mantWord)[i]? := by
  have hn := legal_elems_length hB
  obtain ⟨-, hread⟩ := storeBlock_wrote h
  have hrun : ∀ k < (blockWords B).length, memRead g (b * cfg.blkw + k) = (blockWords B)[k]? := fun k hk => by
    rw [hread, if_pos ⟨Nat.le_add_right _ _, Nat.add_lt_add_left hk _⟩, Nat.add_sub_cancel_left]
  rw [blockWords_length, hn] at hrun
  refine ⟨hrun 0 (by omega), fun i hi => ?_, fun i hi => ?_⟩
  · rw [Nat.add_assoc, hrun _ (by omega), blockWords_getElem?_sign B (hn ▸ hi)]
  · rw [Nat.add_assoc, Nat.add_assoc, ← Nat.add_assoc 1, hrun _ (by omega), ← hn, blockWords_getElem?_mant]

/-- Settles O23, from the words of the stored run. -/
theorem storedBlockLayout : Obligations.StoredBlockLayout := by
  refine ⟨fun cfg f g b B hl hB h => ?_, rfl⟩
  obtain ⟨hexp, hn, hmant⟩ := block_legal_iff.1 hB
  obtain ⟨hread0, hsigns, hmants⟩ := storeBlock_reads hB h
  refine ⟨hread0, expWord_toNat hl hexp, fun i el hel => ?_, fun a ha => ?_⟩
  · have hi : i < cfg.n := hn ▸ (List.getElem?_eq_some_iff.1 hel).1
    refine ⟨⟨signWord el, ?_, signWord_toNat el⟩, mantWord el, ?_,
      mantWord_toNat hl (hmant el (List.mem_of_getElem? hel))⟩
    · rw [hsigns i hi, List.getElem?_map, hel, Option.map_some]
    · rw [hmants i hi, List.getElem?_map, hel, Option.map_some]
  · obtain ⟨-, hread⟩ := storeBlock_wrote h
    rw [hread, blockWords_length, hn]
    exact if_neg ha

/-! ### A loaded Block -/

/-- The field ranges, word by word (20_memory.md R43). -/
theorem blockWordsLegal_iff {cfg : Config} {e : Word} {ss ms : List Word} :
    blockWordsLegal cfg e ss ms = true ↔
      e.toNat ≤ cfg.emax ∧ (∀ s ∈ ss, s.toNat ≤ 1) ∧ ∀ m ∈ ms, m.toNat ≤ cfg.mmax := by
  simp only [blockWordsLegal, Bool.and_eq_true, decide_eq_true_iff, List.all_eq_true, and_assoc]

/-- The words of a legal Block are assembled to that Block. -/
theorem assembleBlock_words {cfg : Config} (hl : cfg.legal = true) {B : Block} (hB : B.legal cfg = true) :
    assembleBlock (BitVec.ofNat 32 B.exp) (B.elems.map signWord) (B.elems.map mantWord) = B := by
  obtain ⟨hexp, -, hmant⟩ := block_legal_iff.1 hB
  have helem : ∀ el ∈ B.elems, (⟨(signWord el).toNat == 1, (mantWord el).toNat⟩ : Elem) = el := fun el hel => by
    rw [signWord_toNat, mantWord_toNat hl (hmant el hel)]
    cases el with | mk sign mant => cases sign <;> rfl
  rw [assembleBlock, expWord_toNat hl hexp, List.zipWith_map, List.zipWith_self, List.map_congr_left helem,
    List.map_id']

/-- The words of a legal Block are in their fields' ranges. -/
theorem blockWordsLegal_words {cfg : Config} (hl : cfg.legal = true) {B : Block} (hB : B.legal cfg = true) :
    blockWordsLegal cfg (BitVec.ofNat 32 B.exp) (B.elems.map signWord) (B.elems.map mantWord) = true := by
  obtain ⟨hexp, -, hmant⟩ := block_legal_iff.1 hB
  refine blockWordsLegal_iff.2 ⟨by rwa [expWord_toNat hl hexp], List.forall_mem_map.2 fun el _ => ?_,
    List.forall_mem_map.2 fun el hel => ?_⟩
  · rw [signWord_toNat]
    split <;> omega
  · rw [mantWord_toNat hl (hmant el hel)]
    exact hmant el hel

/-- Settles O24: the load reads the words of the stored run, which are in range and are assembled to the Block. -/
theorem storeThenLoadBlock : Obligations.StoreThenLoadBlock := by
  intro cfg f g b B hl hB h
  have hn := legal_elems_length hB
  obtain ⟨hread0, hsigns, hmants⟩ := storeBlock_reads hB h
  rw [loadBlock, hread0, readWords_of_memRead (by rwa [List.length_map]) hsigns,
    readWords_of_memRead (by rwa [List.length_map]) hmants]
  simp only [blockWordsLegal_words hl hB, if_true, assembleBlock_words hl hB]

/-- A feed that ends before the block does cannot be loaded. -/
theorem loadBlock_of_short {cfg : Config} (hl : cfg.legal = true) {f : Feed} {b : Nat}
    (h : f.length < b * cfg.blkw + cfg.blkw) : loadBlock cfg f b = .error .shortFeed := by
  obtain ⟨hn, -⟩ := legal_ranges hl
  have hmants : readWords f (b * cfg.blkw + 1 + cfg.n) cfg.n = none := by
    rw [readWords_eq, if_neg]
    unfold Config.blkw at h ⊢
    omega
  rw [loadBlock, hmants]
  split
  · contradiction
  · rfl

/-- Every word of block `b` that the feed holds is in its field's range (20_memory.md R43). -/
def BlockInRange (cfg : Config) (f : Feed) (b : Nat) : Prop :=
  (∀ w, memRead f (b * cfg.blkw) = some w → w.toNat ≤ cfg.emax) ∧
    (∀ i < cfg.n, ∀ w, memRead f (b * cfg.blkw + 1 + i) = some w → w.toNat ≤ 1) ∧
    ∀ i < cfg.n, ∀ w, memRead f (b * cfg.blkw + 1 + cfg.n + i) = some w → w.toNat ≤ cfg.mmax

/-- The load of a block that the feed holds turns on the ranges of its words alone. -/
theorem loadBlock_of_fits {cfg : Config} {f : Feed} {b : Nat} (h : b * cfg.blkw + cfg.blkw ≤ f.length) :
    (BlockInRange cfg f b → ∃ B, loadBlock cfg f b = .ok B) ∧
      (¬BlockInRange cfg f b → loadBlock cfg f b = .error .malformedBlockWord) := by
  have hwidth : cfg.blkw = 2 * cfg.n + 1 := rfl
  obtain ⟨e, he⟩ := Option.isSome_iff_exists.1 (memRead_isSome (f := f) (a := b * cfg.blkw).2 (by omega))
  obtain ⟨ss, hss⟩ : ∃ ss, readWords f (b * cfg.blkw + 1) cfg.n = some ss := ⟨_, readWords_of_le (by omega)⟩
  obtain ⟨ms, hms⟩ : ∃ ms, readWords f (b * cfg.blkw + 1 + cfg.n) cfg.n = some ms := ⟨_, readWords_of_le (by omega)⟩
  have hrange : blockWordsLegal cfg e ss ms = true ↔ BlockInRange cfg f b := by
    rw [blockWordsLegal_iff, BlockInRange]
    simp only [mem_readWords_iff hss, mem_readWords_iff hms, he, Option.some.injEq, forall_eq', forall_exists_index,
      and_imp]
    exact ⟨fun ⟨h1, h2, h3⟩ => ⟨h1, fun i hi w => h2 w i hi, fun i hi w => h3 w i hi⟩,
      fun ⟨h1, h2, h3⟩ => ⟨h1, fun w i hi => h2 i hi w, fun w i hi => h3 i hi w⟩⟩
  have hload : loadBlock cfg f b =
      if blockWordsLegal cfg e ss ms then .ok (assembleBlock e ss ms) else .error .malformedBlockWord := by
    rw [loadBlock, he, hss, hms]
  exact ⟨fun hin => ⟨_, by rw [hload, if_pos (hrange.2 hin)]⟩, fun hout => by rw [hload, if_neg (mt hrange.1 hout)]⟩

/-- A loaded Block is assembled from words of the feed in their ranges. -/
theorem loadBlock_eq_ok {cfg : Config} {f : Feed} {b : Nat} {B : Block} (h : loadBlock cfg f b = .ok B) :
    ∃ e ss ms, memRead f (b * cfg.blkw) = some e ∧ readWords f (b * cfg.blkw + 1) cfg.n = some ss ∧
      readWords f (b * cfg.blkw + 1 + cfg.n) cfg.n = some ms ∧ blockWordsLegal cfg e ss ms = true ∧
      B = assembleBlock e ss ms := by
  unfold loadBlock at h
  split at h
  · rename_i e ss ms he hss hms
    split at h <;> cases h
    exact ⟨e, ss, ms, he, hss, hms, ‹_›, rfl⟩
  · cases h

/-- A sign word in its range is the sign word of the element it makes. -/
theorem signWord_of_le_one {s : Word} (h : s.toNat ≤ 1) (m : Nat) : signWord ⟨s.toNat == 1, m⟩ = s := by
  refine BitVec.eq_of_toNat_eq ?_
  rw [signWord_toNat]
  simp only [beq_iff_eq]
  split <;> omega

/-- A loaded Block's words are the feed's words (20_memory.md R42). -/
theorem loadBlock_words {cfg : Config} {f : Feed} {b : Nat} {B : Block} (h : loadBlock cfg f b = .ok B) :
    memRead f (b * cfg.blkw) = some (BitVec.ofNat 32 B.exp) ∧
      ∀ i < cfg.n, ∃ el, B.elems[i]? = some el ∧ memRead f (b * cfg.blkw + 1 + i) = some (signWord el) ∧
        memRead f (b * cfg.blkw + 1 + cfg.n + i) = some (mantWord el) := by
  obtain ⟨e, ss, ms, he, hss, hms, hlegal, rfl⟩ := loadBlock_eq_ok h
  obtain ⟨-, hsigns, -⟩ := blockWordsLegal_iff.1 hlegal
  refine ⟨by rw [assembleBlock, BitVec.ofNat_toNat, BitVec.setWidth_eq, he], fun i hi => ?_⟩
  have hs := List.getElem?_eq_getElem (l := ss) (i := i) (by rwa [readWords_length hss])
  have hm := List.getElem?_eq_getElem (l := ms) (i := i) (by rwa [readWords_length hms])
  refine ⟨_, List.getElem?_zipWith_eq_some.2 ⟨_, _, hs, hm, rfl⟩, ?_, ?_⟩
  · rw [← readWords_getElem? hss hi, hs, signWord_of_le_one (hsigns _ (List.getElem_mem _))]
  · rw [← readWords_getElem? hms hi, hm, mantWord, BitVec.ofNat_toNat, BitVec.setWidth_eq]

/-! ### Loaded floats -/

theorem loadFloats_of_short {cfg : Config} (hl : cfg.legal = true) {f : Feed} {b : Nat}
    (h : f.length < b * cfg.n + cfg.n) : loadFloats cfg f b = .error .shortFeed := by
  obtain ⟨hn, -⟩ := legal_ranges hl
  rw [loadFloats, readWords_eq, if_neg (by omega)]

/-- Floats that were loaded are the feed's words (20_memory.md R41). -/
theorem loadFloats_getElem? {cfg : Config} {f : Feed} {b : Nat} {ws : List Word} (h : loadFloats cfg f b = .ok ws)
    {i : Nat} (hi : i < cfg.n) : ws[i]? = memRead f (b * cfg.n + i) := by
  unfold loadFloats at h
  split at h
  · rename_i ws' hws
    cases h
    exact readWords_getElem? hws hi
  · cases h

/-- Settles O25: a short feed, a word out of range, and the words of the feed otherwise. -/
theorem loadsGiveTheWordsOrRefuse : Obligations.LoadsGiveTheWordsOrRefuse := by
  intro cfg f b hl
  refine ⟨loadBlock_of_short hl, fun hfits hbad => (loadBlock_of_fits hfits).2 ?_,
    fun hfits hexp hsigns hmants => (loadBlock_of_fits hfits).1 ⟨hexp, hsigns, hmants⟩,
    fun B h => ⟨loadBlock_legal h, loadBlock_words h⟩, loadFloats_of_short hl, fun hfits => ?_⟩
  · rintro ⟨hexp, hsigns, hmants⟩
    rcases hbad with ⟨w, hw, hlt⟩ | ⟨i, hi, w, hw, hlt⟩ | ⟨i, hi, w, hw, hlt⟩
    · exact absurd (hexp w hw) (Nat.not_le.2 hlt)
    · exact absurd (hsigns i hi w hw) (Nat.not_le.2 hlt)
    · exact absurd (hmants i hi w hw) (Nat.not_le.2 hlt)
  · have hload := loadFloats_ok hfits
    exact ⟨_, hload, loadFloats_length hload, fun i hi => loadFloats_getElem? hload hi⟩

end Sys2Proof.Machine
end

section
/-!
Proofs about the float primitives: `rnd32` is the nearest binary32 word with ties to an even fraction, it fixes every
finite nonzero word, `f32exact` denotes its value, and the near-zero test of a decoded value (40_bit_utilities.md R90 to
R94, 43_arith_muldivrecip.md R154).
-/

namespace Sys2Proof.Machine

open Sys2Proof

/-! ### Rounding to an integer -/

/-- No natural number is nearer than the rounded one, and another is as near only where the rounded one is even. -/
theorem rne_nearest {x : ℚ} (hx : 0 ≤ x) (k : Nat) :
    |(rne x : ℚ) - x| ≤ |(k : ℚ) - x| ∧ (|(rne x : ℚ) - x| = |(k : ℚ) - x| → k ≠ rne x → rne x % 2 = 0) := by
  obtain ⟨hhalf, htie⟩ := nearestEven_rne hx
  by_cases hk : k = rne x
  · exact ⟨by rw [hk], fun _ hne => absurd hk hne⟩
  · have hapart : (1 : ℚ) ≤ |(k : ℚ) - rne x| := by
      have : (1 : Int) ≤ |(k : Int) - rne x| := Int.one_le_abs (sub_ne_zero.2 (mt Nat.cast_inj.1 hk))
      exact_mod_cast this
    have htriangle := abs_sub_le (k : ℚ) x (rne x)
    rw [abs_sub_comm x] at htriangle
    exact ⟨by linarith, fun heq _ => htie (by linarith)⟩

/-- The same in units of `u`. -/
theorem rne_div_nearest {a u : ℚ} (ha : 0 ≤ a) (hu : 0 < u) (k : Nat) :
    |(rne (a / u) : ℚ) * u - a| ≤ |(k : ℚ) * u - a| ∧
      (|(rne (a / u) : ℚ) * u - a| = |(k : ℚ) * u - a| → k ≠ rne (a / u) → rne (a / u) % 2 = 0) := by
  have hscale : ∀ r : Nat, |(r : ℚ) * u - a| = |(r : ℚ) - a / u| * u := fun r => by
    rw [← abs_of_pos hu, ← abs_mul, abs_of_pos hu, sub_mul, div_mul_cancel₀ _ hu.ne']
  rw [hscale, hscale, mul_le_mul_iff_left₀ hu, mul_left_inj' hu.ne']
  exact rne_nearest (div_nonneg ha hu.le) k

/-! ### The exponent and the significand of a rounding -/

/-- The exponent at which `rnd32` rounds a magnitude: that of its binade, but at least the least normal one
(40_bit_utilities.md R90, D12). -/
def roundingExp (a : ℚ) : Int := max (floorLog2 a) (-126)

/-- The unit of the last place at that exponent. -/
def ulp (a : ℚ) : ℚ := pow2 (roundingExp a - 23)

/-- The integer significand `rnd32` rounds a magnitude to. -/
def significand (a : ℚ) : Nat := rne (a / ulp a)

theorem ulp_pos (a : ℚ) : 0 < ulp a := pow2_pos _

/-- `rnd32` packs the rounded significand at the rounding exponent. -/
theorem rnd32_eq_pack {q : ℚ} (hq : q ≠ 0) :
    rnd32 q = rnd32Pack (decide (q < 0)) (roundingExp |q|) (significand |q|) := by
  have habs : (if q < 0 then -q else q) = |q| := by
    split
    · rename_i hneg; rw [abs_of_neg hneg]
    · rename_i hneg; rw [abs_of_nonneg (not_lt.1 hneg)]
  rw [rnd32, if_neg hq, habs]
  rfl

/-- The magnitude lies in the binade of its rounding exponent, or below the normal range. -/
theorem roundingExp_spec {a : ℚ} (ha : 0 < a) :
    a < pow2 (roundingExp a + 1) ∧ -126 ≤ roundingExp a ∧ (pow2 (roundingExp a) ≤ a ∨ roundingExp a = -126) := by
  obtain ⟨hlo, hhi⟩ := floorLog2_spec ha
  refine ⟨hhi.trans_le (pow2_le_pow2.2 (add_le_add_left (le_max_left _ _) 1)), le_max_right _ _, ?_⟩
  rcases max_choice (floorLog2 a) (-126) with h | h
  · exact .inl (by rwa [roundingExp, h])
  · exact .inr h

theorem roundingExp_of_normal {a : ℚ} (h : pow2 (-126) ≤ a) : pow2 (roundingExp a) ≤ a := by
  rcases (roundingExp_spec (lt_of_lt_of_le (pow2_pos _) h)).2.2 with hlo | heq
  · exact hlo
  · rwa [heq]

/-- `2^23` units of the last place are the lower end of the binade. -/
theorem pow2_eq_mul_ulp (a : ℚ) : pow2 (roundingExp a) = ((2 ^ 23 : Nat) : ℚ) * ulp a := by
  rw [ulp, ← pow2_natCast, ← pow2_add]
  congr 1
  push_cast
  ring

/-- The significand is within half a unit of the magnitude, and even at a tie. -/
theorem significand_spec {a : ℚ} (ha : 0 < a) :
    (significand a : ℚ) - 1 / 2 ≤ a / ulp a ∧ a / ulp a ≤ significand a + 1 / 2 ∧
      (a / ulp a = significand a + 1 / 2 ∨ a / ulp a = (significand a : ℚ) - 1 / 2 → significand a % 2 = 0) :=
  (rne_eq_iff (div_nonneg ha.le (ulp_pos a).le)).1 rfl

theorem significand_le_of_lt {a : ℚ} (ha : 0 < a) {k : Nat} (h : a / ulp a < k + 1 / 2) : significand a ≤ k := by
  obtain ⟨hlo, -, -⟩ := significand_spec ha
  have : (significand a : ℚ) < ((k + 1 : Nat) : ℚ) := by push_cast; linarith
  exact Nat.lt_succ_iff.1 (Nat.cast_lt.1 this)

theorem le_significand_of_lt {a : ℚ} (ha : 0 < a) {k : Nat} (h : (k : ℚ) - 1 / 2 < a / ulp a) : k ≤ significand a := by
  obtain ⟨-, hhi, -⟩ := significand_spec ha
  have : (k : ℚ) < ((significand a + 1 : Nat) : ℚ) := by push_cast; linarith
  exact Nat.lt_succ_iff.1 (Nat.cast_lt.1 this)

/-- The carry into the next binade is the largest significand. -/
theorem significand_le {a : ℚ} (ha : 0 < a) : significand a ≤ 2 ^ 24 := by
  obtain ⟨hhi, -, -⟩ := roundingExp_spec ha
  refine significand_le_of_lt ha ?_
  have : a / ulp a < 2 ^ 24 := by
    rw [div_lt_iff₀ (ulp_pos a)]
    rw [pow2_add, pow2_one, pow2_eq_mul_ulp] at hhi
    push_cast at hhi
    linarith
  push_cast
  linarith

/-- In the normal range the leading bit stands. -/
theorem le_significand {a : ℚ} (ha : 0 < a) (h : pow2 (roundingExp a) ≤ a) : 2 ^ 23 ≤ significand a := by
  refine le_significand_of_lt ha ?_
  rw [pow2_eq_mul_ulp, ← le_div_iff₀ (ulp_pos a)] at h
  linarith

/-! ### The overflow bound -/

/-- Below the overflow bound the packed exponent stays finite (40_bit_utilities.md R90). -/
theorem significand_of_lt_bound {a : ℚ} (ha : 0 < a) (h : a < pow2 128 - pow2 103) :
    roundingExp a ≤ 126 ∨ (roundingExp a = 127 ∧ significand a < 2 ^ 24) := by
  obtain ⟨-, -, hlo⟩ := roundingExp_spec ha
  have hle : roundingExp a ≤ 127 := by
    rcases hlo with hlo | heq
    · have := pow2_lt_pow2.1 (hlo.trans_lt (h.trans (sub_lt_self _ (pow2_pos 103))))
      omega
    · omega
  by_cases h127 : roundingExp a = 127
  · refine .inr ⟨h127, Nat.lt_of_le_pred (by norm_num) (significand_le_of_lt ha ?_)⟩
    have hulp : ulp a = pow2 104 := by rw [ulp, h127]; rfl
    rw [hulp, div_lt_iff₀ (pow2_pos _)]
    refine h.trans_le (le_of_eq ?_)
    simp only [pow2_eq_zpow]
    norm_num
  · exact .inl (by omega)

/-- From the overflow bound on the packed exponent is above 127: the bound itself is a tie, and `2^24` is even. -/
theorem significand_of_bound_le {a : ℚ} (h : pow2 128 - pow2 103 ≤ a) :
    127 < roundingExp a ∨ (roundingExp a = 127 ∧ significand a = 2 ^ 24) := by
  have h127 : pow2 127 ≤ pow2 128 - pow2 103 := by simp only [pow2_eq_zpow]; norm_num
  have ha : 0 < a := lt_of_lt_of_le (pow2_pos 127) (h127.trans h)
  obtain ⟨hhi, -, -⟩ := roundingExp_spec ha
  have hge := pow2_lt_pow2.1 ((h127.trans h).trans_lt hhi)
  rcases (by omega : 127 < roundingExp a ∨ roundingExp a = 127) with hgt | heq
  · exact .inl hgt
  · refine .inr ⟨heq, le_antisymm (significand_le ha) ?_⟩
    have hx : ((2 ^ 24 - 1 : Nat) : ℚ) + 1 / 2 ≤ a / ulp a := by
      have hulp : ulp a = pow2 104 := by rw [ulp, heq]; rfl
      rw [hulp, le_div_iff₀ (pow2_pos _)]
      refine le_trans (le_of_eq ?_) h
      simp only [pow2_eq_zpow]
      norm_num
    obtain ⟨-, hup, htie⟩ := significand_spec ha
    have hge : 2 ^ 24 - 1 ≤ significand a := le_significand_of_lt ha (by linarith)
    by_contra hlt
    have hm : significand a = 2 ^ 24 - 1 := by omega
    rw [hm] at hup htie
    have := htie (.inl (le_antisymm hup hx))
    norm_num at this

theorem rnd32Pack_overflow (s : Bool) {e : Int} {m : Nat} (h : 127 < e ∨ (e = 127 ∧ m = 2 ^ 24)) :
    rnd32Pack s e m = packFloat s 255 0 := by
  unfold rnd32Pack
  rw [if_pos]
  split <;> omega

/-! ### The packed word -/

/-- The packed fraction is the significand without its leading bit; a carry leaves none (40_bit_utilities.md R90). -/
theorem rnd32Pack_fracField (s : Bool) {e : Int} {m : Nat} (he : e ≤ 126 ∨ (e = 127 ∧ m < 2 ^ 24)) :
    (rnd32Pack s e m).fracField = m % 2 ^ 23 := by
  have hm : (if m = 2 ^ 24 then 2 ^ 23 else m) % 2 ^ 23 = m % 2 ^ 23 := by
    split <;> omega
  unfold rnd32Pack
  rw [if_neg (by split <;> omega)]
  rw [apply_ite Word.fracField, packFloat_fracField, packFloat_fracField, ite_self, BitVec.toNat_ofNat, hm]

/-- A significand below the leading bit is packed as a zero or a subnormal word (40_bit_utilities.md R90). -/
theorem rnd32Pack_subnormal (s : Bool) {m : Nat} (h : m < 2 ^ 23) :
    (rnd32Pack s (-126) m).sign = s ∧ (rnd32Pack s (-126) m).expField = 0 ∧
      f32val (rnd32Pack s (-126) m) = signed s ((m : ℚ) * pow2 (-149)) := by
  have hfrac : (rnd32Pack s (-126) m).fracField = m := by
    rw [rnd32Pack_fracField s (.inl (by norm_num)), Nat.mod_eq_of_lt h]
  have hpack : rnd32Pack s (-126) m = packFloat s 0 (BitVec.ofNat 23 m) := by
    unfold rnd32Pack
    simp only [if_neg (show m ≠ 2 ^ 24 by omega)]
    rw [if_neg (by norm_num), if_pos h]
  have hsign : (rnd32Pack s (-126) m).sign = s := by rw [hpack, packFloat_sign]
  have hexp : (rnd32Pack s (-126) m).expField = 0 := by rw [hpack, packFloat_expField]; rfl
  refine ⟨hsign, hexp, ?_⟩
  by_cases h0 : m = 0
  · have hzero : (rnd32Pack s (-126) m).isZero = true := by
      rw [Word.isZero, hexp, hfrac, h0]; rfl
    rw [f32val_zero hzero, h0, Nat.cast_zero, zero_mul, signed_zero]
  · rw [f32val_subnormal hexp (by rwa [hfrac]), hsign, hfrac]

/-- What `rnd32` gives below the overflow bound: a finite word of the right sign, normal in the normal range, whose
value is the significand in units of the last place and whose fraction is the significand's low bits. -/
structure Rounded (q : ℚ) (w : Word) : Prop where
  sign : w.sign = decide (q < 0)
  finite : w.finite = true
  normal : pow2 (-126) ≤ |q| → w.normal = true
  value : f32val w = signed (decide (q < 0)) ((significand |q| : ℚ) * ulp |q|)
  frac : w.fracField = significand |q| % 2 ^ 23

theorem rnd32_rounded {q : ℚ} (hq : q ≠ 0) (h : |q| < pow2 128 - pow2 103) : Rounded q (rnd32 q) := by
  have ha := abs_pos.2 hq
  obtain ⟨-, hge, hlo⟩ := roundingExp_spec ha
  have hbound := significand_of_lt_bound ha h
  have hfrac := rnd32Pack_fracField (decide (q < 0)) hbound
  rw [rnd32_eq_pack hq]
  rcases Nat.lt_or_ge (significand |q|) (2 ^ 23) with hm | hm
  · have hsub : ¬ pow2 (roundingExp |q|) ≤ |q| := fun hle => absurd (le_significand ha hle) (Nat.not_le.2 hm)
    have he : roundingExp |q| = -126 := hlo.resolve_left hsub
    obtain ⟨hsign, hexp, hval⟩ := rnd32Pack_subnormal (decide (q < 0)) hm
    rw [he] at hfrac ⊢
    exact
      { sign := hsign
        finite := finite_of_expField_eq_zero hexp
        normal := fun hn => absurd (roundingExp_of_normal hn) hsub
        value := by rw [hval, ulp, he]; rfl
        frac := hfrac }
  · obtain ⟨hsign, hnormal, -, hval⟩ := rnd32Pack_spec (decide (q < 0)) _ _ hm (significand_le ha) hge hbound
    exact ⟨hsign, finite_of_normal hnormal, fun _ => hnormal, hval, hfrac⟩

/-! ### No finite word is nearer -/

/-- A finite word at or above `2^e`, or any where `e` is the least exponent, is a whole number of units of the last
place at `e`. -/
theorem finite_on_grid {w : Word} (hf : w.finite = true) {e : Int} (he : -126 ≤ e)
    (h : pow2 e ≤ |f32val w| ∨ e = -126) : ∃ k : Nat, |f32val w| = (k : ℚ) * pow2 (e - 23) := by
  cases hexp : (decomposeInput Config.normative 0 w).exp with
  | none =>
    have hz : w.isZero = true :=
      ((decomposeInput_exp_eq_none_iff hf).1 hexp).resolve_right fun h => Bool.noConfusion h.1
    exact ⟨0, by rw [f32val_zero hz, abs_zero, Nat.cast_zero, zero_mul]⟩
  | some e' =>
    obtain ⟨-, -, -, hlt, hge, -⟩ := decomposeInput_value hf hexp
    have habs := abs_f32val_of_exp hf hexp
    set m := (decomposeInput Config.normative 0 w).mant
    have hle : e ≤ e' := by
      rcases h with h | rfl
      · have : |f32val w| < pow2 (e' + 1) := by
          rw [habs, show e' + 1 = ((24 : Nat) : Int) + (e' - 23) by push_cast; ring, pow2_add, pow2_natCast]
          exact mul_lt_mul_of_pos_right (Nat.cast_lt.2 hlt) (pow2_pos _)
        have := pow2_lt_pow2.1 (h.trans_lt this)
        omega
      · exact hge
    obtain ⟨j, hj⟩ := Int.eq_ofNat_of_zero_le (sub_nonneg.2 hle)
    refine ⟨m * 2 ^ j, ?_⟩
    rw [habs, Nat.cast_mul, ← pow2_natCast, mul_assoc, ← pow2_add]
    congr 2
    omega

/-- No finite word is nearer in magnitude than the rounded significand, and one of another magnitude is as near only
where the significand is even. -/
theorem significand_nearest {a : ℚ} (ha : 0 < a) {w : Word} (hf : w.finite = true) :
    |(significand a : ℚ) * ulp a - a| ≤ |(|f32val w|) - a| ∧
      (|(significand a : ℚ) * ulp a - a| = |(|f32val w|) - a| → |f32val w| ≠ (significand a : ℚ) * ulp a →
        significand a % 2 = 0) := by
  obtain ⟨-, hge, hlo⟩ := roundingExp_spec ha
  by_cases h : pow2 (roundingExp a) ≤ |f32val w| ∨ roundingExp a = -126
  · obtain ⟨k, hk⟩ := finite_on_grid hf hge h
    obtain ⟨hle, htie⟩ := rne_div_nearest ha.le (ulp_pos a) k
    rw [hk]
    exact ⟨hle, fun heq hne => htie heq fun hkm => hne (by rw [hkm]; rfl)⟩
  · obtain ⟨hsmall, hne⟩ := not_or.1 h
    have hbinade := hlo.resolve_right hne
    obtain ⟨hle, -⟩ := rne_div_nearest ha.le (ulp_pos a) (2 ^ 23)
    have hlt : |(significand a : ℚ) * ulp a - a| < |(|f32val w|) - a| := by
      refine lt_of_le_of_lt hle ?_
      rw [← pow2_eq_mul_ulp, abs_of_nonpos (by linarith), abs_of_nonpos (by linarith)]
      linarith
    exact ⟨hlt.le, fun heq => absurd heq hlt.ne⟩

/-- A value whose distance from `q` is that of the magnitudes has the sign of `q`. -/
theorem eq_signed_of_abs_sub_eq {q v : ℚ} (hq : q ≠ 0) (h : |v - q| = |(|v|) - (|q|)|) :
    v = signed (decide (q < 0)) |v| := by
  have hside : 0 ≤ v * q := by
    have := congrArg (· ^ 2) h
    simp only [sq_abs, sub_sq] at this
    have hvq : v * q = |v * q| := by rw [abs_mul]; linarith
    exact hvq ▸ abs_nonneg _
  rcases lt_or_gt_of_ne hq with hneg | hpos
  · rw [abs_of_nonpos (nonpos_of_mul_nonneg_left hside hneg)]
    simp [signed, hneg]
  · rw [abs_of_nonneg (nonneg_of_mul_nonneg_left hside hpos)]
    simp [signed, not_lt.2 hpos.le]

/-- The distance of the rounded word is that of its significand. -/
theorem Rounded.distance {q : ℚ} {w : Word} (h : Rounded q w) :
    |f32val w - q| = |(significand |q| : ℚ) * ulp |q| - (|q|)| := by
  have hsub : f32val w - q = signed (decide (q < 0)) ((significand |q| : ℚ) * ulp |q| - (|q|)) := by
    rw [signed_sub, signed_decide_abs, h.value]
  rw [hsub, abs_signed]

/-- A rounded word is nearest among the finite words, with an even fraction at a tie. -/
theorem Rounded.nearest {q : ℚ} {w : Word} (h : Rounded q w) (hq : q ≠ 0) {v : Word} (hv : v.finite = true) :
    |f32val w - q| ≤ |f32val v - q| ∧
      (|f32val w - q| = |f32val v - q| → f32val v ≠ f32val w → w.fracField % 2 = 0) := by
  obtain ⟨hle, htie⟩ := significand_nearest (abs_pos.2 hq) hv
  have hmag := abs_abs_sub_abs_le (f32val v) q
  rw [h.distance]
  refine ⟨hle.trans hmag, fun heq hne => ?_⟩
  have hdist := le_antisymm (heq ▸ hle) hmag
  have heven := htie (heq.trans hdist) fun hm =>
    hne ((eq_signed_of_abs_sub_eq hq hdist).trans (by rw [hm, h.value]))
  rw [h.frac]
  omega

/-- Settles O30: below the overflow bound the rounded word is nearest; from it on the pack is an infinity. -/
theorem roundToBinary32IsNearest : Obligations.RoundToBinary32IsNearest := by
  refine ⟨rnd32_zero, fun q hq => ⟨fun h => ?_, fun h => ?_⟩⟩
  · have hr := rnd32_rounded hq h
    exact ⟨hr.finite, hr.sign, hr.normal, fun w hw => hr.nearest hq hw⟩
  · rw [rnd32_eq_pack hq, rnd32Pack_overflow _ (significand_of_bound_le h)]
    by_cases hneg : q < 0
    · rw [if_pos hneg, decide_eq_true hneg]; decide
    · rw [if_neg hneg, decide_eq_false hneg]; decide

/-! ### Exact values -/

theorem decide_signed_neg (s : Bool) {a : ℚ} (ha : 0 < a) : decide (signed s a < 0) = s := by
  cases s with
  | false => exact decide_eq_false (not_lt.2 ha.le)
  | true => exact decide_eq_true (neg_neg_of_pos ha)

/-- A magnitude below the normal range that is a whole number of least units is its own significand. -/
theorem significand_of_subnormal {m : Nat} (h0 : 0 < m) (h : m < 2 ^ 23) :
    roundingExp ((m : ℚ) * pow2 (-149)) = -126 ∧ significand ((m : ℚ) * pow2 (-149)) = m := by
  have ha : 0 < (m : ℚ) * pow2 (-149) := mul_pos (Nat.cast_pos.2 h0) (pow2_pos _)
  obtain ⟨-, hge, hlo⟩ := roundingExp_spec ha
  have hlt : (m : ℚ) * pow2 (-149) < pow2 (-126) := by
    rw [show (-126 : Int) = ((23 : Nat) : Int) + -149 by norm_num, pow2_add, pow2_natCast]
    exact mul_lt_mul_of_pos_right (Nat.cast_lt.2 h) (pow2_pos _)
  have he : roundingExp ((m : ℚ) * pow2 (-149)) = -126 :=
    hlo.resolve_left fun hle => absurd (pow2_lt_pow2.1 (hle.trans_lt hlt)) (not_lt.2 hge)
  refine ⟨he, ?_⟩
  rw [significand, ulp, he, show (-126 : Int) - 23 = -149 by norm_num, mul_div_cancel_right₀ _ (pow2_pos _).ne',
    rne_natCast]

/-- A subnormal word is the rounding of its own value (40_bit_utilities.md D12). -/
theorem rnd32_f32val_of_subnormal {w : Word} (he : w.expField = 0) (hf : w.fracField ≠ 0) : rnd32 (f32val w) = w := by
  have hlt := fracField_lt w
  have hpos : 0 < (w.fracField : ℚ) * pow2 (-149) := mul_pos (Nat.cast_pos.2 (Nat.pos_of_ne_zero hf)) (pow2_pos _)
  have hne : signed w.sign ((w.fracField : ℚ) * pow2 (-149)) ≠ 0 := by
    rw [← abs_pos, abs_signed, abs_of_pos hpos]; exact hpos
  obtain ⟨hexp, hsig⟩ := significand_of_subnormal (Nat.pos_of_ne_zero hf) hlt
  obtain ⟨hsign, hzero, -⟩ := rnd32Pack_subnormal w.sign hlt
  rw [f32val_subnormal he hf, rnd32_eq_pack hne, decide_signed_neg _ hpos, abs_signed, abs_of_pos hpos, hexp, hsig]
  refine word_ext hsign (hzero.trans he.symm) ?_
  rw [rnd32Pack_fracField _ (.inl (by norm_num)), Nat.mod_eq_of_lt hlt]

/-- Settles O31, by the class of the word. -/
theorem roundingFixesFloats : Obligations.RoundingFixesFloats := by
  intro w hf hz
  rcases finite_cases hf with hzero | ⟨he, hfrac⟩ | hn
  · rw [hz] at hzero; cases hzero
  · exact rnd32_f32val_of_subnormal he hfrac
  · exact rnd32_f32val_of_normal hn

/-- Settles O32: the fields of `f32exact`, its value, and the rounding of a dyadic value in the normal range. -/
theorem floatExactDenotesItsValue : Obligations.FloatExactDenotesItsValue := by
  refine ⟨fun s m k h1 h24 hlo hhi => ?_, by decide⟩
  have h0 : m ≠ 0 := Nat.one_le_iff_ne_zero.1 h1
  obtain ⟨hsign, hexp, hfrac, -⟩ := f32exact_fields (s := s) h0 h24 hlo hhi
  refine ⟨hsign, hexp, ?_, f32val_f32exact_of_mem h0 h24 hlo hhi, (rnd32_dyadic s h0 h24 hlo hhi).symm⟩
  rw [← hfrac, Nat.add_mod_left, Nat.mod_eq_of_lt (fracField_lt _)]

/-! ### Decoded zeros and the near-zero test -/

/-- An element with mantissa 0 decodes to the packed zero of its sign bit (41_codec.md R115, D14). -/
theorem decodeElem_mant_zero (cfg : Config) (e : Nat) (s : Bool) : decodeElem cfg e ⟨s, 0⟩ = packFloat s 0 0 :=
  if_pos rfl

/-- Settles O42. -/
theorem decodedZeroKeepsItsSign : Obligations.DecodedZeroKeepsItsSign := by
  intro cfg e
  rw [decodeElem_mant_zero, decodeElem_mant_zero]
  decide

theorem pow2_neg_86_le_quantum {cfg : Config} (hl : cfg.legal = true) :
    pow2 (-86) ≤ pow2 (-(cfg.bias : Int) - cfg.wm) := by
  have := bias_range hl
  have := legal_ranges hl
  exact pow2_le_pow2.2 (by omega)

/-- The chain of bounds from the smallest quantum of any legal configuration down to the threshold
(43_arith_muldivrecip.md R154). -/
theorem nzThresh_lt_pow2_neg_86 : (12 / 10 : ℚ) * (1 / 10 ^ 26) < pow2 (-86) ∧
    nzThresh < (12 / 10 : ℚ) * (1 / 10 ^ 26) ∧ nzThresh = 1 / 10 ^ 30 := by
  rw [nzThresh, pow2_eq_zpow, Rat.mkRat_eq_div]
  norm_num

/-- Settles O33: a nonzero element is at least a quantum, which is above the threshold. -/
theorem nearZeroIsMantissaZero : Obligations.NearZeroIsMantissaZero := by
  refine ⟨fun cfg B el hl hB hel => ?_, nzThresh_lt_pow2_neg_86⟩
  obtain ⟨hexp, -, hmant⟩ := block_legal_iff.1 hB
  obtain ⟨-, hlow⟩ := elemValue_bounds hl hexp (hmant el hel)
  obtain ⟨h86, hmid, hthresh⟩ := nzThresh_lt_pow2_neg_86
  rw [nearZero_iff, f32val_decodeElem hl hexp (hmant el hel)]
  refine ⟨⟨fun hnear => ?_, fun h0 => ?_⟩, hlow, pow2_neg_86_le_quantum hl⟩
  · by_contra h0
    have := (pow2_neg_86_le_quantum hl).trans (hlow h0)
    linarith
  · rw [elemValue_eq_zero h0, abs_zero]
    norm_num

end Sys2Proof.Machine
end
